-- ==== Sys2Proof/Word.lean ====
section
/-! DEFINITION. The widths of HUFFENC's data (spec/00_scope.md R6, R10): every value is an unsigned bit vector. -/

namespace Sys2Proof

/-- A 32-bit register, command word or frequency: BUS_W = FREQ_W = 32 (R6). -/
abbrev Word := BitVec 32

/-- A symbol, an input byte or an output byte (R6: SYMBOLS = 256). -/
abbrev Byte := BitVec 8

/-- An index into ARENA: NODE_ID_W = 9 (R6). The value 0x1FF is NONE. -/
abbrev NodeId := BitVec 9

/-- A register offset inside the 256-byte window (R46). -/
abbrev Offset := BitVec 8

end Sys2Proof
end

