-- ==== Sys2Proof/Syntax.lean ====
section
/-! DEFINITION. The instructions of HUFFENC: one constructor for each row of spec/opcode_table.json. The first 13 are the
command words the engine completes (spec/30_encoding.md R77), the other 28 are the host's register accesses
(spec/40_host_access.md R90, R91). -/

namespace Sys2Proof

/-- The rows of spec/opcode_table.json. -/
inductive Instr where
  /-- NOP, word 0x00000000 (R103). -/
  | nop
  /-- CLEAR, word 0x00000001 (R104). -/
  | clear
  /-- BUILD, word 0x00000002 (R116). -/
  | build
  /-- GENCODES, word 0x00000003 (R126). -/
  | gencodes
  /-- EMIT, word 0x00000004 (R138). -/
  | emit
  /-- COMPRESS, word 0x00000005 (R139). -/
  | compress
  /-- PQ_RESET, word 0x00000010 (R112). -/
  | pqReset
  /-- PQ_PUSH sym, word 0x0000ss11 (R113). -/
  | pqPush (sym : Byte)
  /-- PQ_POP, word 0x00000012 (R114). -/
  | pqPop
  /-- READ_HEAP slot, word (slot << 16) | 0x13 (R115). -/
  | readHeap (slot : BitVec 9)
  /-- READ_FREQ sym, word 0x0000ss20 (R124). -/
  | readFreq (sym : Byte)
  /-- READ_CODE sym, w, word (w << 16) | (sym << 8) | 0x21 (R131). -/
  | readCode (sym : Byte) (w : BitVec 3)
  /-- READ_NODE id, word (id << 16) | 0x22 (R125). -/
  | readNode (id : NodeId)
  /-- WR CMD, v: a write at 0x04 (R98). -/
  | wrCmd (v : Word)
  /-- WR ARG, v: a write at 0x14 (R94). -/
  | wrArg (v : Word)
  /-- WR DATA_IN, v: a write at 0x18 (R95). -/
  | wrDataIn (v : Word)
  /-- WR at any other aligned offset (R91). -/
  | wrOther (off : Offset) (v : Word)
  /-- RD ID, 0x00 (R92). -/
  | rdId
  /-- RD STATUS, 0x08 (R92). -/
  | rdStatus
  /-- RD IN_CAP, 0x2C (R92). -/
  | rdInCap
  /-- RD OUT_CAP, 0x30 (R92). -/
  | rdOutCap
  /-- RD DATA_OUT, 0x1C: a read that pops (R96). -/
  | rdDataOut
  /-- RD ERROR, 0x0C (R97). -/
  | rdError
  /-- RD ERR_WORD, 0x10 (R97). -/
  | rdErrWord
  /-- RD ARG, 0x14 (R97). -/
  | rdArg
  /-- RD IN_LEN, 0x20 (R97). -/
  | rdInLen
  /-- RD OUT_LEN, 0x24 (R97). -/
  | rdOutLen
  /-- RD OUT_AVAIL, 0x28 (R97). -/
  | rdOutAvail
  /-- RD NSYM, 0x34 (R97). -/
  | rdNsym
  /-- RD ROOT, 0x38 (R97). -/
  | rdRoot
  /-- RD NODE_COUNT, 0x3C (R97). -/
  | rdNodeCount
  /-- RD PQ_SIZE, 0x40 (R97). -/
  | rdPqSize
  /-- RD BITCNT_LO, 0x44 (R97). -/
  | rdBitcntLo
  /-- RD BITCNT_HI, 0x48 (R97). -/
  | rdBitcntHi
  /-- RD TREE_LEN, 0x4C (R97). -/
  | rdTreeLen
  /-- RD RESULT0, 0x50 (R97). -/
  | rdResult0
  /-- RD RESULT1, 0x54 (R97). -/
  | rdResult1
  /-- RD RESULT2, 0x58 (R97). -/
  | rdResult2
  /-- RD CMD, 0x04: a write-only register reads 0 (R90). -/
  | rdCmd
  /-- RD DATA_IN, 0x18: a write-only register reads 0 (R90). -/
  | rdDataIn
  /-- RD at a reserved offset 0x5C to 0xFC (R52, R90). -/
  | rdReserved (off : Offset)
  deriving DecidableEq, Repr

/-- What a bus access does: a read, or a write of a 32-bit value (R12, R48). -/
inductive AccessKind where
  | read
  | write (v : Word)
  deriving DecidableEq, Repr

/-- One bus access as the platform presents it. The spec defines only the aligned 32-bit ones inside the window
(R48), so the address and the width stand in the record for the refusals of R51. -/
structure Access where
  /-- The bus address. -/
  addr : Nat
  /-- The width of the access in bytes. -/
  bytes : Nat
  kind : AccessKind
  deriving DecidableEq, Repr

/-- What reaches the decoder: a command word at the engine (R99), or an access of one whole register (R90, R91). -/
inductive Code where
  | command (w : Word)
  | read (off : Offset)
  | write (off : Offset) (v : Word)
  deriving DecidableEq, Repr

end Sys2Proof
end

