-- ==== Sys2Proof/WellFormed.lean ====
section
/-! DEFINITION. The checks on an instruction that its operands' types do not make: which offsets the two instructions
with an offset operand may carry (spec/40_host_access.md R90, R91; spec/20_memory.md R48, R52). -/

namespace Sys2Proof

/-- The offset is a multiple of 4 (R48). -/
abbrev Offset.Aligned (off : Offset) : Prop := off.toNat % 4 = 0

/-- The offsets a write acts at: CMD, ARG and DATA_IN (R17, R91). -/
abbrev Offset.Writable (off : Offset) : Prop := off = 0x04#8 ∨ off = 0x14#8 ∨ off = 0x18#8

/-- The reserved offsets, 0x5C to 0xFC (R52). -/
abbrev Offset.Reserved (off : Offset) : Prop := 0x5C ≤ off.toNat

/-- An instruction the decoder can give: an ignored write stands at an aligned offset that has no write of its own, and
a reserved read at an aligned reserved offset. -/
abbrev Instr.WellFormed : Instr → Prop
  | .wrOther off _ => off.Aligned ∧ ¬ off.Writable
  | .rdReserved off => off.Aligned ∧ off.Reserved
  | _ => True

end Sys2Proof
end

