-- ==== Sys2Proof/Decode.lean ====
section
/-! DEFINITION. Decoding and encoding: the command word (spec/30_encoding.md R75 to R81, R89) and the register offset of
a bus access (R67, spec/40_host_access.md R90, R91). -/

namespace Sys2Proof

/-- Why a code is no instruction. -/
inductive DecodeError where
  /-- The command word is invalid (R78, R79): it raises BAD_COMMAND when it completes. -/
  | badCommand
  /-- The offset is not a multiple of 4 (R51): the access is refused. -/
  | misaligned
  deriving DecidableEq, Repr

/-- OPC, bits 7:0 (R75). -/
def opcOf (w : Word) : Byte := w.extractLsb' 0 8

/-- A, bits 15:8: the symbol operand (R75, R76). -/
def symOf (w : Word) : Byte := w.extractLsb' 8 8

/-- B, bits 24:16: the index operand (R75, R76). -/
def idxOf (w : Word) : BitVec 9 := w.extractLsb' 16 9

/-- B[2:0], bits 18:16: READ_CODE's word index (R76). -/
def wordIdxOf (w : Word) : BitVec 3 := w.extractLsb' 16 3

/-- B[8:3], bits 24:19: must be 0 in READ_CODE (R76, R78). -/
def idxHighOf (w : Word) : BitVec 6 := w.extractLsb' 19 6

/-- RSV, bits 31:25 (R75). -/
def rsvOf (w : Word) : BitVec 7 := w.extractLsb' 25 7

/-- Gives `i` when every operand field the opcode does not use is 0 (R78, conditions 2 and 3). -/
def whenUnused (unused : Bool) (i : Instr) : Except DecodeError Instr :=
  if unused then .ok i else .error .badCommand

/-- The command decoder: the opcode map of R77 under the validity conditions of R78. -/
def decodeCommand (w : Word) : Except DecodeError Instr :=
  let noRsv := rsvOf w == 0
  let noA := symOf w == 0
  let noB := idxOf w == 0
  match (opcOf w).toNat with
  | 0x00 => whenUnused (noRsv && noB && noA) .nop
  | 0x01 => whenUnused (noRsv && noB && noA) .clear
  | 0x02 => whenUnused (noRsv && noB && noA) .build
  | 0x03 => whenUnused (noRsv && noB && noA) .gencodes
  | 0x04 => whenUnused (noRsv && noB && noA) .emit
  | 0x05 => whenUnused (noRsv && noB && noA) .compress
  | 0x10 => whenUnused (noRsv && noB && noA) .pqReset
  | 0x11 => whenUnused (noRsv && noB) (.pqPush (symOf w))
  | 0x12 => whenUnused (noRsv && noB && noA) .pqPop
  | 0x13 => whenUnused (noRsv && noA) (.readHeap (idxOf w))
  | 0x20 => whenUnused (noRsv && noB) (.readFreq (symOf w))
  | 0x21 => whenUnused (noRsv && idxHighOf w == 0) (.readCode (symOf w) (wordIdxOf w))
  | 0x22 => whenUnused (noRsv && noA) (.readNode (idxOf w))
  | _ => .error .badCommand

/-- The decoder of a whole-register read (R67, R90). -/
def decodeRead (off : Offset) : Except DecodeError Instr :=
  match off.toNat with
  | 0x00 => .ok .rdId
  | 0x04 => .ok .rdCmd
  | 0x08 => .ok .rdStatus
  | 0x0C => .ok .rdError
  | 0x10 => .ok .rdErrWord
  | 0x14 => .ok .rdArg
  | 0x18 => .ok .rdDataIn
  | 0x1C => .ok .rdDataOut
  | 0x20 => .ok .rdInLen
  | 0x24 => .ok .rdOutLen
  | 0x28 => .ok .rdOutAvail
  | 0x2C => .ok .rdInCap
  | 0x30 => .ok .rdOutCap
  | 0x34 => .ok .rdNsym
  | 0x38 => .ok .rdRoot
  | 0x3C => .ok .rdNodeCount
  | 0x40 => .ok .rdPqSize
  | 0x44 => .ok .rdBitcntLo
  | 0x48 => .ok .rdBitcntHi
  | 0x4C => .ok .rdTreeLen
  | 0x50 => .ok .rdResult0
  | 0x54 => .ok .rdResult1
  | 0x58 => .ok .rdResult2
  | n => if n % 4 = 0 ∧ 0x5C ≤ n then .ok (.rdReserved off) else .error .misaligned

/-- The decoder of a whole-register write (R91). -/
def decodeWrite (off : Offset) (v : Word) : Except DecodeError Instr :=
  match off.toNat with
  | 0x04 => .ok (.wrCmd v)
  | 0x14 => .ok (.wrArg v)
  | 0x18 => .ok (.wrDataIn v)
  | n => if n % 4 = 0 then .ok (.wrOther off v) else .error .misaligned

/-- The decoder. It is total: every code is an instruction or is rejected by name. -/
def decode : Code → Except DecodeError Instr
  | .command w => decodeCommand w
  | .read off => decodeRead off
  | .write off v => decodeWrite off v

/-- The instruction of a row of spec/opcode_table.json, from the row's bits. A command row gives all 32 bits of the
command word. A bus row gives the 8 bits of the offset and no bit for the direction of the access, so the three offsets
that a read row and a write row share (CMD, ARG, DATA_IN) are taken as the write of 0 and every other offset as the read.
DESIGN CHOICE (log 3). -/
def decodeTableCode (nbits w : Nat) : Option Code :=
  match nbits with
  | 32 => if w < 2 ^ 32 then some (.command (BitVec.ofNat 32 w)) else none
  | 8 =>
    match w with
    | 0x04 => some (.write 0x04#8 0#32)
    | 0x14 => some (.write 0x14#8 0#32)
    | 0x18 => some (.write 0x18#8 0#32)
    | n => if n < 256 then some (.read (BitVec.ofNat 8 n)) else none
  | _ => none

/-- The decoder on a row of spec/opcode_table.json. -/
def decodeTableWord (nbits w : Nat) : Option Instr :=
  match decodeTableCode nbits w with
  | none => none
  | some c =>
    match decode c with
    | .ok i => some i
    | .error _ => none

/-- The command word with the fields B, A and OPC and RSV = 0: `word = {RSV, B, A, OPC}` (R75). -/
def commandWord (b : BitVec 9) (a : Byte) (opc : Byte) : Word := 0#7 ++ b ++ a ++ opc

/-- The encoder (R89 for the commands, R67, R90 and R91 for the accesses). -/
def encode : Instr → Code
  | .nop => .command (commandWord 0 0 0x00)
  | .clear => .command (commandWord 0 0 0x01)
  | .build => .command (commandWord 0 0 0x02)
  | .gencodes => .command (commandWord 0 0 0x03)
  | .emit => .command (commandWord 0 0 0x04)
  | .compress => .command (commandWord 0 0 0x05)
  | .pqReset => .command (commandWord 0 0 0x10)
  | .pqPush sym => .command (commandWord 0 sym 0x11)
  | .pqPop => .command (commandWord 0 0 0x12)
  | .readHeap slot => .command (commandWord slot 0 0x13)
  | .readFreq sym => .command (commandWord 0 sym 0x20)
  | .readCode sym w => .command (commandWord (w.setWidth 9) sym 0x21)
  | .readNode id => .command (commandWord id 0 0x22)
  | .wrCmd v => .write 0x04 v
  | .wrArg v => .write 0x14 v
  | .wrDataIn v => .write 0x18 v
  | .wrOther off v => .write off v
  | .rdId => .read 0x00
  | .rdCmd => .read 0x04
  | .rdStatus => .read 0x08
  | .rdError => .read 0x0C
  | .rdErrWord => .read 0x10
  | .rdArg => .read 0x14
  | .rdDataIn => .read 0x18
  | .rdDataOut => .read 0x1C
  | .rdInLen => .read 0x20
  | .rdOutLen => .read 0x24
  | .rdOutAvail => .read 0x28
  | .rdInCap => .read 0x2C
  | .rdOutCap => .read 0x30
  | .rdNsym => .read 0x34
  | .rdRoot => .read 0x38
  | .rdNodeCount => .read 0x3C
  | .rdPqSize => .read 0x40
  | .rdBitcntLo => .read 0x44
  | .rdBitcntHi => .read 0x48
  | .rdTreeLen => .read 0x4C
  | .rdResult0 => .read 0x50
  | .rdResult1 => .read 0x54
  | .rdResult2 => .read 0x58
  | .rdReserved off => .read off

/-- The command word of an instruction; 0 for an access, which has none. -/
def encodeWord (i : Instr) : Word :=
  match encode i with
  | .command w => w
  | _ => 0

/-- A row of the match and mask table of R78. -/
structure CommandRow where
  mask : Word
  pattern : Word
  deriving DecidableEq, Repr

/-- The match and mask table of R78, a row for each opcode of R77. -/
def commandRows : List CommandRow :=
  [⟨0xFFFFFFFF, 0x00⟩, ⟨0xFFFFFFFF, 0x01⟩, ⟨0xFFFFFFFF, 0x02⟩, ⟨0xFFFFFFFF, 0x03⟩, ⟨0xFFFFFFFF, 0x04⟩,
   ⟨0xFFFFFFFF, 0x05⟩, ⟨0xFFFFFFFF, 0x10⟩, ⟨0xFFFF00FF, 0x11⟩, ⟨0xFFFFFFFF, 0x12⟩, ⟨0xFE00FFFF, 0x13⟩,
   ⟨0xFFFF00FF, 0x20⟩, ⟨0xFFF800FF, 0x21⟩, ⟨0xFE00FFFF, 0x22⟩]

/-- The word fits the row: `(word & mask) == match` (R78). -/
def CommandRow.fits (r : CommandRow) (w : Word) : Bool := w &&& r.mask == r.pattern

end Sys2Proof
end

