-- ==== Sys2Proof/Config.lean ====
section
/-! DEFINITION. What is fixed for one HUFFENC (spec/00_scope.md R6 to R9) and the values the spec leaves free (R12, R93). -/

namespace Sys2Proof

/-- SYMBOLS, the size of the alphabet (R6). -/
abbrev Config.symbols : Nat := 256

/-- HEAP_CAP, the number of heap slots (R6). -/
abbrev Config.heapCap : Nat := 256

/-- ARENA_CAP, the number of node records (R6). -/
abbrev Config.arenaCap : Nat := 511

/-- NONE, the null node id (R6). -/
abbrev Config.noNode : NodeId := 0x1FF#9

/-- REG_WINDOW, the size of the register window in bytes (R6, R46). -/
abbrev Config.window : Nat := 256

/-- The value the ID register reads, "HUF1" (R18, R71). -/
abbrev Config.idValue : Word := 0x48554631#32

/-- The three open parameters of an instance of HUFFENC (R7, R8, R9, R45). The spec has the model take them as
arguments. They stand in State as fields that no step changes, so a statement about every state is a statement about
every value of them. DESIGN CHOICE (log 1). -/
structure Params where
  /-- IN_CAP: the capacity of INBUF in bytes (R7). -/
  inCap : Nat
  /-- OUT_CAP: the capacity of OUTBUF in bytes (R8). -/
  outCap : Nat
  /-- REG_BASE: the bus address of register offset 0x00 (R9). -/
  regBase : Nat
  deriving DecidableEq, Repr

/-- The legal values of the open parameters (R7, R8, R9). -/
abbrev Params.Ok (p : Params) : Prop :=
  1 ≤ p.inCap ∧ p.inCap ≤ 2 ^ 32 - 1 ∧ 1 ≤ p.outCap ∧ p.outCap ≤ 2 ^ 32 - 1 ∧ p.regBase % Config.window = 0

/-- The parameters of the instance that State.reset stands for: the values spec/95_test_vectors.md section 1 takes
"unless a vector says otherwise", and REG_BASE = 0. DESIGN CHOICE (log 1): the spec leaves the three open. Statements
about reset are made for every Params. -/
def Config.params : Params where
  inCap := 1048576
  outCap := 1048576
  regBase := 0

/-- draw32 (R12, R93): the value a read returns while BUSY = 1. It has no body, so nothing can be proved of it. The
argument is the number of draws taken before. Free value (log 2). -/
opaque Config.draw32 : Nat → Word

end Sys2Proof
end

