-- ==== Sys2Proof/Machine/State.lean ====
section
/-! DEFINITION. The state of HUFFENC (spec/10_state.md R14), with the parameters of the instance (R45) and the model's
own record of the world outside the block: what the host and the reset input do next, and what the host has read. -/

namespace Sys2Proof.Machine

/-- A memory of the block: the entries that differ from the value an unlisted index reads as, indexes strictly rising
(`Table.WF`). -/
abbrev Table (α : Type) := List (Nat × α)

/-- A memory of bytes, as Host.Cell writes them: INBUF and OUTBUF (R25, R26). -/
abbrev Memory := List Host.Cell

/-- The session phase (R20). -/
inductive Phase where
  | idle
  | built
  | coded
  | done
  deriving DecidableEq, Repr

/-- A node record of ARENA (R29). -/
structure Node where
  leaf : Bool
  sym : Byte
  freq : Word
  left : NodeId
  right : NodeId
  deriving DecidableEq, Repr

/-- What can reach the block from outside (R13): one access of the host, or the reset input. -/
inductive Event where
  | access (a : Access)
  | reset
  deriving DecidableEq, Repr

/-- One event still to come. `engineFirst` says where the engine's completion step falls while a command is pending:
before this event, or after it (R60, R101). -/
structure Planned where
  engineFirst : Bool
  event : Event
  deriving DecidableEq, Repr

/-- The whole state. BUSY, ERR, OUT_VALID and OUT_AVAIL are computed from it (R21, R24): Machine/Flags.lean. -/
structure State where
  /-- ARG (R15). -/
  arg : Word
  /-- RESULT0 (R16). -/
  result0 : Word
  /-- RESULT1 (R16). -/
  result1 : Word
  /-- RESULT2 (R16). -/
  result2 : Word
  /-- PHASE (R20). -/
  phase : Phase
  /-- PENDING, with BUSY: a command is pending exactly when BUSY = 1 (R21). -/
  pending : Option Word
  /-- ERR_CODE (R22). -/
  errCode : BitVec 4
  /-- ERR_SRC (R22): false for a command word, true for a DATA_IN write. -/
  errSrc : Bool
  /-- ERR_WORD (R22). -/
  errWord : Word
  /-- OVERRUN (R23). -/
  overrun : Bool
  /-- INBUF (R25). -/
  inbuf : Memory
  /-- IN_LEN (R25). -/
  inLen : Word
  /-- OUTBUF (R26). -/
  outbuf : Memory
  /-- OUT_LEN (R26). -/
  outLen : Word
  /-- OUT_RD (R26). -/
  outRd : Word
  /-- FREQ, indexed by symbol (R27). -/
  freq : Table Word
  /-- NSYM (R28). -/
  nsym : BitVec 9
  /-- ARENA, indexed by node id (R29). -/
  arena : Table Node
  /-- NODE_COUNT (R30). -/
  nodeCount : BitVec 10
  /-- HEAP, indexed by slot, the first slot being 1 (R32). -/
  heap : Table NodeId
  /-- PQ_SIZE (R32). -/
  pqSize : BitVec 9
  /-- ROOT (R34). -/
  root : NodeId
  /-- CODE_LEN, indexed by symbol (R35). -/
  codeLen : Table Byte
  /-- CODE_BITS, indexed by symbol: bit k is the k-th bit of the code (R35). -/
  codeBits : Table (BitVec 255)
  /-- BITCNT (R36). -/
  bitcnt : BitVec 64
  /-- TREE_LEN (R37). -/
  treeLen : Word
  /-- IN_CAP, OUT_CAP and REG_BASE (R45): no step changes them. -/
  params : Params
  /-- The model's own: the accesses and resets still to come, in program order (R13, R60). DESIGN CHOICE (log 4). -/
  agenda : List Planned
  /-- The model's own: the values the host has read, in order (R184). DESIGN CHOICE (log 4). -/
  reads : List Word
  /-- The model's own: the number of draws taken (R12, R93), the argument of the next `Config.draw32`. Free value
  (log 2). -/
  draws : Nat
  deriving DecidableEq, Repr

/-- Where a run stops. -/
inductive Fault where
  /-- Raised by Step when no step is enabled: no event is to come and no command is pending. The run is over (R184).
  Safe. -/
  | runOver
  /-- Raised by GENCODES, EMIT and COMPRESS when the tree walk of R127 or R133 does not end, because the node records
  reached from ROOT form a cycle: the command never completes. R31 rules this out in every state a run reaches. Safe. -/
  | endlessWalk
  deriving DecidableEq, Repr

/-- What the model gives no meaning to. -/
inductive Refusal where
  /-- Raised by exec's arms for an instruction without a meaning yet. Safe. -/
  | notModelled (mnemonic : String)
  /-- Raised by the fetch of an access that is not 32 bits wide or not at a multiple of 4: "A model refuses the access"
  (R51). Safe. -/
  | unsupportedAccess
  /-- Raised by the fetch of an access outside the register window, which is none of HUFFENC's (R46, R47, R59). Safe. -/
  | outsideWindow
  deriving DecidableEq, Repr

/-- The state right after reset of the instance with parameters `p` (R14, R41, R170, R171). The memories R14 marks
"unspecified" read 0 everywhere, as R42 allows. DESIGN CHOICE (log 5). -/
def State.resetWith (p : Params) : State where
  arg := 0#32
  result0 := 0#32
  result1 := 0#32
  result2 := 0#32
  phase := .idle
  pending := none
  errCode := 0#4
  errSrc := false
  errWord := 0#32
  overrun := false
  inbuf := []
  inLen := 0#32
  outbuf := []
  outLen := 0#32
  outRd := 0#32
  freq := []
  nsym := 0#9
  arena := []
  nodeCount := 0#10
  heap := []
  pqSize := 0#9
  root := Config.noNode
  codeLen := []
  codeBits := []
  bitcnt := 0#64
  treeLen := 0#32
  params := p
  agenda := []
  reads := []
  draws := 0

/-- The state right after reset. -/
def State.reset : State := State.resetWith Config.params

end Sys2Proof.Machine
end

