-- ==== Sys2Proof/Machine/Flags.lean ====
section
/-! DEFINITION. The flags computed from the state and the words of the STATUS and ERROR registers
(spec/10_state.md R20 to R24; spec/30_encoding.md R69, R70). -/

namespace Sys2Proof.Machine

/-- The value of PHASE in STATUS[5:4] (R20). -/
def Phase.code : Phase → BitVec 2
  | .idle => 0
  | .built => 1
  | .coded => 2
  | .done => 3

/-- BUSY: 1 exactly while a command is pending (R21). -/
def State.busy (s : State) : Bool := s.pending.isSome

/-- ERR: ERR_CODE != 0 (R24). -/
def State.err (s : State) : Bool := s.errCode != 0

/-- OUT_VALID: OUT_RD < OUT_LEN (R24). -/
def State.outValid (s : State) : Bool := s.outRd.ult s.outLen

/-- OUT_AVAIL: OUT_LEN - OUT_RD (R24). -/
def State.outAvail (s : State) : Word := s.outLen - s.outRd

/-- STATUS = `{0[31:6], PHASE[1:0], OUT_VALID, OVERRUN, ERR, BUSY}` (R69). -/
def State.statusWord (s : State) : Word :=
  0#26 ++ s.phase.code ++ BitVec.ofBool s.outValid ++ BitVec.ofBool s.overrun ++ BitVec.ofBool s.err
    ++ BitVec.ofBool s.busy

/-- ERROR = `{0[31:9], SRC, 0[7:4], CODE}` (R70). -/
def State.errorWord (s : State) : Word :=
  0#23 ++ BitVec.ofBool s.errSrc ++ 0#4 ++ s.errCode

end Sys2Proof.Machine
end

