-- ==== Sys2Proof/Machine/Ops.lean ====
section
/-! DEFINITION. The shared operations: the block's memories, recording an error and clearing it, completing a command,
and the ways a register access ends. -/

namespace Sys2Proof.Machine

/-! ### Memories -/

/-- The entry at `k`; `d` is what an unlisted index reads as. -/
def Table.get {α : Type} (d : α) : Table α → Nat → α
  | [], _ => d
  | (a, v) :: rest, k => if a = k then v else Table.get d rest k

/-- The table without index `k`. -/
def Table.erase {α : Type} (m : Table α) (k : Nat) : Table α := m.filter fun c => c.1 != k

/-- Puts `(k, v)` before the first higher index. -/
def Table.insert {α : Type} (k : Nat) (v : α) : Table α → Table α
  | [] => [(k, v)]
  | (a, w) :: rest => if k < a then (k, v) :: (a, w) :: rest else (a, w) :: Table.insert k v rest

/-- Writes `v` at `k`, keeping the canonical form: writing what an unlisted index reads as removes the entry. -/
def Table.set {α : Type} [DecidableEq α] (d : α) (m : Table α) (k : Nat) (v : α) : Table α :=
  if v = d then Table.erase m k else Table.insert k v (Table.erase m k)

/-- The canonical form: indexes strictly rising, and no entry equal to what an unlisted index reads as. -/
abbrev Table.WF {α : Type} [DecidableEq α] (d : α) (m : Table α) : Prop :=
  (m.map Prod.fst).Pairwise (· < ·) ∧ ∀ c ∈ m, c.2 ≠ d

/-- What a byte of INBUF or OUTBUF that nothing has written reads as: R42 lets a model take any value, "for example
zero". DESIGN CHOICE (log 5). -/
abbrev Memory.unlisted : Byte := 0#8

/-- The canonical form of a byte memory. -/
abbrev Memory.wf (m : Memory) : Prop := Table.WF Memory.unlisted m

/-- The byte at index `k`. -/
def Memory.read (m : Memory) (k : Nat) : Byte := Table.get Memory.unlisted m k

/-- Writes the byte at index `k`. -/
def Memory.write (m : Memory) (k : Nat) (v : Byte) : Memory := Table.set Memory.unlisted m k v

/-- Writes consecutive bytes from index `k` on. -/
def Memory.writeList (m : Memory) (k : Nat) : List Byte → Memory
  | [] => m
  | b :: rest => Memory.writeList (m.write k b) (k + 1) rest

/-- The bytes at indexes 0 to `n - 1`. -/
def Memory.take (m : Memory) (n : Nat) : List Byte := (List.range n).map m.read

/-- The node record an unlisted index of ARENA reads as (R42). DESIGN CHOICE (log 5). -/
def Node.blank : Node where
  leaf := false
  sym := 0
  freq := 0
  left := 0
  right := 0

/-- FREQ[s] (R27). -/
def State.freqAt (s : State) (sym : Nat) : Word := Table.get 0 s.freq sym

/-- ARENA[n] (R29). -/
def State.nodeAt (s : State) (n : NodeId) : Node := Table.get Node.blank s.arena n.toNat

/-- HEAP[i] (R32). -/
def State.heapAt (s : State) (i : Nat) : NodeId := Table.get 0 s.heap i

/-- CODE_LEN[s] (R35). -/
def State.codeLenAt (s : State) (sym : Nat) : Byte := Table.get 0 s.codeLen sym

/-- CODE_BITS[s] (R35). -/
def State.codeBitsAt (s : State) (sym : Nat) : BitVec 255 := Table.get 0 s.codeBits sym

/-- The code of s: the bit string c with len(c) = CODE_LEN[s] and c[k] the bit k of CODE_BITS[s] (R35). -/
def State.codeOf (s : State) (sym : Byte) : List Bool :=
  (List.range (s.codeLenAt sym.toNat).toNat).map fun k => (s.codeBitsAt sym.toNat).getLsbD k

/-- INBUF[0..IN_LEN-1] (R25). -/
def State.inputBytes (s : State) : List Byte := s.inbuf.take s.inLen.toNat

/-- OUTBUF[0..OUT_LEN-1] (R26). -/
def State.outputBytes (s : State) : List Byte := s.outbuf.take s.outLen.toNat

/-! ### Errors: recording one (the entry of the error condition) and clearing it (the return) -/

/-- The errors HUFFENC raises (R155). -/
inductive ErrorKind where
  | emptyInput
  | badCommand
  | sequence
  | inOverflow
  | outOverflow
  | pqFull
  deriving DecidableEq, Repr

/-- ERROR.CODE of an error (R155). -/
def ErrorKind.code : ErrorKind → BitVec 4
  | .emptyInput => 1
  | .badCommand => 5
  | .sequence => 6
  | .inOverflow => 7
  | .outOverflow => 8
  | .pqFull => 9

/-- `raise E(word, src)` (R156): the first error is kept. `src` is true for a DATA_IN write. -/
def State.raise (s : State) (e : ErrorKind) (word : Word) (src : Bool) : State :=
  if s.errCode = 0 then { s with errCode := e.code, errSrc := src, errWord := word } else s

/-- Every state element of R14 takes its reset value: the reset event (R170), CLEAR (R104) and with it leaving the
error condition (R162). The parameters and the world outside the block stay. -/
def State.cleared (s : State) : State :=
  { State.resetWith s.params with agenda := s.agenda, reads := s.reads, draws := s.draws }

/-! ### Completing a command -/

/-- How the semantics of a command ends (R99, R100): with its effects, by raising an error over the effects the stages
before it left (R139), or not at all. -/
inductive Performed where
  | done (s : State)
  | raised (e : ErrorKind) (s : State)
  | endless

/-- The next stage of COMPRESS runs only if this one completed (R139). -/
def Performed.andThen (p : Performed) (f : State → Performed) : Performed :=
  match p with
  | .done s => f s
  | .raised e s => .raised e s
  | .endless => .endless

/-- BUSY <- 0, PENDING <- none (R101). -/
def State.finish (s : State) : State := { s with pending := none }

/-- The engine completion step after `execute(w)` (R101): an error of the command is recorded with its word and source
0 (R156). -/
def completion (w : Word) (p : Performed) : Host.Outcome State Fault Refusal :=
  match p with
  | .done s => .next s.finish
  | .raised e s => .next (s.raise e w false).finish
  | .endless => .fault .endlessWalk

/-- The completion of an invalid command word: BAD_COMMAND, with no other effect (R79, R99). -/
def completeInvalid (w : Word) (s : State) : Host.Outcome State Fault Refusal :=
  completion w (.raised .badCommand s)

/-- The phases in which an instruction executes (R102). A bus access other than WR DATA_IN has no phase of its own. -/
def allowedIn : Instr → Phase → Bool
  | .build, p => p == .idle
  | .compress, p => p == .idle
  | .gencodes, p => p == .built
  | .emit, p => p == .coded
  | .pqReset, p => p == .idle
  | .pqPush _, p => p == .idle
  | .pqPop, p => p == .idle
  | .wrDataIn _, p => p == .idle
  | _, _ => true

/-- `execute(w)` for the valid word of `i`, then the completion (R99, R101): SEQUENCE outside the phases of R102,
otherwise the command's own rule. -/
def runCommand (i : Instr) (perform : State → Performed) (s : State) : Host.Outcome State Fault Refusal :=
  if allowedIn i s.phase then completion (encodeWord i) (perform s)
  else completion (encodeWord i) (.raised .sequence s)

/-! ### Ending an access -/

/-- The host receives `v` (R184). -/
def State.observe (s : State) (v : Word) : State := { s with reads := s.reads ++ [v] }

/-- A read while BUSY = 1 returns `draw32` and writes no state (R93). Free value (log 2). -/
def State.observeDraw (s : State) : State :=
  { s.observe (Config.draw32 s.draws) with draws := s.draws + 1 }

/-- A read that is exact whether or not BUSY = 1 (R92). -/
def exactRead (v : Word) (s : State) : Host.Outcome State Fault Refusal := .next (s.observe v)

/-- A read without a side effect that needs BUSY = 0 (R90, R93, R97). -/
def guardedRead (v : Word) (s : State) : Host.Outcome State Fault Refusal :=
  if s.busy then .next s.observeDraw else .next (s.observe v)

/-- A write to CMD, DATA_IN or ARG while BUSY = 1 is dropped and sets OVERRUN (R159). -/
def State.dropWrite (s : State) : State := { s with overrun := true }

end Sys2Proof.Machine
end

