-- ==== Sys2Proof/Machine/Operands.lean ====
section
/-! DEFINITION. The forms in which operands and results stand: bit strings as words and bytes (spec/00_scope.md R11,
spec/20_memory.md R56, R57), the reports in RESULT0 to RESULT2 (spec/30_encoding.md R82 to R85) and the content of each
register (R67 to R74). -/

namespace Sys2Proof.Machine

/-- The number a bit string is, most significant bit first. -/
def msbFirst (bits : List Bool) : Nat := bits.foldl (fun n b => 2 * n + b.toNat) 0

/-- The number a bit string is when bit k of the number is the k-th bit of the string (R35). -/
def lsbFirst : List Bool → Nat
  | [] => 0
  | b :: rest => b.toNat + 2 * lsbFirst rest

/-- Bit k of a bit string, 0 beyond its end (R85, R136). -/
def bitAt (bits : List Bool) (k : Nat) : Bool := bits.getD k false

/-- The 32-bit word whose bit 31 - j is bit 32*w + j of the code, 0 beyond its end (R85). -/
def codeWord (code : List Bool) (w : Nat) : Word :=
  BitVec.ofNat 32 (msbFirst ((List.range 32).map fun j => bitAt code (32 * w + j)))

/-- ceil(bits / 8) (R10). -/
def bytesFor (bits : Nat) : Nat := (bits + 7) / 8

/-- Byte j of the packed payload: payload bit 8j+i is bit 7-i (R57, R136). -/
def packByte (bits : List Bool) (j : Nat) : Byte :=
  BitVec.ofNat 8 (msbFirst ((List.range 8).map fun i => bitAt bits (8 * j + i)))

/-- `Pack(C)`: zero padding to a whole number of bytes, most significant bit first (R136). -/
def pack (bits : List Bool) : List Byte := (List.range (bytesFor bits.length)).map (packByte bits)

/-- `LE64(x)`: 8 bytes, least significant first (R56, R132, R135). -/
def le64 (x : BitVec 64) : List Byte := (List.range 8).map fun k => x.extractLsb' (8 * k) 8

/-! ### Reports -/

/-- Writes RESULT0 to RESULT2 (R16). -/
def State.report (s : State) (r0 r1 r2 : Word) : State := { s with result0 := r0, result1 := r1, result2 := r2 }

/-- RESULT0 of a node report: `{1, LEAF, 0000, SYM, RIGHT, LEFT}` (R82). -/
def Node.reportWord (nd : Node) : Word :=
  1#1 ++ BitVec.ofBool nd.leaf ++ 0#4 ++ nd.sym ++ nd.right ++ nd.left

/-- The node report of `n` (R82). -/
def State.reportNode (s : State) (n : NodeId) : State :=
  s.report (s.nodeAt n).reportWord (s.nodeAt n).freq (n.setWidth 32)

/-- The invalid node report (R83). -/
def State.reportInvalid (s : State) : State := s.report 0 0 (Config.noNode.setWidth 32)

/-- The READ_FREQ report of `sym` (R84). -/
def State.reportFreq (s : State) (sym : Byte) : State := s.report (s.freqAt sym.toNat) 0 0

/-- The READ_CODE report of `sym` and word index `w` (R85). -/
def State.reportCode (s : State) (sym : Byte) (w : BitVec 3) : State :=
  s.report ((s.codeLenAt sym.toNat).setWidth 32) (codeWord (s.codeOf sym) w.toNat) 0

/-! ### Register contents -/

/-- The content of IN_CAP (R71). -/
def State.inCapWord (s : State) : Word := BitVec.ofNat 32 s.params.inCap

/-- The content of OUT_CAP (R71). -/
def State.outCapWord (s : State) : Word := BitVec.ofNat 32 s.params.outCap

/-- The content of NSYM (R72). -/
def State.nsymWord (s : State) : Word := s.nsym.setWidth 32

/-- The content of ROOT (R72). -/
def State.rootWord (s : State) : Word := s.root.setWidth 32

/-- The content of NODE_COUNT (R72). -/
def State.nodeCountWord (s : State) : Word := s.nodeCount.setWidth 32

/-- The content of PQ_SIZE (R72). -/
def State.pqSizeWord (s : State) : Word := s.pqSize.setWidth 32

/-- The content of BITCNT_LO: BITCNT[31:0] (R73). -/
def State.bitcntLo (s : State) : Word := s.bitcnt.extractLsb' 0 32

/-- The content of BITCNT_HI: BITCNT[63:32] (R73). -/
def State.bitcntHi (s : State) : Word := s.bitcnt.extractLsb' 32 32

/-- The word of a DATA_OUT read with VALID = 1: `{0[31:9], 1, BYTE}` (R74, R96). -/
def validByteWord (b : Byte) : Word := 0#23 ++ 1#1 ++ b

end Sys2Proof.Machine
end

