-- ==== Sys2Proof/Machine/BusRead.lean ====
section
/-! DEFINITION. The host's register reads (spec/40_host_access.md R90, R92, R93, R96, R97). -/

namespace Sys2Proof.Machine

/-- RD ID (R71, R92). -/
def execRdId (s : State) : Host.Outcome State Fault Refusal := exactRead Config.idValue s

/-- RD STATUS (R69, R92). -/
def execRdStatus (s : State) : Host.Outcome State Fault Refusal := exactRead s.statusWord s

/-- RD IN_CAP (R71, R92). -/
def execRdInCap (s : State) : Host.Outcome State Fault Refusal := exactRead s.inCapWord s

/-- RD OUT_CAP (R71, R92). -/
def execRdOutCap (s : State) : Host.Outcome State Fault Refusal := exactRead s.outCapWord s

/-- RD DATA_OUT (R74, R96): a read with BUSY = 0 pops one byte if there is one; a read while BUSY = 1 pops nothing
(R93). -/
def execRdDataOut (s : State) : Host.Outcome State Fault Refusal :=
  if s.busy then .next s.observeDraw
  else if s.outValid then
    .next { s.observe (validByteWord (s.outbuf.read s.outRd.toNat)) with outRd := s.outRd + 1 }
  else .next (s.observe 0)

/-- RD ERROR (R70, R97). -/
def execRdError (s : State) : Host.Outcome State Fault Refusal := guardedRead s.errorWord s

/-- RD ERR_WORD (R22, R70, R97). -/
def execRdErrWord (s : State) : Host.Outcome State Fault Refusal := guardedRead s.errWord s

/-- RD ARG (R15, R97). -/
def execRdArg (s : State) : Host.Outcome State Fault Refusal := guardedRead s.arg s

/-- RD IN_LEN (R72, R97). -/
def execRdInLen (s : State) : Host.Outcome State Fault Refusal := guardedRead s.inLen s

/-- RD OUT_LEN (R72, R97). -/
def execRdOutLen (s : State) : Host.Outcome State Fault Refusal := guardedRead s.outLen s

/-- RD OUT_AVAIL (R24, R72, R97). -/
def execRdOutAvail (s : State) : Host.Outcome State Fault Refusal := guardedRead s.outAvail s

/-- RD NSYM (R72, R97). -/
def execRdNsym (s : State) : Host.Outcome State Fault Refusal := guardedRead s.nsymWord s

/-- RD ROOT (R72, R97). -/
def execRdRoot (s : State) : Host.Outcome State Fault Refusal := guardedRead s.rootWord s

/-- RD NODE_COUNT (R72, R97). -/
def execRdNodeCount (s : State) : Host.Outcome State Fault Refusal := guardedRead s.nodeCountWord s

/-- RD PQ_SIZE (R72, R109, R97). -/
def execRdPqSize (s : State) : Host.Outcome State Fault Refusal := guardedRead s.pqSizeWord s

/-- RD BITCNT_LO (R73, R97). -/
def execRdBitcntLo (s : State) : Host.Outcome State Fault Refusal := guardedRead s.bitcntLo s

/-- RD BITCNT_HI (R73, R97). -/
def execRdBitcntHi (s : State) : Host.Outcome State Fault Refusal := guardedRead s.bitcntHi s

/-- RD TREE_LEN (R72, R97). -/
def execRdTreeLen (s : State) : Host.Outcome State Fault Refusal := guardedRead s.treeLen s

/-- RD RESULT0 (R16, R97). -/
def execRdResult0 (s : State) : Host.Outcome State Fault Refusal := guardedRead s.result0 s

/-- RD RESULT1 (R16, R97). -/
def execRdResult1 (s : State) : Host.Outcome State Fault Refusal := guardedRead s.result1 s

/-- RD RESULT2 (R16, R97). -/
def execRdResult2 (s : State) : Host.Outcome State Fault Refusal := guardedRead s.result2 s

/-- RD CMD: a write-only register reads 0 (R68, R90). -/
def execRdCmd (s : State) : Host.Outcome State Fault Refusal := guardedRead 0 s

/-- RD DATA_IN: a write-only register reads 0 (R68, R90). -/
def execRdDataIn (s : State) : Host.Outcome State Fault Refusal := guardedRead 0 s

/-- RD at a reserved offset: 0 (R52, R90). -/
def execRdReserved (_off : Offset) (s : State) : Host.Outcome State Fault Refusal := guardedRead 0 s

end Sys2Proof.Machine
end

