-- ==== Sys2Proof/Machine/BusWrite.lean ====
section
/-! DEFINITION. The host's register writes (spec/40_host_access.md R91, R94, R95, R98). -/

namespace Sys2Proof.Machine

/-- WR CMD, v (R98): dropped with OVERRUN while BUSY = 1, dropped while an error is recorded unless it is exactly CLEAR,
otherwise pending. -/
def execWrCmd (v : Word) (s : State) : Host.Outcome State Fault Refusal :=
  if s.busy then .next s.dropWrite
  else if s.err ∧ v ≠ 0x00000001#32 then .next s
  else .next { s with pending := some v }

/-- WR ARG, v (R94). -/
def execWrArg (v : Word) (s : State) : Host.Outcome State Fault Refusal :=
  if s.busy then .next s.dropWrite else .next { s with arg := v }

/-- INBUF[IN_LEN] <- b ; IN_LEN <- IN_LEN + 1 (R95). -/
def State.appendInput (s : State) (b : Byte) : State :=
  { s with inbuf := s.inbuf.write s.inLen.toNat b, inLen := s.inLen + 1 }

/-- WR DATA_IN, v (R95, R160): bits 31:8 of v are ignored, and an error records the whole word. -/
def execWrDataIn (v : Word) (s : State) : Host.Outcome State Fault Refusal :=
  if s.busy then .next s.dropWrite
  else if s.err then .next s
  else if !allowedIn (.wrDataIn v) s.phase then .next (s.raise .sequence v true)
  else if s.inLen.toNat = s.params.inCap then .next (s.raise .inOverflow v true)
  else .next (s.appendInput (v.setWidth 8))

/-- WR at a read-only, constant or reserved offset: ignored, no flag, even while BUSY = 1 (R52, R68, R91). -/
def execWrOther (_off : Offset) (_v : Word) (s : State) : Host.Outcome State Fault Refusal := .next s

end Sys2Proof.Machine
end

