-- ==== Sys2Proof/Machine/Queue.lean ====
section
/-! DEFINITION. The priority queue: its primitives (spec/41_priority_queue.md R105 to R111) and the commands PQ_RESET,
PQ_PUSH, PQ_POP and READ_HEAP (R112 to R115). -/

namespace Sys2Proof.Machine

/-- `key(i) = ARENA[HEAP[i]].FREQ` (R106). -/
def heapKey (arena : Table Node) (heap : Table NodeId) (i : Nat) : Word :=
  (Table.get Node.blank arena (Table.get 0 heap i).toNat).freq

/-- `swap HEAP[i], HEAP[j]` (R107, R108). -/
def heapSwap (heap : Table NodeId) (i j : Nat) : Table NodeId :=
  Table.set 0 (Table.set 0 heap i (Table.get 0 heap j)) j (Table.get 0 heap i)

/-- The loop of `enqueue`: swap with the parent, slot i div 2, while the key is strictly less than the parent's (R105,
R107). The fuel is the starting slot, which more than bounds the number of halvings. -/
def siftUp (arena : Table Node) : Nat → Table NodeId → Nat → Table NodeId
  | 0, heap, _ => heap
  | fuel + 1, heap, i =>
    if 1 < i ∧ heapKey arena heap i < heapKey arena heap (i / 2) then
      siftUp arena fuel (heapSwap heap i (i / 2)) (i / 2)
    else heap

/-- The child slot `dequeue` compares with: the right one only if it exists and its key is strictly less than the left
one's, so the left one wins ties and stands alone where there is no right one (R108). -/
def smallerChild (arena : Table Node) (size : Nat) (heap : Table NodeId) (i : Nat) : Nat :=
  if 2 * i + 1 ≤ size ∧ heapKey arena heap (2 * i + 1) < heapKey arena heap (2 * i) then 2 * i + 1 else 2 * i

/-- The loop of `dequeue`: swap with the smaller child while its key is strictly less (R108). The fuel is the size of
the queue, which more than bounds the number of doublings. -/
def siftDown (arena : Table Node) (size : Nat) : Nat → Table NodeId → Nat → Table NodeId
  | 0, heap, _ => heap
  | fuel + 1, heap, i =>
    if size < 2 * i then heap
    else if heapKey arena heap (smallerChild arena size heap i) < heapKey arena heap i then
      siftDown arena size fuel (heapSwap heap i (smallerChild arena size heap i)) (smallerChild arena size heap i)
    else heap

/-- `enqueue(n)` (R107). -/
def enqueue (n : NodeId) (s : State) : State :=
  { s with
    pqSize := s.pqSize + 1
    heap := siftUp s.arena (s.pqSize + 1).toNat (Table.set 0 s.heap (s.pqSize + 1).toNat n) (s.pqSize + 1).toNat }

/-- The queue after `dequeue()` (R108). -/
def dequeueRest (s : State) : State :=
  if s.pqSize = 0 then s
  else if s.pqSize = 1 then { s with pqSize := 0 }
  else
    { s with
      pqSize := s.pqSize - 1
      heap := siftDown s.arena (s.pqSize - 1).toNat (s.pqSize - 1).toNat
        (Table.set 0 s.heap 1 (s.heapAt s.pqSize.toNat)) 1 }

/-- The node `dequeue()` returns: the root of the heap, or NONE if the queue is empty (R108). -/
def dequeueTop (s : State) : NodeId := if s.pqSize = 0 then Config.noNode else s.heapAt 1

/-- The id of the next node allocated: NODE_COUNT (R30). -/
def State.nextId (s : State) : NodeId := s.nodeCount.setWidth 9

/-- Allocates a node record: ARENA[NODE_COUNT] is written and NODE_COUNT goes up by 1 (R30). -/
def allocate (nd : Node) (s : State) : State :=
  { s with arena := Table.set Node.blank s.arena s.nextId.toNat nd, nodeCount := s.nodeCount + 1 }

/-- Allocates a node and enqueues it (R113, R118, R119). -/
def addNode (nd : Node) (s : State) : State := enqueue s.nextId (allocate nd s)

/-- A leaf record (R29). -/
def Node.ofLeaf (sym : Byte) (freq : Word) : Node where
  leaf := true
  sym := sym
  freq := freq
  left := Config.noNode
  right := Config.noNode

/-- The record of an internal node: SYM = 0x00 (R29, R119). -/
def Node.ofPair (freq : Word) (left right : NodeId) : Node where
  leaf := false
  sym := 0
  freq := freq
  left := left
  right := right

/-- PQ_SIZE <- 0 ; NODE_COUNT <- 0 (R112, R116). -/
def State.emptyQueue (s : State) : State := { s with pqSize := 0, nodeCount := 0 }

/-- `perform PQ_PUSH` (R113). -/
def performPush (sym : Byte) (s : State) : Performed :=
  if s.pqSize = 256 ∨ s.nodeCount = 511 then .raised .pqFull s
  else .done ((addNode (Node.ofLeaf sym s.arg) s).reportNode s.nextId)

/-- `perform PQ_POP` (R114). -/
def performPop (s : State) : Performed :=
  if dequeueTop s = Config.noNode then .done (dequeueRest s).reportInvalid
  else .done ((dequeueRest s).reportNode (dequeueTop s))

/-- `perform READ_HEAP` (R115). -/
def performReadHeap (slot : BitVec 9) (s : State) : Performed :=
  if 1 ≤ slot.toNat ∧ slot.toNat ≤ s.pqSize.toNat then .done (s.reportNode (s.heapAt slot.toNat))
  else .done s.reportInvalid

/-- PQ_RESET (R112). -/
def execPqReset (s : State) : Host.Outcome State Fault Refusal :=
  runCommand .pqReset (fun s => .done s.emptyQueue) s

/-- PQ_PUSH (R113). -/
def execPqPush (sym : Byte) (s : State) : Host.Outcome State Fault Refusal :=
  runCommand (.pqPush sym) (performPush sym) s

/-- PQ_POP (R114). -/
def execPqPop (s : State) : Host.Outcome State Fault Refusal := runCommand .pqPop performPop s

/-- READ_HEAP (R115). -/
def execReadHeap (slot : BitVec 9) (s : State) : Host.Outcome State Fault Refusal :=
  runCommand (.readHeap slot) (performReadHeap slot) s

end Sys2Proof.Machine
end

