-- ==== Sys2Proof/Machine/Tree.lean ====
section
/-! DEFINITION. The tree builder: BUILD (spec/42_tree_builder.md R116 to R123) and the reads READ_FREQ and READ_NODE
(R124, R125). -/

namespace Sys2Proof.Machine

/-- FREQ[b] <- FREQ[b] + 1 (R117). -/
def countByte (freq : Table Word) (b : Byte) : Table Word :=
  Table.set 0 freq b.toNat (Table.get 0 freq b.toNat + 1)

/-- The frequency table of a byte sequence, counted from a table of zeros (R117). -/
def countBytes (bytes : List Byte) : Table Word := bytes.foldl countByte []

/-- The symbols with a count of at least 1, in ascending order (R27, R118). -/
def participants (freq : Table Word) : List Nat :=
  (List.range Config.symbols).filter fun sym => Table.get 0 freq sym != 0

/-- Counting: FREQ and NSYM (R117). -/
def State.counted (s : State) : State :=
  { s with
    freq := countBytes s.inputBytes
    nsym := BitVec.ofNat 9 (participants (countBytes s.inputBytes)).length }

/-- Creates and enqueues the leaf of one symbol (R118). -/
def addLeaf (s : State) (sym : Nat) : State := addNode (Node.ofLeaf (BitVec.ofNat 8 sym) (s.freqAt sym)) s

/-- Creates and enqueues the leaves, in ascending symbol order (R118). -/
def State.withLeaves (s : State) : State := (participants s.freq).foldl addLeaf s

/-- One merge: the first node dequeued becomes the left child (R119). -/
def mergeStep (s : State) : State :=
  let a := dequeueTop s
  let s1 := dequeueRest s
  let b := dequeueTop s1
  let s2 := dequeueRest s1
  addNode (Node.ofPair ((s2.nodeAt a).freq + (s2.nodeAt b).freq) a b) s2

/-- Merging while PQ_SIZE > 1 (R119). Each merge lowers PQ_SIZE by 1, so PQ_SIZE is fuel enough. -/
def mergeLoop : Nat → State → State
  | 0, s => s
  | fuel + 1, s => if 1 < s.pqSize.toNat then mergeLoop fuel (mergeStep s) else s

/-- ROOT <- dequeue() and PHASE <- BUILT (R116, R120). -/
def State.rooted (s : State) : State := { dequeueRest s with root := dequeueTop s, phase := .built }

/-- The steps of BUILD after its check: counting, a fresh queue, the leaves, the merges (R116 to R119). -/
def State.merged (s : State) : State :=
  let s1 := s.counted.emptyQueue.withLeaves
  mergeLoop s1.pqSize.toNat s1

/-- `perform BUILD` (R116). -/
def performBuild (s : State) : Performed :=
  if s.inLen = 0 then .raised .emptyInput s else .done s.merged.rooted

/-- `perform READ_NODE` (R125). -/
def performReadNode (id : NodeId) (s : State) : Performed :=
  if id.toNat < s.nodeCount.toNat then .done (s.reportNode id) else .done s.reportInvalid

/-- BUILD (R116). -/
def execBuild (s : State) : Host.Outcome State Fault Refusal := runCommand .build performBuild s

/-- READ_FREQ (R124). -/
def execReadFreq (sym : Byte) (s : State) : Host.Outcome State Fault Refusal :=
  runCommand (.readFreq sym) (fun s => .done (s.reportFreq sym)) s

/-- READ_NODE (R125). -/
def execReadNode (id : NodeId) (s : State) : Host.Outcome State Fault Refusal :=
  runCommand (.readNode id) (performReadNode id) s

end Sys2Proof.Machine
end

