-- ==== Sys2Proof/Machine/CodeGen.lean ====
section
/-! DEFINITION. The code generator: GENCODES (spec/43_code_generator.md R126 to R129) and the read READ_CODE (R131). -/

namespace Sys2Proof.Machine

/-- The code of a leaf with path `p`; the leaf at the root gets "0" (R127, R128). -/
def leafCode (p : List Bool) : List Bool := if p.length = 0 then [false] else p

/-- `walk(n, p)` (R127): the leaves below `n`, left to right, each with its symbol and its code; false is the left
branch. `none` is a walk deeper than the fuel. -/
def walk (arena : Table Node) : Nat → NodeId → List Bool → Option (List (Byte × List Bool))
  | 0, _, _ => none
  | fuel + 1, n, p =>
    let nd := Table.get Node.blank arena n.toNat
    if nd.leaf then some [(nd.sym, leafCode p)]
    else
      match walk arena fuel nd.left (p ++ [false]) with
      | none => none
      | some ls =>
        match walk arena fuel nd.right (p ++ [true]) with
        | none => none
        | some rs => some (ls ++ rs)

/-- The fuel of a tree walk. There are 512 node ids, so a path longer than this meets a node twice and the walk of the
spec does not end; a walk that ends never runs out (R38). DEDUCED (log 6). -/
abbrev walkFuel : Nat := 512

/-- CODE_LEN after the leaves' codes are recorded, from a table of zeros (R126, R127). -/
def codeLengths (codes : List (Byte × List Bool)) : Table Byte :=
  codes.foldl (fun t c => Table.set 0 t c.1.toNat (BitVec.ofNat 8 c.2.length)) []

/-- CODE_BITS after the leaves' codes are recorded, from a table of zeros (R126, R127). -/
def codeBitStrings (codes : List (Byte × List Bool)) : Table (BitVec 255) :=
  codes.foldl (fun t c => Table.set 0 t c.1.toNat (BitVec.ofNat 255 (lsbFirst c.2))) []

/-- `sum over s of zext_64(FREQ[s]) * CODE_LEN[s]` (R126, R129). -/
def payloadBits (freq : Table Word) (lens : Table Byte) : BitVec 64 :=
  BitVec.ofNat 64 (((List.range Config.symbols).map fun sym =>
    (Table.get 0 freq sym).toNat * (Table.get 0 lens sym).toNat).sum)

/-- The state with the code table of `codes`, BITCNT and PHASE CODED (R126). -/
def State.withCodes (s : State) (codes : List (Byte × List Bool)) : State :=
  { s with
    codeLen := codeLengths codes
    codeBits := codeBitStrings codes
    bitcnt := payloadBits s.freq (codeLengths codes)
    phase := .coded }

/-- `perform GENCODES` (R126). -/
def performGencodes (s : State) : Performed :=
  match walk s.arena walkFuel s.root [] with
  | none => .endless
  | some codes => .done (s.withCodes codes)

/-- GENCODES (R126). -/
def execGencodes (s : State) : Host.Outcome State Fault Refusal := runCommand .gencodes performGencodes s

/-- READ_CODE (R131). -/
def execReadCode (sym : Byte) (w : BitVec 3) (s : State) : Host.Outcome State Fault Refusal :=
  runCommand (.readCode sym w) (fun s => .done (s.reportCode sym w)) s

end Sys2Proof.Machine
end

