-- ==== Sys2Proof/Machine/Codec.lean ====
section
/-! DEFINITION. The write side of the codec: EMIT and COMPRESS (spec/44_codec_emit.md R132 to R140). -/

namespace Sys2Proof.Machine

/-- `TreeBytes(n)` (R133): pre-order, tag 1 and the symbol byte for a node, tag 0 for NONE. `none` is a tree deeper
than the fuel. -/
def treeBytes (arena : Table Node) : Nat → NodeId → Option (List Byte)
  | 0, _ => none
  | fuel + 1, n =>
    if n = Config.noNode then some [0]
    else
      let nd := Table.get Node.blank arena n.toNat
      match treeBytes arena fuel nd.left with
      | none => none
      | some ls =>
        match treeBytes arena fuel nd.right with
        | none => none
        | some rs => some (1 :: nd.sym :: ls ++ rs)

/-- C: the codes of the input bytes, in order (R132). -/
def State.payload (s : State) : List Bool := s.inputBytes.flatMap s.codeOf

/-- STREAM = T ++ LE64(BITCNT) ++ Pack(C), for the tree part T (R132). -/
def State.stream (s : State) (tree : List Byte) : List Byte := tree ++ le64 s.bitcnt ++ pack s.payload

/-- OUTBUF, OUT_LEN, OUT_RD, TREE_LEN = 6*NSYM - 2 and PHASE after EMIT has written `bytes` (R138). -/
def State.emitted (s : State) (bytes : List Byte) : State :=
  { s with
    outbuf := s.outbuf.writeList 0 bytes
    outLen := BitVec.ofNat 32 bytes.length
    outRd := 0
    treeLen := 6 * s.nsym.setWidth 32 - 2
    phase := .done }

/-- `perform EMIT` (R138). -/
def performEmit (s : State) : Performed :=
  match treeBytes s.arena walkFuel s.root with
  | none => .endless
  | some tree =>
    if s.params.outCap < (s.stream tree).length then .raised .outOverflow s
    else .done (s.emitted (s.stream tree))

/-- `perform COMPRESS`: the three stages in one completion step (R139). -/
def performCompress (s : State) : Performed :=
  (performBuild s).andThen fun s1 => (performGencodes s1).andThen performEmit

/-- EMIT (R138). -/
def execEmit (s : State) : Host.Outcome State Fault Refusal := runCommand .emit performEmit s

/-- COMPRESS (R139). -/
def execCompress (s : State) : Host.Outcome State Fault Refusal := runCommand .compress performCompress s

end Sys2Proof.Machine
end

