-- ==== Sys2Proof/Machine/Control.lean ====
section
/-! DEFINITION. The control commands NOP and CLEAR (spec/40_host_access.md R103, R104). -/

namespace Sys2Proof.Machine

/-- NOP: nothing (R103, R80). -/
def execNop (s : State) : Host.Outcome State Fault Refusal := runCommand .nop .done s

/-- CLEAR: every state element of R14 takes its reset value (R104). -/
def execClear (s : State) : Host.Outcome State Fault Refusal := runCommand .clear (fun s => .done s.cleared) s

end Sys2Proof.Machine
end

