-- ==== Sys2Proof/Machine/Dispatch.lean ====
section
/-! DEFINITION. The meaning of each instruction: one arm per constructor of Instr. -/

namespace Sys2Proof.Machine

/-- The effect of one instruction: for a command word, the engine's completion step (spec/40_host_access.md R99, R101);
for an access, the host's step (R90, R91). -/
def exec (i : Instr) (s : State) : Host.Outcome State Fault Refusal :=
  match i with
  | .nop => Sys2Proof.Machine.execNop s
  | .clear => Sys2Proof.Machine.execClear s
  | .build => Sys2Proof.Machine.execBuild s
  | .gencodes => Sys2Proof.Machine.execGencodes s
  | .emit => Sys2Proof.Machine.execEmit s
  | .compress => Sys2Proof.Machine.execCompress s
  | .pqReset => Sys2Proof.Machine.execPqReset s
  | .pqPush sym => Sys2Proof.Machine.execPqPush sym s
  | .pqPop => Sys2Proof.Machine.execPqPop s
  | .readHeap slot => Sys2Proof.Machine.execReadHeap slot s
  | .readFreq sym => Sys2Proof.Machine.execReadFreq sym s
  | .readCode sym w => Sys2Proof.Machine.execReadCode sym w s
  | .readNode id => Sys2Proof.Machine.execReadNode id s
  | .wrCmd v => Sys2Proof.Machine.execWrCmd v s
  | .wrArg v => Sys2Proof.Machine.execWrArg v s
  | .wrDataIn v => Sys2Proof.Machine.execWrDataIn v s
  | .wrOther off v => Sys2Proof.Machine.execWrOther off v s
  | .rdId => Sys2Proof.Machine.execRdId s
  | .rdStatus => Sys2Proof.Machine.execRdStatus s
  | .rdInCap => Sys2Proof.Machine.execRdInCap s
  | .rdOutCap => Sys2Proof.Machine.execRdOutCap s
  | .rdDataOut => Sys2Proof.Machine.execRdDataOut s
  | .rdError => Sys2Proof.Machine.execRdError s
  | .rdErrWord => Sys2Proof.Machine.execRdErrWord s
  | .rdArg => Sys2Proof.Machine.execRdArg s
  | .rdInLen => Sys2Proof.Machine.execRdInLen s
  | .rdOutLen => Sys2Proof.Machine.execRdOutLen s
  | .rdOutAvail => Sys2Proof.Machine.execRdOutAvail s
  | .rdNsym => Sys2Proof.Machine.execRdNsym s
  | .rdRoot => Sys2Proof.Machine.execRdRoot s
  | .rdNodeCount => Sys2Proof.Machine.execRdNodeCount s
  | .rdPqSize => Sys2Proof.Machine.execRdPqSize s
  | .rdBitcntLo => Sys2Proof.Machine.execRdBitcntLo s
  | .rdBitcntHi => Sys2Proof.Machine.execRdBitcntHi s
  | .rdTreeLen => Sys2Proof.Machine.execRdTreeLen s
  | .rdResult0 => Sys2Proof.Machine.execRdResult0 s
  | .rdResult1 => Sys2Proof.Machine.execRdResult1 s
  | .rdResult2 => Sys2Proof.Machine.execRdResult2 s
  | .rdCmd => Sys2Proof.Machine.execRdCmd s
  | .rdDataIn => Sys2Proof.Machine.execRdDataIn s
  | .rdReserved off => Sys2Proof.Machine.execRdReserved off s

end Sys2Proof.Machine
end

