-- ==== Sys2Proof/Machine/Fetch.lean ====
section
/-! DEFINITION. Which step comes next and what it runs: the interleaving of host, engine and reset (spec/00_scope.md
R5, R13; spec/20_memory.md R60; spec/40_host_access.md R101) and the window's own view of a bus access (R46 to R51). -/

namespace Sys2Proof.Machine

/-- What the next step does, and the state it does it in. -/
inductive Fetched where
  /-- Runs an instruction: a valid pending command, or an access. -/
  | run (i : Instr) (s : State)
  /-- Completes an invalid command word (R79). -/
  | invalid (w : Word) (s : State)
  /-- Takes the reset event (R170). -/
  | reset (s : State)
  /-- No step is enabled (R184). -/
  | over
  /-- The access has no meaning (R51). -/
  | refused (r : Refusal)
  deriving DecidableEq, Repr

/-- The engine's completion step comes next: a command is pending, and it falls before the next event, or no event is
to come (R60, R101; that it comes at all is the fairness of R181). -/
def State.engineNext (s : State) : Bool :=
  s.busy &&
    match s.agenda with
    | [] => true
    | p :: _ => p.engineFirst

/-- The register access a bus access is, if the window has a meaning for it: inside the window at REG_BASE (R46, R47),
32 bits wide and at a multiple of 4 (R48, R51). -/
def accessCode (p : Params) (a : Access) : Except Refusal Code :=
  if a.addr < p.regBase ∨ p.regBase + Config.window ≤ a.addr then .error .outsideWindow
  else if a.bytes ≠ 4 ∨ (a.addr - p.regBase) % 4 ≠ 0 then .error .unsupportedAccess
  else
    match a.kind with
    | .read => .ok (.read (BitVec.ofNat 8 (a.addr - p.regBase)))
    | .write v => .ok (.write (BitVec.ofNat 8 (a.addr - p.regBase)) v)

/-- What a bus access runs. -/
def fetchAccess (a : Access) (s : State) : Fetched :=
  match accessCode s.params a with
  | .error r => .refused r
  | .ok c =>
    match decode c with
    | .ok i => .run i s
    | .error _ => .refused .unsupportedAccess

/-- What the engine completes: PENDING (R101). -/
def fetchCommand (s : State) : Fetched :=
  match s.pending with
  | none => .over
  | some w =>
    match decodeCommand w with
    | .ok i => .run i s
    | .error _ => .invalid w s

/-- The next step. A host step or a reset is taken off the agenda; the completion step leaves it. -/
def State.fetch (s : State) : Fetched :=
  if s.engineNext then fetchCommand s
  else
    match s.agenda with
    | [] => .over
    | p :: rest =>
      match p.event with
      | .reset => .reset { s with agenda := rest }
      | .access a => fetchAccess a { s with agenda := rest }

/-- The bus access a register access is, at REG_BASE + offset (R12). -/
def busAccess (p : Params) (off : Offset) (kind : AccessKind) : Access where
  addr := p.regBase + off.toNat
  bytes := 4
  kind := kind

/-- Places an access as the next event, before the engine's step. -/
def State.placeAccess (s : State) (off : Offset) (kind : AccessKind) : State :=
  { s with agenda := { engineFirst := false, event := .access (busAccess s.params off kind) } :: s.agenda }

/-- Lets the engine's step come before the next event. -/
def engineFirst : List Planned → List Planned
  | [] => []
  | p :: rest => { p with engineFirst := true } :: rest

/-- Makes `w` the pending command and the engine's completion the next step. -/
def State.placeCommand (s : State) (w : Word) : State :=
  { s with pending := some w, agenda := engineFirst s.agenda }

/-- Places a code where the next step takes it from. -/
def State.place (s : State) : Code → State
  | .command w => s.placeCommand w
  | .read off => s.placeAccess off .read
  | .write off v => s.placeAccess off (.write v)

end Sys2Proof.Machine
end

