-- ==== Sys2Proof/Machine/Step.lean ====
section
/-! DEFINITION. One step of HUFFENC: one host access, one engine completion, or one reset (spec/00_scope.md R5). -/

namespace Sys2Proof.Machine

/-- One step (R5, R13). -/
def step (s : State) : Host.Outcome State Fault Refusal :=
  match s.fetch with
  | .run i s' => exec i s'
  | .invalid w s' => completeInvalid w s'
  | .reset s' => .next s'.cleared
  | .over => .fault .runOver
  | .refused r => .refused r

/-- `s` with the instruction of a row of spec/opcode_table.json where the next step takes it from: a command word as
the pending command with the engine next, an access as the host's next access. -/
def State.withFetchWord (s : State) (nbits w : Nat) : State :=
  match decodeTableCode nbits w with
  | none => s
  | some c => s.place c

end Sys2Proof.Machine
end

