-- ==== Sys2Proof/Machine/RefDecode.lean ====
section
/-! DEFINITION. The reference decoder RefDecode: a pure function on byte sequences, no hardware and no state
(spec/45_reference_decoder.md R141 to R151). It gives the output stream its meaning. -/

namespace Sys2Proof.Machine

/-- The errors of RefDecode (R141). Their codes are those of R155; HUFFENC raises neither. -/
inductive DecodeFailure where
  | truncatedStream
  | corruptTree
  deriving DecidableEq, Repr

/-- The numbers 3 and 4 of R155. -/
def DecodeFailure.code : DecodeFailure → BitVec 4
  | .truncatedStream => 3
  | .corruptTree => 4

/-- A decoded tree; `null` is the absent node (R142). -/
inductive RefTree where
  | null
  | node (sym : Byte) (left right : RefTree)
  deriving DecidableEq, Repr

/-- A decoded node is a leaf exactly when both its children are null (R142). -/
def RefTree.isLeaf : RefTree → Bool
  | .node _ .null .null => true
  | _ => false

/-- `DecTree()` (R142): the tree and the bytes after it. The nesting of calls is shorter than the input, so the length
of the input is fuel enough. -/
def decTree : Nat → List Byte → Except DecodeFailure (RefTree × List Byte)
  | 0, _ => .error .truncatedStream
  | _ + 1, [] => .error .truncatedStream
  | fuel + 1, tag :: rest =>
    if tag = 0 then .ok (.null, rest)
    else if tag ≠ 1 then .error .corruptTree
    else
      match rest with
      | [] => .error .truncatedStream
      | sym :: rest =>
        match decTree fuel rest with
        | .error e => .error e
        | .ok (l, rest) =>
          match decTree fuel rest with
          | .error e => .error e
          | .ok (r, rest) => .ok (.node sym l r, rest)

/-- The number a byte sequence is, least significant byte first (R144). -/
def lsbFirstBytes : List Byte → Nat
  | [] => 0
  | b :: rest => b.toNat + 256 * lsbFirstBytes rest

/-- Bit expansion: bit k is bit 7 - (k mod 8) of byte k div 8 (R146). -/
def expandBits (bytes : List Byte) (count : Nat) : List Bool :=
  (List.range count).map fun k => (bytes.getD (k / 8) 0).getLsbD (7 - k % 8)

/-- The traversal from an internal root (R147), and the end of the bits (R149). -/
def traverse (root : RefTree) : RefTree → List Bool → List Byte → Except DecodeFailure (List Byte)
  | cur, [], out => if cur = root then .ok out else .error .corruptTree
  | .null, _ :: _, _ => .error .corruptTree
  | .node _ l r, b :: bits, out =>
    match (if b then r else l) with
    | .null => .error .corruptTree
    | .node sym l' r' =>
      if (RefTree.node sym l' r').isLeaf then traverse root root bits (out ++ [sym])
      else traverse root (.node sym l' r') bits out

/-- The traversal from a root that is a leaf: bit 0 gives its symbol, bit 1 fails (R148). -/
def traverseLeaf (sym : Byte) : List Bool → List Byte → Except DecodeFailure (List Byte)
  | [], out => .ok out
  | b :: bits, out => if b then .error .corruptTree else traverseLeaf sym bits (out ++ [sym])

/-- The traversal of R147 or R148, as the root is an internal node or a leaf. A null root fails (R143). -/
def decodeBits (root : RefTree) (bits : List Bool) : Except DecodeFailure (List Byte) :=
  match root with
  | .null => .error .corruptTree
  | .node sym l r =>
    if (RefTree.node sym l r).isLeaf then traverseLeaf sym bits []
    else traverse (.node sym l r) (.node sym l r) bits []

/-- RefDecode after the tree: the bit count (R144), the payload (R145, R146) and the traversal; bytes after the payload
are ignored (R150). -/
def decodeRest (root : RefTree) (rest : List Byte) : Except DecodeFailure (List Byte) :=
  if rest.length < 8 then .error .truncatedStream
  else
    let bitCount := lsbFirstBytes (rest.take 8)
    let payload := rest.drop 8
    if payload.length < bytesFor bitCount then .error .truncatedStream
    else decodeBits root (expandBits (payload.take (bytesFor bitCount)) bitCount)

/-- `RefDecode(F)` (R141 to R151). The code table regeneration of R151 cannot change the result and is left out. -/
def refDecode (bytes : List Byte) : Except DecodeFailure (List Byte) :=
  match decTree (bytes.length + 1) bytes with
  | .error e => .error e
  | .ok (.null, _) => .error .corruptTree
  | .ok (.node sym l r, rest) => decodeRest (.node sym l r) rest

end Sys2Proof.Machine
end

