-- ==== Sys2Proof/Safety.lean ====
section
/-! DEFINITION. What claims are stated in: the outcomes of a step, the tree that node records stand for, and the
invariants of the state (spec/10_state.md R24 to R40). -/

namespace Sys2Proof.Machine

/-! ### Outcomes -/

/-- The outcome is a next state. -/
def Completes (o : Host.Outcome State Fault Refusal) : Prop := ∃ t, o = .next t

/-- The outcome is no fault but the end of the run (R184), and no refusal but that of an access the spec gives no
meaning to (R51). -/
def SafeStop : Host.Outcome State Fault Refusal → Prop
  | .next _ => True
  | .fault r => r = .runOver
  | .refused r => r = .unsupportedAccess ∨ r = .outsideWindow

/-- The access completes: the host receives `v`, and nothing else changes. -/
def ReadGives (i : Instr) (v : Word) (s : State) : Prop := exec i s = .next { s with reads := s.reads ++ [v] }

/-- The command `w` of the instruction completes with SEQUENCE: nothing but the error record and the pending command
changes (R100, R102, R156). -/
def EndsInSequence (i : Instr) (w : Word) (s : State) : Prop :=
  exec i s = .next { s.raise .sequence w false with pending := none }

/-- `w` is the one command word with its opcode: every other word with that opcode is rejected (R78). -/
def OnlyWord (w : Word) : Prop := ∀ v : Word, opcOf v = opcOf w → v ≠ w → decodeCommand v = .error .badCommand

/-- `t` is the reset state, up to the parameters and the world outside the block (R104, R170). -/
def State.IsResetOf (t s : State) : Prop :=
  t = { State.resetWith s.params with agenda := t.agenda, reads := t.reads, draws := t.draws }

/-! ### The coding tree -/

/-- A strict binary tree of symbols (R31). -/
inductive CodeTree where
  | leaf (sym : Byte)
  | pair (left right : CodeTree)
  deriving DecidableEq, Repr

/-- The symbols of the leaves, left to right. -/
def CodeTree.symbols : CodeTree → List Byte
  | .leaf sym => [sym]
  | .pair l r => l.symbols ++ r.symbols

/-- The codes of the leaves, left to right, below the path `p` (R127, R128). -/
def CodeTree.codesFrom : List Bool → CodeTree → List (Byte × List Bool)
  | p, .leaf sym => [(sym, leafCode p)]
  | p, .pair l r => l.codesFrom (p ++ [false]) ++ r.codesFrom (p ++ [true])

/-- The codes of the leaves of a whole tree. -/
def CodeTree.codes (t : CodeTree) : List (Byte × List Bool) := t.codesFrom []

/-- The serialised tree: `01 s 00 00` for a leaf, `01 00` and the two subtrees for an internal node (R133). -/
def CodeTree.bytes : CodeTree → List Byte
  | .leaf sym => [1, sym, 0, 0]
  | .pair l r => [1, 0] ++ l.bytes ++ r.bytes

/-- The node records reached from `n` are the tree: a leaf has no children, an internal node has no symbol and two
children, and the ids of the children are smaller than its own (R29, R31). -/
inductive TreeAt (arena : Table Node) : NodeId → CodeTree → Prop where
  | leaf (n : NodeId) (h : (Table.get Node.blank arena n.toNat).leaf = true)
      (hl : (Table.get Node.blank arena n.toNat).left = Config.noNode)
      (hr : (Table.get Node.blank arena n.toNat).right = Config.noNode) (hn : n ≠ Config.noNode) :
      TreeAt arena n (.leaf (Table.get Node.blank arena n.toNat).sym)
  | pair (n : NodeId) (l r : CodeTree) (h : (Table.get Node.blank arena n.toNat).leaf = false)
      (hs : (Table.get Node.blank arena n.toNat).sym = 0)
      (hll : (Table.get Node.blank arena n.toNat).left.toNat < n.toNat)
      (hrl : (Table.get Node.blank arena n.toNat).right.toNat < n.toNat)
      (hl : TreeAt arena (Table.get Node.blank arena n.toNat).left l)
      (hr : TreeAt arena (Table.get Node.blank arena n.toNat).right r) (hn : n ≠ Config.noNode) :
      TreeAt arena n (.pair l r)

/-! ### Invariants -/

/-- The memories are in their canonical form and hold nothing outside their ranges (R14, R42). -/
structure State.MemoriesOk (s : State) : Prop where
  inbuf : s.inbuf.wf
  inRange : ∀ c ∈ s.inbuf, c.1 < s.inLen.toNat
  outbuf : s.outbuf.wf
  outRange : ∀ c ∈ s.outbuf, c.1 < s.outLen.toNat
  freq : Table.WF 0 s.freq
  freqRange : ∀ c ∈ s.freq, c.1 < Config.symbols
  arena : Table.WF Node.blank s.arena
  arenaRange : ∀ c ∈ s.arena, c.1 < Config.arenaCap
  heap : Table.WF 0 s.heap
  heapRange : ∀ c ∈ s.heap, 1 ≤ c.1 ∧ c.1 ≤ Config.heapCap
  codeLen : Table.WF 0 s.codeLen
  codeLenRange : ∀ c ∈ s.codeLen, c.1 < Config.symbols
  codeBits : Table.WF 0 s.codeBits
  codeBitsRange : ∀ c ∈ s.codeBits, c.1 < Config.symbols

/-- The buffers' lengths: IN_LEN <= IN_CAP (R14, R25), OUT_RD <= OUT_LEN <= OUT_CAP, and OUT_LEN is nonzero only in
PHASE DONE (R26). -/
structure State.BuffersOk (s : State) : Prop where
  input : s.inLen.toNat ≤ s.params.inCap
  read : s.outRd.toNat ≤ s.outLen.toNat
  output : s.outLen.toNat ≤ s.params.outCap
  onlyDone : s.outLen ≠ 0 → s.phase = .done

/-- The error record: only the codes HUFFENC raises (R155), nothing recorded while the code is 0 (R22), and nothing but
CLEAR pending while an error is recorded (R156, R157). -/
structure State.ErrorOk (s : State) : Prop where
  code : s.errCode = 0 ∨ (s.errSrc = false ∧ s.errCode ∈ [1#4, 5#4, 6#4, 8#4, 9#4]) ∨
    (s.errSrc = true ∧ s.errCode ∈ [6#4, 7#4])
  empty : s.errCode = 0 → s.errSrc = false ∧ s.errWord = 0
  pending : s.errCode ≠ 0 → s.pending = none ∨ s.pending = some 1

/-- The node ids in slots 1 to PQ_SIZE (R32). -/
def State.queueIds (s : State) : List NodeId := (List.range s.pqSize.toNat).map fun i => s.heapAt (i + 1)

/-- The key of a slot (R106). -/
def State.keyAt (s : State) (i : Nat) : Word := heapKey s.arena s.heap i

/-- The heap invariant: every parent's frequency is at most its child's (R33). -/
def State.HeapOrdered (s : State) : Prop := ∀ i, 2 ≤ i → i ≤ s.pqSize.toNat → s.keyAt (i / 2) ≤ s.keyAt i

/-- The queue: the heap invariant, the capacities (R6, R30, R32), and only allocated nodes, each at most once, in the
heap. -/
structure State.QueueOk (s : State) : Prop where
  ordered : s.HeapOrdered
  size : s.pqSize.toNat ≤ Config.heapCap
  count : s.nodeCount.toNat ≤ Config.arenaCap
  allocated : ∀ n ∈ s.queueIds, n.toNat < s.nodeCount.toNat
  once : s.queueIds.Nodup

/-- A node record: a leaf has no children, and an internal node has no symbol and children with smaller ids (R29,
R31). -/
def Node.OkAt (nd : Node) (n : NodeId) : Prop :=
  (nd.leaf = true ∧ nd.left = Config.noNode ∧ nd.right = Config.noNode) ∨
    (nd.leaf = false ∧ nd.sym = 0 ∧ nd.left.toNat < n.toNat ∧ nd.right.toNat < n.toNat)

/-- The allocated node records (R29 to R31). -/
def State.RecordsOk (s : State) : Prop := ∀ n : NodeId, n.toNat < s.nodeCount.toNat → (s.nodeAt n).OkAt n

/-- The phase IDLE in the table of R40. -/
structure State.IdleOk (s : State) : Prop where
  freq : s.freq = []
  nsym : s.nsym = 0
  root : s.root = Config.noNode

/-- The phase BUILT and the later ones in the table of R40, with R31 and R122. -/
structure State.BuiltOk (s : State) (t : CodeTree) : Prop where
  input : s.inLen ≠ 0
  freq : ∀ sym : Byte, (s.freqAt sym.toNat).toNat = s.inputBytes.count sym
  nsym : s.nsym.toNat = s.inputBytes.toFinset.card
  nodeCount : s.nodeCount.toNat + 1 = 2 * s.nsym.toNat
  root : s.root.toNat + 1 = s.nodeCount.toNat
  queue : s.pqSize = 0
  tree : TreeAt s.arena s.root t
  symbols : t.symbols.Nodup
  participating : ∀ sym, sym ∈ t.symbols ↔ sym ∈ s.inputBytes

/-- No code table yet: the first two phases in the table of R40. -/
structure State.NoCodes (s : State) : Prop where
  codeLen : s.codeLen = []
  codeBits : s.codeBits = []
  bitcnt : s.bitcnt = 0

/-- A valid code table: the phases CODED and DONE in the table of R40, with R35, R127 to R129. -/
structure State.CodesOk (s : State) (t : CodeTree) : Prop where
  codes : ∀ c ∈ t.codes, s.codeOf c.1 = c.2
  others : ∀ sym, sym ∉ t.symbols → s.codeOf sym = []
  bitcnt : s.bitcnt.toNat = s.payload.length

/-- No output yet: the first three phases in the table of R40. -/
structure State.NoOutput (s : State) : Prop where
  outLen : s.outLen = 0
  treeLen : s.treeLen = 0

/-- The output stream: the phase DONE in the table of R40, with R132 and R134. -/
structure State.OutputOk (s : State) (t : CodeTree) : Prop where
  stream : s.outputBytes = t.bytes ++ le64 s.bitcnt ++ pack s.payload
  treeLen : s.treeLen.toNat + 2 = 6 * s.nsym.toNat

/-- What each phase guarantees between steps (R40). -/
def State.PhaseOk (s : State) : Prop :=
  match s.phase with
  | .idle => s.IdleOk ∧ s.NoCodes ∧ s.NoOutput
  | .built => ∃ t, s.BuiltOk t ∧ s.NoCodes ∧ s.NoOutput
  | .coded => ∃ t, s.BuiltOk t ∧ s.CodesOk t ∧ s.NoOutput
  | .done => ∃ t, s.BuiltOk t ∧ s.CodesOk t ∧ s.OutputOk t

/-- The whole invariant. -/
structure State.Inv (s : State) : Prop where
  params : s.params.Ok
  memories : s.MemoriesOk
  buffers : s.BuffersOk
  error : s.ErrorOk
  queue : s.QueueOk
  phase : s.PhaseOk
  records : s.RecordsOk

end Sys2Proof.Machine
end

