-- ==== Sys2Proof/Certificates/Slice0/Obligations.lean ====
section
/-! DEFINITION. The statements for the provers. Each docstring names the rules of spec/ it comes from. -/

section

open Sys2Proof Sys2Proof.Machine

/-! ### Reset and the step -/

/-- Every element of R14 that has a reset value has it after reset, whatever the parameters (R14, R41). -/
def Obligations.ResetGivesTheInitialState : Prop :=
  (∀ p : Params, let s := State.resetWith p
    s.arg = 0 ∧ s.result0 = 0 ∧ s.result1 = 0 ∧ s.result2 = 0 ∧ s.phase = .idle ∧ s.busy = false ∧ s.pending = none ∧
      s.errCode = 0 ∧ s.errSrc = false ∧ s.errWord = 0 ∧ s.overrun = false ∧ s.inLen = 0 ∧ s.outLen = 0 ∧
      s.outRd = 0 ∧ (∀ sym, s.freqAt sym = 0) ∧ s.nsym = 0 ∧ s.nodeCount = 0 ∧ s.pqSize = 0 ∧ s.root = 0x1FF#9 ∧
      (∀ sym, s.codeLenAt sym = 0 ∧ s.codeBitsAt sym = 0) ∧ s.bitcnt = 0 ∧ s.treeLen = 0 ∧ s.params = p) ∧
  ∃ p : Params, p.Ok ∧ State.reset = State.resetWith p

/-- What each register reads after reset (R172). -/
def Obligations.RegistersReadTheirResetValues : Prop :=
  ∀ p : Params, let s := State.resetWith p
    ReadGives .rdId 0x48554631 s ∧ ReadGives .rdStatus 0 s ∧ ReadGives .rdError 0 s ∧ ReadGives .rdErrWord 0 s ∧
      ReadGives .rdArg 0 s ∧ ReadGives .rdInLen 0 s ∧ ReadGives .rdOutLen 0 s ∧ ReadGives .rdOutAvail 0 s ∧
      ReadGives .rdNsym 0 s ∧ ReadGives .rdNodeCount 0 s ∧ ReadGives .rdPqSize 0 s ∧ ReadGives .rdBitcntLo 0 s ∧
      ReadGives .rdBitcntHi 0 s ∧ ReadGives .rdTreeLen 0 s ∧ ReadGives .rdResult0 0 s ∧ ReadGives .rdResult1 0 s ∧
      ReadGives .rdResult2 0 s ∧ ReadGives .rdRoot 0x1FF s ∧ ReadGives .rdInCap (BitVec.ofNat 32 p.inCap) s ∧
      ReadGives .rdOutCap (BitVec.ofNat 32 p.outCap) s ∧ ReadGives .rdDataOut 0 s ∧ s.phase = .idle

/-- The invariant holds after reset (R40, R41). -/
def Obligations.ResetStateMeetsTheInvariant : Prop :=
  (∀ p : Params, p.Ok → (State.resetWith p).Inv) ∧ State.reset.Inv

/-- The reset event returns every element to its reset value and discards a pending command, as CLEAR does. It acts
whatever the state holds, unless the agenda lets the engine complete first (R170). That INBUF, OUTBUF, ARENA and HEAP
come out empty, where R171 says they may hold anything, is the model's choice (log 5); so is that the agenda, the values
read and the counter of draws are kept (log 2, log 4). -/
def Obligations.ResetEventReturnsEveryElement : Prop :=
  (∀ (s : State) (first : Bool) (rest : List Planned), s.agenda = { engineFirst := first, event := .reset } :: rest →
    (s.busy = false ∨ first = false) → step s = .next { State.resetWith s.params with agenda := rest, reads := s.reads, draws := s.draws }) ∧
  ∀ s : State,
    exec .clear s = .next { State.resetWith s.params with agenda := s.agenda, reads := s.reads, draws := s.draws }

/-- A step runs what the decoder reads: an access of the host, in the state after it is taken off the agenda, or the
pending command (R5, R12, R60, R101). An access outside the window is refused: that refusal is the model's choice. -/
def Obligations.StepRunsTheDecodedInstruction : Prop :=
  (∀ (s : State) (off : Offset) (first : Bool) (rest : List Planned) (i : Instr),
    s.agenda = { engineFirst := first, event := .access (busAccess s.params off .read) } :: rest →
    (s.busy = false ∨ first = false) → decode (.read off) = .ok i → step s = exec i { s with agenda := rest }) ∧
  (∀ (s : State) (off : Offset) (v : Word) (first : Bool) (rest : List Planned) (i : Instr),
    s.agenda = { engineFirst := first, event := .access (busAccess s.params off (.write v)) } :: rest →
    (s.busy = false ∨ first = false) → decode (.write off v) = .ok i → step s = exec i { s with agenda := rest }) ∧
  (∀ (s : State) (w : Word) (i : Instr), s.pending = some w →
    (s.agenda = [] ∨ ∃ p rest, s.agenda = p :: rest ∧ p.engineFirst = true) → decodeCommand w = .ok i →
    step s = exec i s) ∧
  ∀ (s : State) (a : Access) (first : Bool) (rest : List Planned),
    s.agenda = { engineFirst := first, event := .access a } :: rest → (s.busy = false ∨ first = false) →
    (a.addr < s.params.regBase ∨ s.params.regBase + 256 ≤ a.addr) → step s = .refused .outsideWindow

/-- An access to the window that is misaligned or not 32 bits wide is refused (R51). -/
def Obligations.UnsupportedAccessIsRefused : Prop :=
  ∀ (s : State) (a : Access) (first : Bool) (rest : List Planned),
    s.agenda = { engineFirst := first, event := .access a } :: rest → (s.busy = false ∨ first = false) →
    s.params.regBase ≤ a.addr → a.addr < s.params.regBase + 256 →
    (a.bytes ≠ 4 ∨ (a.addr - s.params.regBase) % 4 ≠ 0) → step s = .refused .unsupportedAccess

/-- Where the invariant holds, a step stops for nothing but the end of the run and an access without a meaning, and a
pending command whose turn it is completes (R51, R101, R181). The run is over exactly when no event is to come and no
command is pending (R184). -/
def Obligations.OnlyTheDeclaredStopsOccur : Prop :=
  (∀ s : State, s.Inv → SafeStop (step s) ∧ (s.engineNext = true → Completes (step s))) ∧
  ∀ s : State, step s = .fault .runOver ↔ s.agenda = [] ∧ s.pending = none

/-! ### Encoding -/

/-- Decoding the encoding of a well-formed instruction gives the instruction (R75 to R78, R89 to R91). -/
def Obligations.DecodingInvertsEncoding : Prop := ∀ i : Instr, i.WellFormed → decode (encode i) = .ok i

/-- What decodes is well formed, and encoding gives the code back: no two codes mean one instruction (R75 to R81). -/
def Obligations.EncodingInvertsDecoding : Prop :=
  ∀ (c : Code) (i : Instr), decode c = .ok i → i.WellFormed ∧ encode i = c

/-- A command word is valid exactly when it fits a row of the match and mask table, exactly when its opcode is in the
map and its unused fields are 0, and it fits at most one row (R78). -/
def Obligations.ValidWordsFitOneTableRow : Prop :=
  (∀ w : Word, (∃ i, decodeCommand w = .ok i) ↔ ∃ r ∈ commandRows, r.fits w = true) ∧
  (∀ w : Word, (∃ i, decodeCommand w = .ok i) ↔ rsvOf w = 0 ∧
    ((opcOf w ∈ [0x00#8, 0x01#8, 0x02#8, 0x03#8, 0x04#8, 0x05#8, 0x10#8, 0x12#8] ∧ symOf w = 0 ∧ idxOf w = 0) ∨
      (opcOf w ∈ [0x11#8, 0x20#8] ∧ idxOf w = 0) ∨ (opcOf w ∈ [0x13#8, 0x22#8] ∧ symOf w = 0) ∨
      (opcOf w = 0x21#8 ∧ idxHighOf w = 0))) ∧
  ∀ (w : Word), ∀ r ∈ commandRows, ∀ r' ∈ commandRows, r.fits w = true → r'.fits w = true → r = r'

/-- An invalid word raises BAD_COMMAND when it completes, with no other effect; the opcodes outside the map and every
word with a nonzero reserved or unused field are invalid (R79). -/
def Obligations.IllegalWordsRaiseBadCommand : Prop :=
  (∀ (s : State) (w : Word), s.pending = some w →
    (s.agenda = [] ∨ ∃ p rest, s.agenda = p :: rest ∧ p.engineFirst = true) → (∀ r ∈ commandRows, r.fits w = false) →
    step s = .next { s.raise .badCommand w false with pending := none }) ∧
  ∀ w : Word, ((0x06 ≤ (opcOf w).toNat ∧ (opcOf w).toNat ≤ 0x0F) ∨ (0x14 ≤ (opcOf w).toNat ∧ (opcOf w).toNat ≤ 0x1F) ∨
    0x23 ≤ (opcOf w).toNat ∨ rsvOf w ≠ 0 ∨
    (opcOf w ∈ [0x00#8, 0x01#8, 0x02#8, 0x03#8, 0x04#8, 0x05#8, 0x10#8, 0x12#8] ∧ (symOf w ≠ 0 ∨ idxOf w ≠ 0)) ∨
    (opcOf w ∈ [0x11#8, 0x20#8] ∧ idxOf w ≠ 0) ∨ (opcOf w ∈ [0x13#8, 0x22#8] ∧ symOf w ≠ 0) ∨
    (opcOf w = 0x21#8 ∧ idxHighOf w ≠ 0)) → decodeCommand w = .error .badCommand

/-- The encoding function and the spec's own examples of it, read back by the decoder (R89). -/
def Obligations.EncodingFunctionAndItsExamples : Prop :=
  (∀ (b : BitVec 9) (a opc : Byte),
    commandWord b a opc = (b.setWidth 32 <<< 16) ||| (a.setWidth 32 <<< 8) ||| opc.setWidth 32) ∧
  encode (.pqPush 0x61) = .command 0x00006111 ∧ encode (.readNode 4) = .command 0x00040022 ∧
  encode (.readCode 0x61 0) = .command 0x00006121 ∧ encode (.readHeap 1) = .command 0x00010013 ∧
  decode (.command 0x00006111) = .ok (.pqPush 0x61) ∧ decode (.command 0x00040022) = .ok (.readNode 4) ∧
  decode (.command 0x00006121) = .ok (.readCode 0x61 0) ∧ decode (.command 0x00010013) = .ok (.readHeap 1) ∧
  decode (.command 0x01FF0013) = .ok (.readHeap 0x1FF) ∧ decode (.command 0x0007FF21) = .ok (.readCode 0xFF 7) ∧
  decode (.command 0x00000003) = .ok .gencodes ∧ decode (.command 0x00000012) = .ok .pqPop ∧
  decode (.command 0x0000FF20) = .ok (.readFreq 0xFF) ∧ decode (.command 0x00000105) = .error .badCommand

/-! ### The control commands and the queue -/

/-- NOP completes and changes nothing but BUSY; its write sets BUSY, or is dropped while an error is recorded
(R103). -/
def Obligations.NopChangesNothing : Prop :=
  encode .nop = .command 0x00000000 ∧
  (∀ s : State, exec .nop s = .next { s with pending := none }) ∧
  (∀ s : State, s.pending = none → s.errCode = 0 →
    exec (.wrCmd 0x00000000) s = .next { s with pending := some 0x00000000 }) ∧
  ∀ s : State, s.pending = none → s.errCode ≠ 0 → exec (.wrCmd 0x00000000) s = .next s

/-- CLEAR gives every element its reset value, and it is the only command accepted while an error is recorded (R104).
That INBUF, OUTBUF, ARENA and HEAP come out empty, where R14 and R42 leave them unspecified, is the model's choice
(log 5); so is that the agenda, the values read and the counter of draws are kept (log 2, log 4). -/
def Obligations.ClearReturnsEveryElement : Prop :=
  encode .clear = .command 0x00000001 ∧ OnlyWord 0x00000001 ∧
  (∀ s : State,
    exec .clear s = .next { State.resetWith s.params with agenda := s.agenda, reads := s.reads, draws := s.draws }) ∧
  ∀ s : State, s.pending = none → s.errCode ≠ 0 →
    exec (.wrCmd 0x00000001) s = .next { s with pending := some 0x00000001 } ∧
      ∀ v, v ≠ 0x00000001 → exec (.wrCmd v) s = .next s

/-- PQ_RESET empties the queue and the arena, in IDLE only, and leaves everything else (R112). -/
def Obligations.PqResetEmptiesQueueAndArena : Prop :=
  encode .pqReset = .command 0x00000010 ∧ OnlyWord 0x00000010 ∧
  ∀ s : State, (s.phase = .idle → exec .pqReset s = .next { s with pqSize := 0, nodeCount := 0, pending := none }) ∧
    (s.phase ≠ .idle → EndsInSequence .pqReset 0x00000010 s)

/-- PQ_PUSH allocates a leaf with the frequency in ARG, enqueues it and reports it; it raises PQ_FULL when the heap or
the arena is full, and SEQUENCE outside IDLE (R113). -/
def Obligations.PqPushAllocatesAndEnqueuesALeaf : Prop :=
  ∀ (sym : Byte) (w : Word), w = (sym.setWidth 32 <<< 8) ||| 0x11 →
    encode (.pqPush sym) = .command w ∧
    (∀ v, opcOf v = 0x11 → (idxOf v ≠ 0 ∨ rsvOf v ≠ 0) → decodeCommand v = .error .badCommand) ∧
    ∀ s : State, (s.phase ≠ .idle → EndsInSequence (.pqPush sym) w s) ∧
      (s.phase = .idle → (s.pqSize = 256 ∨ s.nodeCount = 511) →
        exec (.pqPush sym) s = .next { s.raise .pqFull w false with pending := none }) ∧
      (s.phase = .idle → s.pqSize ≠ 256 → s.nodeCount ≠ 511 → ∀ (n : NodeId) (leaf : Node),
        n = s.nodeCount.setWidth 9 →
        leaf = { leaf := true, sym := sym, freq := s.arg, left := 0x1FF, right := 0x1FF } →
        exec (.pqPush sym) s = .next
          { enqueue n
              { s with arena := Table.set Node.blank s.arena n.toNat leaf, nodeCount := s.nodeCount + 1 } with
            result0 := leaf.reportWord, result1 := s.arg, result2 := n.setWidth 32, pending := none })

/-- `enqueue` and `dequeue` follow the loops of the spec, comparison for comparison: the recursion has no other end
than the loop's own condition (R107, R108). -/
def Obligations.QueueLoopsFollowTheirComparisons : Prop :=
  (∀ (n : NodeId) (s : State), enqueue n s =
    { s with
      pqSize := s.pqSize + 1
      heap := siftUp s.arena (s.pqSize + 1).toNat (Table.set 0 s.heap (s.pqSize + 1).toNat n) (s.pqSize + 1).toNat }) ∧
  (∀ (arena : Table Node) (heap : Table NodeId) (i fuel : Nat), i ≤ fuel → siftUp arena fuel heap i =
    if i > 1 ∧ heapKey arena heap i < heapKey arena heap (i / 2)
    then siftUp arena fuel (heapSwap heap i (i / 2)) (i / 2) else heap) ∧
  (∀ s : State, s.pqSize = 0 → dequeueTop s = 0x1FF ∧ dequeueRest s = s) ∧
  (∀ s : State, s.pqSize = 1 → dequeueTop s = s.heapAt 1 ∧ dequeueRest s = { s with pqSize := 0 }) ∧
  (∀ s : State, s.pqSize ≠ 0 → s.pqSize ≠ 1 → dequeueTop s = s.heapAt 1 ∧ dequeueRest s =
    { s with
      pqSize := s.pqSize - 1
      heap := siftDown s.arena (s.pqSize - 1).toNat (s.pqSize - 1).toNat
        (Table.set 0 s.heap 1 (s.heapAt s.pqSize.toNat)) 1 }) ∧
  ∀ (arena : Table Node) (heap : Table NodeId) (size i fuel : Nat), 1 ≤ i → size ≤ fuel →
    siftDown arena size fuel heap i =
      if 2 * i ≤ size then
        let c := if 2 * i + 1 ≤ size ∧ heapKey arena heap (2 * i + 1) < heapKey arena heap (2 * i)
          then 2 * i + 1 else 2 * i
        if heapKey arena heap c < heapKey arena heap i then siftDown arena size fuel (heapSwap heap i c) c else heap
      else heap

/-- PQ_POP dequeues and reports the node, or gives the invalid report on an empty queue, in IDLE only (R114). -/
def Obligations.PqPopDequeuesAndReports : Prop :=
  encode .pqPop = .command 0x00000012 ∧ OnlyWord 0x00000012 ∧
  ∀ s : State, (s.phase ≠ .idle → EndsInSequence .pqPop 0x00000012 s) ∧
    (s.phase = .idle → dequeueTop s = 0x1FF →
      exec .pqPop s = .next
        { dequeueRest s with result0 := 0, result1 := 0, result2 := 0x1FF, pending := none }) ∧
    (s.phase = .idle → dequeueTop s ≠ 0x1FF →
      exec .pqPop s = .next
        { dequeueRest s with
          result0 := (s.nodeAt (dequeueTop s)).reportWord
          result1 := (s.nodeAt (dequeueTop s)).freq
          result2 := (dequeueTop s).setWidth 32
          pending := none })

/-- PQ_POP takes a node of the least frequency in the queue, and the queue keeps every other node (R105 to R108). -/
def Obligations.PqPopTakesTheLeastFrequency : Prop :=
  ∀ s : State, s.QueueOk → s.phase = .idle → s.pqSize ≠ 0 →
    ∃ (t : State) (n : NodeId), exec .pqPop s = .next t ∧ s.queueIds.Perm (n :: t.queueIds) ∧
      (∀ m ∈ s.queueIds, (s.nodeAt n).freq ≤ (s.nodeAt m).freq) ∧ t.result1 = (s.nodeAt n).freq ∧
      t.result2 = n.setWidth 32 ∧ t.pqSize = s.pqSize - 1 ∧ ∀ m, t.nodeAt m = s.nodeAt m

/-- The heap invariant holds after every step from a state with a sound queue, and the queue stays sound (R33). -/
def Obligations.HeapOrderHoldsAfterEveryStep : Prop :=
  ∀ s t : State, s.QueueOk → step s = .next t → t.QueueOk ∧
    ∀ i, 2 ≤ i → i ≤ t.pqSize.toNat → (t.nodeAt (t.heapAt (i / 2))).freq ≤ (t.nodeAt (t.heapAt i)).freq

/-- READ_HEAP reports the node in a slot of the queue, in every phase (R115). -/
def Obligations.ReadHeapReportsTheSlot : Prop :=
  ∀ (slot : BitVec 9) (w : Word), w = (slot.setWidth 32 <<< 16) ||| 0x13 →
    encode (.readHeap slot) = .command w ∧
    (∀ v, opcOf v = 0x13 → (symOf v ≠ 0 ∨ rsvOf v ≠ 0) → decodeCommand v = .error .badCommand) ∧
    ∀ s : State, (1 ≤ slot.toNat → slot.toNat ≤ s.pqSize.toNat →
        exec (.readHeap slot) s = .next { s.reportNode (s.heapAt slot.toNat) with pending := none }) ∧
      ((slot.toNat = 0 ∨ s.pqSize.toNat < slot.toNat) →
        exec (.readHeap slot) s = .next { s.reportInvalid with pending := none })

/-- READ_FREQ reports a count, in every phase (R84, R124). -/
def Obligations.ReadFreqReportsTheCount : Prop :=
  ∀ (sym : Byte), encode (.readFreq sym) = .command ((sym.setWidth 32 <<< 8) ||| 0x20) ∧
    (∀ v, opcOf v = 0x20 → (idxOf v ≠ 0 ∨ rsvOf v ≠ 0) → decodeCommand v = .error .badCommand) ∧
    ∀ s : State, exec (.readFreq sym) s =
      .next { s with result0 := s.freqAt sym.toNat, result1 := 0, result2 := 0, pending := none }

/-- READ_CODE reports the length of a code and 32 of its bits, the first in bit 31, 0 beyond its end, in every phase
(R85, R131). -/
def Obligations.ReadCodeReportsLengthAndBits : Prop :=
  ∀ (sym : Byte) (w : BitVec 3),
    encode (.readCode sym w) = .command ((w.setWidth 32 <<< 16) ||| (sym.setWidth 32 <<< 8) ||| 0x21) ∧
    (∀ v, opcOf v = 0x21 → (idxHighOf v ≠ 0 ∨ rsvOf v ≠ 0) → decodeCommand v = .error .badCommand) ∧
    ∀ s : State, ∃ r : Word,
      exec (.readCode sym w) s =
        .next { s with
          result0 := (s.codeLenAt sym.toNat).setWidth 32, result1 := r, result2 := 0, pending := none } ∧
      ∀ j < 32, r.getLsbD (31 - j) =
        (decide (32 * w.toNat + j < (s.codeLenAt sym.toNat).toNat) &&
          (s.codeBitsAt sym.toNat).getLsbD (32 * w.toNat + j))

/-- READ_NODE reports an allocated node record, in every phase (R125). -/
def Obligations.ReadNodeReportsTheRecord : Prop :=
  ∀ (id : NodeId) (w : Word), w = (id.setWidth 32 <<< 16) ||| 0x22 →
    encode (.readNode id) = .command w ∧
    (∀ v, opcOf v = 0x22 → (symOf v ≠ 0 ∨ rsvOf v ≠ 0) → decodeCommand v = .error .badCommand) ∧
    ∀ s : State, (id.toNat < s.nodeCount.toNat →
        exec (.readNode id) s = .next { s.reportNode id with pending := none }) ∧
      (s.nodeCount.toNat ≤ id.toNat → exec (.readNode id) s = .next { s.reportInvalid with pending := none })

/-- The node report and the invalid report, field by field; with sound records a leaf shows no children and an internal
node no symbol (R82, R83). -/
def Obligations.NodeReportsHaveTheirLayout : Prop :=
  (∀ (s : State) (n : NodeId), let r := (s.reportNode n).result0
    s.reportNode n =
      { s with result0 := r, result1 := (s.nodeAt n).freq, result2 := n.setWidth 32 } ∧
    r.getLsbD 31 = true ∧ r.getLsbD 30 = (s.nodeAt n).leaf ∧ r.extractLsb' 26 4 = 0 ∧
    r.extractLsb' 18 8 = (s.nodeAt n).sym ∧ r.extractLsb' 9 9 = (s.nodeAt n).right ∧
    r.extractLsb' 0 9 = (s.nodeAt n).left ∧
    (s.RecordsOk → n.toNat < s.nodeCount.toNat →
      (r.getLsbD 30 = true → r.extractLsb' 9 9 = 0x1FF ∧ r.extractLsb' 0 9 = 0x1FF) ∧
      (r.getLsbD 30 = false → r.extractLsb' 18 8 = 0))) ∧
  ∀ s : State, s.reportInvalid = { s with result0 := 0, result1 := 0, result2 := 0x1FF }

/-! ### BUILD -/

/-- BUILD counts the input and completes in PHASE BUILT with an empty queue, changing nothing but FREQ, NSYM, ARENA,
NODE_COUNT, HEAP, PQ_SIZE, ROOT and PHASE; it raises EMPTY_INPUT without input, and SEQUENCE outside IDLE (R116,
R117). -/
def Obligations.BuildCountsTheInputAndCompletes : Prop :=
  encode .build = .command 0x00000002 ∧ OnlyWord 0x00000002 ∧
  ∀ s : State, (s.phase ≠ .idle → EndsInSequence .build 0x00000002 s) ∧
    (s.phase = .idle → s.inLen = 0 →
      exec .build s = .next { s.raise .emptyInput 0x00000002 false with pending := none }) ∧
    (s.phase = .idle → s.inLen ≠ 0 → ∃ t : State, exec .build s = .next t ∧
      t = { s with
        freq := t.freq, nsym := t.nsym, arena := t.arena, nodeCount := t.nodeCount, heap := t.heap, pqSize := 0
        root := t.root, phase := .built, pending := none } ∧
      (∀ sym : Byte, (t.freqAt sym.toNat).toNat = s.inputBytes.count sym) ∧
      t.nsym.toNat = ((List.range 256).filter fun sym => t.freqAt sym != 0).length)

/-- The node records BUILD leaves: the leaf of a symbol has as id the number of smaller symbols that take part, and
every later record is an internal node of two earlier ones, with the sum of their frequencies (R29, R31, R118,
R119). -/
def Obligations.BuildWritesLeavesThenMerges : Prop :=
  ∀ s t : State, s.phase = .idle → s.inLen ≠ 0 → exec .build s = .next t →
    (∀ (sym : Byte) (n : NodeId), t.freqAt sym.toNat ≠ 0 →
      n.toNat = ((List.range sym.toNat).filter fun i => t.freqAt i != 0).length →
      t.nodeAt n = { leaf := true, sym := sym, freq := t.freqAt sym.toNat, left := 0x1FF, right := 0x1FF }) ∧
    ∀ n : NodeId, t.nsym.toNat ≤ n.toNat → n.toNat < t.nodeCount.toNat →
      ∃ a b : NodeId, a.toNat < n.toNat ∧ b.toNat < n.toNat ∧
        t.nodeAt n =
          { leaf := false, sym := 0, freq := (t.nodeAt a).freq + (t.nodeAt b).freq, left := a, right := b }

/-- BUILD writes no node record from NODE_COUNT on and no slot outside 1 to NSYM (R116, R118, R119, R122). -/
def Obligations.BuildLeavesOtherEntriesUnchanged : Prop :=
  ∀ s t : State, s.phase = .idle → s.inLen ≠ 0 → exec .build s = .next t →
    (∀ n : NodeId, t.nodeCount.toNat ≤ n.toNat → t.nodeAt n = s.nodeAt n) ∧
    ∀ i : Nat, (i = 0 ∨ t.nsym.toNat < i) → t.heapAt i = s.heapAt i

/-- A merge joins the two nodes of least frequency, the first dequeued on the left, and enqueues the new node; the
merges go on exactly while more than one node is queued (R119). -/
def Obligations.MergeJoinsTheTwoLeastNodes : Prop :=
  (∀ s : State, s.QueueOk → 2 ≤ s.pqSize.toNat → s.nodeCount.toNat < 511 →
    ∃ (a b n : NodeId) (rest : List NodeId), s.queueIds.Perm (a :: b :: rest) ∧
      (∀ m ∈ s.queueIds, (s.nodeAt a).freq ≤ (s.nodeAt m).freq) ∧ (∀ m ∈ rest, (s.nodeAt b).freq ≤ (s.nodeAt m).freq) ∧
      n.toNat = s.nodeCount.toNat ∧ (mergeStep s).queueIds.Perm (n :: rest) ∧
      (mergeStep s).nodeCount = s.nodeCount + 1 ∧
      (mergeStep s).nodeAt n =
        { leaf := false, sym := 0, freq := (s.nodeAt a).freq + (s.nodeAt b).freq, left := a, right := b } ∧
      ∀ m, m ≠ n → (mergeStep s).nodeAt m = s.nodeAt m) ∧
  ∀ s : State, s.pqSize.toNat ≤ 256 → s.nodeCount.toNat + s.pqSize.toNat ≤ 512 → mergeLoop s.pqSize.toNat s =
    if s.pqSize.toNat > 1 then mergeLoop (mergeStep s).pqSize.toNat (mergeStep s) else s

/-- BUILD ends with one tree: ROOT is the last node, NODE_COUNT = 2*NSYM - 1, the leaves are the participating symbols,
each once, the root's frequency is the length of the input, and one symbol gives one leaf (R31, R120 to R123). -/
def Obligations.BuildMakesOneTreeOfTheSymbols : Prop :=
  ∀ s t : State, s.phase = .idle → s.inLen ≠ 0 → exec .build s = .next t →
    t.pqSize = 0 ∧ t.root.toNat + 1 = t.nodeCount.toNat ∧ t.nodeCount.toNat + 1 = 2 * t.nsym.toNat ∧
      t.nodeCount.toNat ≤ 511 ∧ (t.nodeAt t.root).freq = s.inLen ∧
      (t.nsym = 1 → t.root = 0 ∧ (t.nodeAt t.root).leaf = true) ∧
      ∃ c : CodeTree, TreeAt t.arena t.root c ∧ c.symbols.Nodup ∧ ∀ sym, sym ∈ c.symbols ↔ sym ∈ s.inputBytes

/-- What diagnostics and earlier contents left behind does not reach a build: two states with the same input bytes end
with the same counts, the same root and the same node records (R116). -/
def Obligations.BuildDependsOnTheInputAlone : Prop :=
  ∀ s s' t t' : State, s.phase = .idle → s'.phase = .idle → s.inLen ≠ 0 → s.inputBytes = s'.inputBytes →
    exec .build s = .next t → exec .build s' = .next t' →
    t.freq = t'.freq ∧ t.nsym = t'.nsym ∧ t.nodeCount = t'.nodeCount ∧ t.root = t'.root ∧
      ∀ n : NodeId, n.toNat < t.nodeCount.toNat → t.nodeAt n = t'.nodeAt n

/-! ### GENCODES, EMIT and COMPRESS -/

/-- GENCODES gives each leaf's symbol the path to it, every other symbol no code, and BITCNT the exact length of the
payload; nothing else changes but PHASE (R35, R126 to R129). -/
def Obligations.GencodesRecordsTheLeafPaths : Prop :=
  encode .gencodes = .command 0x00000003 ∧ OnlyWord 0x00000003 ∧
  (∀ s : State, s.phase ≠ .built → EndsInSequence .gencodes 0x00000003 s) ∧
  ∀ (s : State) (c : CodeTree), s.phase = .built → s.BuiltOk c → ∃ t : State, exec .gencodes s = .next t ∧
    t = { s with
      codeLen := t.codeLen, codeBits := t.codeBits, bitcnt := t.bitcnt, phase := .coded, pending := none } ∧
    (∀ x ∈ c.codes, t.codeOf x.1 = x.2) ∧
    (∀ sym : Byte, sym ∉ c.symbols → t.codeLenAt sym.toNat = 0) ∧
    (∀ (sym : Byte) (k : Nat), (t.codeLenAt sym.toNat).toNat ≤ k → (t.codeBitsAt sym.toNat).getLsbD k = false) ∧
    t.bitcnt.toNat = (s.inputBytes.map fun b => (t.codeLenAt b.toNat).toNat).sum ∧
    t.bitcnt.toNat = ((List.range 256).map fun sym => (s.freqAt sym).toNat * (t.codeLenAt sym).toNat).sum ∧
    t.bitcnt.toNat < 2 ^ 40

/-- The code table is free of prefixes, its lengths are bounded by the number of symbols, and with two symbols or more
it meets the Kraft equality (R130). -/
def Obligations.CodeTableIsPrefixFreeAndFull : Prop :=
  ∀ s : State, s.Inv → (s.phase = .coded ∨ s.phase = .done) →
    (∀ a ∈ s.inputBytes, ∀ b ∈ s.inputBytes, a ≠ b → ¬ s.codeOf a <+: s.codeOf b) ∧
    (∀ a ∈ s.inputBytes, (2 ≤ s.nsym.toNat → 1 ≤ (s.codeOf a).length ∧ (s.codeOf a).length + 1 ≤ s.nsym.toNat) ∧
      (s.nsym = 1 → s.codeOf a = [false])) ∧
    (2 ≤ s.nsym.toNat →
      (((List.range 256).filter fun sym => s.freqAt sym != 0).map fun sym =>
        2 ^ (255 - (s.codeLenAt sym).toNat)).sum = 2 ^ 255)

/-- EMIT places the stream in OUTBUF: the tree, the bit count and the packed codes of the input, if it fits in OUT_CAP;
otherwise it raises OUT_OVERFLOW and writes nothing (R132, R133, R135, R136, R138). -/
def Obligations.EmitWritesTheStreamOrNothing : Prop :=
  encode .emit = .command 0x00000004 ∧ OnlyWord 0x00000004 ∧
  (∀ s : State, s.phase ≠ .coded → EndsInSequence .emit 0x00000004 s) ∧
  ∀ (s : State) (c : CodeTree) (stream : List Byte), s.params.Ok → s.phase = .coded → s.BuiltOk c → s.CodesOk c →
    stream = c.bytes ++ le64 s.bitcnt ++ pack (s.inputBytes.flatMap s.codeOf) →
    (stream.length ≤ s.params.outCap → ∃ t : State, exec .emit s = .next t ∧ t.outputBytes = stream ∧
      t.outLen.toNat = stream.length ∧ t.treeLen.toNat + 2 = 6 * s.nsym.toNat ∧
      (∀ k, stream.length ≤ k → t.outbuf.read k = s.outbuf.read k) ∧
      t = { s with
        outbuf := t.outbuf, outLen := t.outLen, outRd := 0, treeLen := t.treeLen, phase := .done, pending := none }) ∧
    (s.params.outCap < stream.length →
      exec .emit s = .next { s.raise .outOverflow 0x00000004 false with pending := none })

/-- The length of the stream: the tree's 6*NSYM - 2 bytes, 8 bytes of count and the payload's bytes; its bounds (R134,
R137). -/
def Obligations.StreamLengthAndItsBounds : Prop :=
  ∀ s : State, s.Inv → s.phase = .done →
    s.outLen.toNat + 2 = 6 * s.nsym.toNat + 8 + (s.bitcnt.toNat + 7) / 8 ∧ 13 ≤ s.outLen.toNat ∧
      s.outLen.toNat ≤ 1542 + (255 * s.inLen.toNat + 7) / 8 ∧ s.treeLen.toNat + 2 = 6 * s.nsym.toNat ∧
      4 ≤ s.treeLen.toNat ∧ s.treeLen.toNat ≤ 1534

/-- The bit count stands least significant byte first after the tree, and the payload is packed most significant bit
first after it, padded with zeros (R56, R57). -/
def Obligations.StreamByteAndBitOrder : Prop :=
  ∀ s : State, s.Inv → s.phase = .done →
    (∀ k < 8, s.outbuf.read (s.treeLen.toNat + k) = s.bitcnt.extractLsb' (8 * k) 8) ∧
    ∀ j i, j < (s.bitcnt.toNat + 7) / 8 → i < 8 →
      (s.outbuf.read (s.treeLen.toNat + 8 + j)).getLsbD (7 - i) =
        (s.inputBytes.flatMap s.codeOf).getD (8 * j + i) false

/-- With OUT_CAP at least 1542 + ceil(255*IN_CAP/8), EMIT and COMPRESS never raise OUT_OVERFLOW: they complete in
PHASE DONE (R8). -/
def Obligations.AmpleOutputBufferNeverOverflows : Prop :=
  ∀ s : State, s.Inv → 1542 + (255 * s.params.inCap + 7) / 8 ≤ s.params.outCap →
    (s.phase = .coded → ∃ t, exec .emit s = .next t ∧ t.phase = .done ∧ t.errCode = s.errCode) ∧
    (s.phase = .idle → s.inLen ≠ 0 → ∃ t, exec .compress s = .next t ∧ t.phase = .done ∧ t.errCode = s.errCode)

/-- COMPRESS is BUILD, GENCODES and EMIT in one completion step, with its own word in the error record; the stages that
completed keep their effects (R139). -/
def Obligations.CompressRunsTheThreeStages : Prop :=
  encode .compress = .command 0x00000005 ∧ OnlyWord 0x00000005 ∧
  ∀ s : State, (s.phase ≠ .idle → EndsInSequence .compress 0x00000005 s) ∧
    (s.phase = .idle → s.inLen = 0 →
      exec .compress s = .next { s.raise .emptyInput 0x00000005 false with pending := none }) ∧
    (s.phase = .idle → s.inLen ≠ 0 → ∃ s1 s2 s3 : State, exec .build s = .next s1 ∧ exec .gencodes s1 = .next s2 ∧
      exec .emit s2 = .next s3 ∧ s2.phase = .coded ∧ s2.outLen = s.outLen ∧
      (s3.phase = .done → exec .compress s = .next s3) ∧
      (s3.phase ≠ .done →
        exec .compress s = .next { s2.raise .outOverflow 0x00000005 false with pending := none }))

/-- The round trip: what COMPRESS writes without an error decodes to the input (R152). -/
def Obligations.CompressedOutputDecodesToTheInput : Prop :=
  ∀ s t : State, s.params.Ok → exec .compress s = .next t → t.errCode = 0 →
    refDecode t.outputBytes = .ok s.inputBytes

/-- Every proper prefix of an output stream fails with TRUNCATED_STREAM (R153). -/
def Obligations.TruncatedStreamsAreRejected : Prop :=
  ∀ s : State, s.Inv → s.phase = .done → ∀ p : List Byte, p <+: s.outputBytes → p ≠ s.outputBytes →
    refDecode p = .error .truncatedStream

/-- The output is a function of the input bytes alone (R140). -/
def Obligations.OutputDependsOnTheInputAlone : Prop :=
  ∀ s s' t t' : State, s.params.Ok → s'.params.Ok → s.inputBytes = s'.inputBytes → exec .compress s = .next t →
    exec .compress s' = .next t' → t.errCode = 0 → t'.errCode = 0 → t.outputBytes = t'.outputBytes

/-- The reference decoder ignores bytes after the payload, and fails with CORRUPT_TREE on a first tag of 0 and on a tag
that is neither 0 nor 1 (R142, R143, R150). -/
def Obligations.DecoderIgnoresTrailingBytes : Prop :=
  (∀ (file extra out : List Byte), refDecode file = .ok out → refDecode (file ++ extra) = .ok out) ∧
  ∀ (tag : Byte) (rest : List Byte), tag ≠ 1 → refDecode (tag :: rest) = .error .corruptTree

/-! ### Errors -/

/-- A command that raises changes nothing but the error record and the pending command; COMPRESS may keep the effects
of the stages before the one that failed (R100, R154). -/
def Obligations.CommandErrorsChangeNothingElse : Prop :=
  ∀ (i : Instr) (w : Word) (s t : State), encode i = .command w → s.errCode = 0 → exec i s = .next t → t.errCode ≠ 0 →
    t = { s with errCode := t.errCode, errSrc := false, errWord := w, pending := none } ∨
    (i = .compress ∧ t.errCode = 8 ∧ ∃ s1 s2 : State, exec .build s = .next s1 ∧ exec .gencodes s1 = .next s2 ∧
      t = { s2 with errCode := 8, errSrc := false, errWord := w, pending := none })

/-- The first error is kept, with the code of its kind, until CLEAR or reset (R22, R43, R155, R156). -/
def Obligations.FirstErrorStaysUntilClearOrReset : Prop :=
  (∀ (e : ErrorKind) (w : Word) (src : Bool) (s : State),
    (s.errCode = 0 → s.raise e w src = { s with errCode := e.code, errSrc := src, errWord := w }) ∧
    (s.errCode ≠ 0 → s.raise e w src = s)) ∧
  (ErrorKind.code .emptyInput = 1 ∧ ErrorKind.code .badCommand = 5 ∧ ErrorKind.code .sequence = 6 ∧
    ErrorKind.code .inOverflow = 7 ∧ ErrorKind.code .outOverflow = 8 ∧ ErrorKind.code .pqFull = 9) ∧
  ∀ s t : State, s.errCode ≠ 0 → step s = .next t →
    (t.errCode = s.errCode ∧ t.errSrc = s.errSrc ∧ t.errWord = s.errWord) ∨ t.IsResetOf s

/-- While an error is recorded, commands other than CLEAR and input bytes are dropped without a flag; ARG writes and
reads of the output still act (R157). -/
def Obligations.RecordedErrorBlocksAllButClear : Prop :=
  ∀ s : State, s.errCode ≠ 0 → s.pending = none →
    (∀ w, w ≠ 0x00000001 → exec (.wrCmd w) s = .next s) ∧
    exec (.wrCmd 0x00000001) s = .next { s with pending := some 0x00000001 } ∧
    (∀ v, exec (.wrDataIn v) s = .next s) ∧ (∀ v, exec (.wrArg v) s = .next { s with arg := v }) ∧
    (s.outRd.toNat < s.outLen.toNat → ∃ r, exec .rdDataOut s =
      .next { s with reads := s.reads ++ [r], outRd := s.outRd + 1 }) ∧
    ReadGives .rdErrWord s.errWord s ∧ ReadGives .rdStatus s.statusWord s

/-- The phases in which each command and DATA_IN execute: any other phase raises SEQUENCE, and an allowed one does not
(R102). -/
def Obligations.PhasesAllowOperationsAsTabled : Prop :=
  (∀ s : State, s.phase ≠ .idle → EndsInSequence .build 0x00000002 s ∧ EndsInSequence .compress 0x00000005 s ∧
    EndsInSequence .pqReset 0x00000010 s ∧ (∀ sym, EndsInSequence (.pqPush sym) (encodeWord (.pqPush sym)) s) ∧
    EndsInSequence .pqPop 0x00000012 s ∧
    (s.pending = none → s.errCode = 0 →
      ∀ v, exec (.wrDataIn v) s = .next { s with errCode := 6, errSrc := true, errWord := v })) ∧
  (∀ s : State, s.phase ≠ .built → EndsInSequence .gencodes 0x00000003 s) ∧
  (∀ s : State, s.phase ≠ .coded → EndsInSequence .emit 0x00000004 s) ∧
  ∀ (i : Instr) (s t : State), exec i s = .next t → s.errCode = 0 → t.errCode = 6 →
    ((i = .build ∨ i = .compress ∨ i = .pqReset ∨ (∃ sym, i = .pqPush sym) ∨ i = .pqPop ∨ ∃ v, i = .wrDataIn v) ∧
      s.phase ≠ .idle) ∨ (i = .gencodes ∧ s.phase ≠ .built) ∨ (i = .emit ∧ s.phase ≠ .coded)

/-! ### The host's accesses -/

/-- WR CMD (R98). -/
def Obligations.WrCmdAcceptsOrDropsTheWord : Prop :=
  ∀ (w : Word) (s : State),
    (s.pending ≠ none → exec (.wrCmd w) s = .next { s with overrun := true }) ∧
    (s.pending = none → s.errCode ≠ 0 → w ≠ 0x00000001 → exec (.wrCmd w) s = .next s) ∧
    (s.pending = none → (s.errCode = 0 ∨ w = 0x00000001) → exec (.wrCmd w) s = .next { s with pending := some w })

/-- WR ARG (R94). -/
def Obligations.WrArgWritesOrSetsOverrun : Prop :=
  ∀ (v : Word) (s : State),
    (s.pending ≠ none → exec (.wrArg v) s = .next { s with overrun := true }) ∧
    (s.pending = none → exec (.wrArg v) s = .next { s with arg := v })

/-- WR DATA_IN appends the low byte, or is dropped, or raises, in the order of the rule (R95, R160). -/
def Obligations.WrDataInAppendsTheLowByte : Prop :=
  ∀ (v : Word) (s : State),
    (s.pending ≠ none → exec (.wrDataIn v) s = .next { s with overrun := true }) ∧
    (s.pending = none → s.errCode ≠ 0 → exec (.wrDataIn v) s = .next s) ∧
    (s.pending = none → s.errCode = 0 → s.phase ≠ .idle →
      exec (.wrDataIn v) s = .next { s with errCode := 6, errSrc := true, errWord := v }) ∧
    (s.pending = none → s.errCode = 0 → s.phase = .idle → s.inLen.toNat = s.params.inCap →
      exec (.wrDataIn v) s = .next { s with errCode := 7, errSrc := true, errWord := v }) ∧
    (s.pending = none → s.errCode = 0 → s.phase = .idle → s.inLen.toNat < s.params.inCap → s.params.Ok →
      ∃ t : State, exec (.wrDataIn v) s = .next t ∧ t = { s with inbuf := t.inbuf, inLen := t.inLen } ∧
        t.inLen.toNat = s.inLen.toNat + 1 ∧ t.inputBytes = s.inputBytes ++ [v.setWidth 8] ∧
        ∀ k, k ≠ s.inLen.toNat → t.inbuf.read k = s.inbuf.read k)

/-- Which write each aligned offset has; a write at a read-only, constant or reserved offset is ignored, even while
BUSY = 1 (R91). -/
def Obligations.WritesDispatchOnTheOffset : Prop :=
  (∀ v : Word, decode (.write 0x04 v) = .ok (.wrCmd v) ∧ decode (.write 0x14 v) = .ok (.wrArg v) ∧
    decode (.write 0x18 v) = .ok (.wrDataIn v)) ∧
  (∀ (off : Offset) (v : Word), off.Aligned → off ≠ 0x04 → off ≠ 0x14 → off ≠ 0x18 →
    decode (.write off v) = .ok (.wrOther off v)) ∧
  ∀ (off : Offset) (v : Word) (s : State), exec (.wrOther off v) s = .next s

/-- STATUS, ID, IN_CAP and OUT_CAP read their exact value whether or not BUSY = 1, and the read writes no state (R92,
with the layout of R69 and the constants of R71). -/
def Obligations.ConstantsAndStatusReadExactly : Prop :=
  ∀ s : State, ReadGives .rdStatus s.statusWord s ∧ ReadGives .rdId 0x48554631 s ∧
    ReadGives .rdInCap (BitVec.ofNat 32 s.params.inCap) s ∧ ReadGives .rdOutCap (BitVec.ofNat 32 s.params.outCap) s

/-- A read of any other offset while BUSY = 1 gives the next free value and writes no state: no pop, no OVERRUN
(R93). -/
def Obligations.ReadsWhileBusyGiveAnyValue : Prop :=
  ∀ (i : Instr) (s : State), s.pending ≠ none →
    (i ∈ [Instr.rdDataOut, .rdError, .rdErrWord, .rdArg, .rdInLen, .rdOutLen, .rdOutAvail, .rdNsym, .rdRoot,
      .rdNodeCount, .rdPqSize, .rdBitcntLo, .rdBitcntHi, .rdTreeLen, .rdResult0, .rdResult1, .rdResult2, .rdCmd,
      .rdDataIn] ∨ ∃ off, i = .rdReserved off) →
    exec i s = .next { s with reads := s.reads ++ [Config.draw32 s.draws], draws := s.draws + 1 }

/-- The content of each register, read with BUSY = 0; the read writes no state (R72, R73, R97). -/
def Obligations.RegistersReadTheirContent : Prop :=
  ∀ s : State, s.pending = none →
    ReadGives .rdInLen s.inLen s ∧ ReadGives .rdOutLen s.outLen s ∧ ReadGives .rdOutAvail (s.outLen - s.outRd) s ∧
      ReadGives .rdNsym (s.nsym.setWidth 32) s ∧ ReadGives .rdRoot (s.root.setWidth 32) s ∧
      ReadGives .rdNodeCount (s.nodeCount.setWidth 32) s ∧ ReadGives .rdPqSize (s.pqSize.setWidth 32) s ∧
      (∃ lo hi : Word, s.bitcnt = hi ++ lo ∧ ReadGives .rdBitcntLo lo s ∧ ReadGives .rdBitcntHi hi s) ∧
      ReadGives .rdTreeLen s.treeLen s ∧ ReadGives .rdError s.errorWord s ∧ ReadGives .rdErrWord s.errWord s ∧
      ReadGives .rdArg s.arg s ∧ ReadGives .rdResult0 s.result0 s ∧ ReadGives .rdResult1 s.result1 s ∧
      ReadGives .rdResult2 s.result2 s

/-- Which read each aligned offset has; write-only registers and reserved offsets read 0 with BUSY = 0 (R52, R67,
R90). -/
def Obligations.ReadsDispatchOnTheOffset : Prop :=
  (decode (.read 0x00) = .ok .rdId ∧ decode (.read 0x04) = .ok .rdCmd ∧ decode (.read 0x08) = .ok .rdStatus ∧
    decode (.read 0x0C) = .ok .rdError ∧ decode (.read 0x10) = .ok .rdErrWord ∧ decode (.read 0x14) = .ok .rdArg ∧
    decode (.read 0x18) = .ok .rdDataIn ∧ decode (.read 0x1C) = .ok .rdDataOut ∧ decode (.read 0x20) = .ok .rdInLen ∧
    decode (.read 0x24) = .ok .rdOutLen ∧ decode (.read 0x28) = .ok .rdOutAvail ∧
    decode (.read 0x2C) = .ok .rdInCap ∧ decode (.read 0x30) = .ok .rdOutCap ∧ decode (.read 0x34) = .ok .rdNsym ∧
    decode (.read 0x38) = .ok .rdRoot ∧ decode (.read 0x3C) = .ok .rdNodeCount ∧
    decode (.read 0x40) = .ok .rdPqSize ∧ decode (.read 0x44) = .ok .rdBitcntLo ∧
    decode (.read 0x48) = .ok .rdBitcntHi ∧ decode (.read 0x4C) = .ok .rdTreeLen ∧
    decode (.read 0x50) = .ok .rdResult0 ∧ decode (.read 0x54) = .ok .rdResult1 ∧
    decode (.read 0x58) = .ok .rdResult2) ∧
  (∀ off : Offset, off.Aligned → 0x5C ≤ off.toNat → decode (.read off) = .ok (.rdReserved off)) ∧
  ∀ s : State, s.pending = none →
    ReadGives .rdCmd 0 s ∧ ReadGives .rdDataIn 0 s ∧ ∀ off, ReadGives (.rdReserved off) 0 s

/-- RD DATA_OUT with BUSY = 0 pops one byte with VALID set, or reads 0 when there is none (R96). -/
def Obligations.DataOutPopsOneByte : Prop :=
  ∀ s : State, s.pending = none →
    (s.outRd.toNat < s.outLen.toNat → exec .rdDataOut s = .next
      { s with
        reads := s.reads ++ [0x00000100#32 ||| (s.outbuf.read s.outRd.toNat).setWidth 32]
        outRd := s.outRd + 1 }) ∧
    (s.outLen.toNat ≤ s.outRd.toNat → ReadGives .rdDataOut 0 s)

/-- STATUS and ERROR, bit by bit (R69, R70). -/
def Obligations.StatusAndErrorHaveTheirLayout : Prop :=
  ∀ s : State,
    (s.statusWord.getLsbD 0 = s.pending.isSome ∧ s.statusWord.getLsbD 1 = decide (s.errCode ≠ 0) ∧
      s.statusWord.getLsbD 2 = s.overrun ∧ s.statusWord.getLsbD 3 = decide (s.outRd.toNat < s.outLen.toNat) ∧
      s.statusWord.extractLsb' 4 2 =
        (match s.phase with | .idle => 0#2 | .built => 1#2 | .coded => 2#2 | .done => 3#2) ∧
      s.statusWord.extractLsb' 6 26 = 0) ∧
    s.errorWord.extractLsb' 0 4 = s.errCode ∧ s.errorWord.extractLsb' 4 4 = 0 ∧ s.errorWord.getLsbD 8 = s.errSrc ∧
    s.errorWord.extractLsb' 9 23 = 0

/-! ### The whole machine -/

/-- Which instructions may change each element of the state, CLEAR apart (R15, R16, R20 to R23, R25 to R30, R32, R34 to
R37, R45). The error record is written only by an error, the first one: by a command, with source 0 and its word, or by
WR DATA_IN, with source 1 and the word written. -/
def Obligations.EachElementHasItsWriters : Prop :=
  ∀ (i : Instr) (s t : State), exec i s = .next t → i ≠ .clear →
    ((t.arg = s.arg) ∨ ∃ v, i = .wrArg v) ∧
    ((t.result0 = s.result0 ∧ t.result1 = s.result1 ∧ t.result2 = s.result2) ∨
      (∃ sym, i = .pqPush sym) ∨ i = .pqPop ∨ (∃ k, i = .readHeap k) ∨ (∃ sym, i = .readFreq sym) ∨
      (∃ sym w, i = .readCode sym w) ∨ ∃ id, i = .readNode id) ∧
    (t.phase = s.phase ∨ i = .build ∨ i = .gencodes ∨ i = .emit ∨ i = .compress) ∧
    (t.pending = s.pending ∨ ((∃ w, encode i = .command w) ∧ t.pending = none) ∨
      ∃ w, i = .wrCmd w ∧ s.pending = none ∧ t.pending = some w) ∧
    (t.overrun = s.overrun ∨
      (((∃ v, i = .wrCmd v) ∨ (∃ v, i = .wrArg v) ∨ ∃ v, i = .wrDataIn v) ∧ s.pending ≠ none ∧ t.overrun = true)) ∧
    ((t.errCode = s.errCode ∧ t.errSrc = s.errSrc ∧ t.errWord = s.errWord) ∨
      (s.errCode = 0 ∧ t.errCode ≠ 0 ∧
        ((∃ w, encode i = .command w ∧ t.errSrc = false ∧ t.errWord = w) ∨
          ∃ v, i = .wrDataIn v ∧ t.errSrc = true ∧ t.errWord = v))) ∧
    ((t.inbuf = s.inbuf ∧ t.inLen = s.inLen) ∨ ∃ v, i = .wrDataIn v) ∧
    ((t.freq = s.freq ∧ t.nsym = s.nsym ∧ t.root = s.root) ∨ i = .build ∨ i = .compress) ∧
    ((t.arena = s.arena ∧ t.nodeCount = s.nodeCount ∧ t.heap = s.heap ∧ t.pqSize = s.pqSize) ∨ i = .build ∨
      i = .compress ∨ i = .pqReset ∨ (∃ sym, i = .pqPush sym) ∨ i = .pqPop) ∧
    ((t.codeLen = s.codeLen ∧ t.codeBits = s.codeBits ∧ t.bitcnt = s.bitcnt) ∨ i = .gencodes ∨ i = .compress) ∧
    ((t.outbuf = s.outbuf ∧ t.outLen = s.outLen ∧ t.treeLen = s.treeLen) ∨ i = .emit ∨ i = .compress) ∧
    (t.outRd = s.outRd ∨ i = .emit ∨ i = .compress ∨ i = .rdDataOut) ∧
    t.params = s.params ∧ t.agenda = s.agenda

/-- A step moves PHASE forward only and, once PHASE is past IDLE, leaves the input bytes as they are, unless it is a
reset or CLEAR (R20, R64). -/
def Obligations.PhaseMovesForwardAndInputFreezes : Prop :=
  ∀ s t : State, step s = .next t → t.IsResetOf s ∨
    (s.phase.code ≤ t.phase.code ∧ (s.phase ≠ .idle → t.inLen = s.inLen ∧ t.inputBytes = s.inputBytes))

/-- Every step keeps the whole invariant: the memories' canonical form and ranges, the lengths of the buffers, the error
record, the heap order, the node records, and what the table of R40 says of each phase (R24 to R40). -/
def Obligations.EveryStepKeepsTheInvariant : Prop := ∀ s t : State, s.Inv → step s = .next t → t.Inv

end
end

