-- ==== Sys2Proof/Laws/Decode.lean ====
section
/-! SUPPORT. The fields of an encoded command word (spec/30_encoding.md R75, R76), and what the command decoder accepts
(R78). -/

namespace Sys2Proof

/-! ### Fields of `commandWord` -/

/-- Each bit of a command word. -/
theorem getLsbD_commandWord (b : BitVec 9) (a opc : Byte) (i : Nat) :
    (commandWord b a opc).getLsbD i =
      if i < 8 then opc.getLsbD i else if i < 16 then a.getLsbD (i - 8) else b.getLsbD (i - 16) := by
  change (0#7 ++ b ++ a ++ opc : BitVec (7 + 9 + 8 + 8)).getLsbD i = _
  rw [BitVec.getLsbD_append, BitVec.getLsbD_append, BitVec.getLsbD_append, Nat.sub_sub, Nat.sub_sub]
  split
  · rfl
  · by_cases h2 : i < 16
    · rw [if_pos (by omega), if_pos h2]
    · rw [if_neg (by omega), if_neg h2]
      split
      · rfl
      · rw [BitVec.getLsbD_zero, BitVec.getLsbD_of_ge _ _ (by omega)]

@[simp] theorem opcOf_commandWord (b : BitVec 9) (a opc : Byte) : opcOf (commandWord b a opc) = opc := by
  apply BitVec.eq_of_getLsbD_eq
  intro i hi
  rw [opcOf, BitVec.getLsbD_extractLsb', getLsbD_commandWord, Nat.zero_add, if_pos hi, decide_eq_true hi, Bool.true_and]

@[simp] theorem symOf_commandWord (b : BitVec 9) (a opc : Byte) : symOf (commandWord b a opc) = a := by
  apply BitVec.eq_of_getLsbD_eq
  intro i hi
  rw [symOf, BitVec.getLsbD_extractLsb', getLsbD_commandWord, if_neg (by omega), if_pos (by omega),
    Nat.add_sub_cancel_left, decide_eq_true hi, Bool.true_and]

@[simp] theorem idxOf_commandWord (b : BitVec 9) (a opc : Byte) : idxOf (commandWord b a opc) = b := by
  apply BitVec.eq_of_getLsbD_eq
  intro i hi
  rw [idxOf, BitVec.getLsbD_extractLsb', getLsbD_commandWord, if_neg (by omega), if_neg (by omega),
    Nat.add_sub_cancel_left, decide_eq_true hi, Bool.true_and]

@[simp] theorem rsvOf_commandWord (b : BitVec 9) (a opc : Byte) : rsvOf (commandWord b a opc) = 0 := by
  apply BitVec.eq_of_getLsbD_eq
  intro i hi
  rw [rsvOf, BitVec.getLsbD_extractLsb', getLsbD_commandWord, if_neg (by omega), if_neg (by omega),
    BitVec.getLsbD_of_ge _ _ (by omega), Bool.and_false]
  exact (BitVec.getLsbD_zero).symm

/-- The word index is the low 3 bits of the index field. -/
theorem wordIdxOf_eq (w : Word) : wordIdxOf w = (idxOf w).extractLsb' 0 3 := by
  apply BitVec.eq_of_getLsbD_eq
  intro i hi
  have h : i < 9 := by omega
  simp [wordIdxOf, idxOf, hi, h]

/-- The bits above the word index are the high 6 bits of the index field. -/
theorem idxHighOf_eq (w : Word) : idxHighOf w = (idxOf w).extractLsb' 3 6 := by
  apply BitVec.eq_of_getLsbD_eq
  intro i hi
  have h : 3 + i < 9 := by omega
  have h2 : 16 + (3 + i) = 19 + i := by omega
  simp [idxHighOf, idxOf, hi, h, h2]

@[simp] theorem wordIdxOf_commandWord (w : BitVec 3) (a opc : Byte) :
    wordIdxOf (commandWord (w.setWidth 9) a opc) = w := by
  rw [wordIdxOf_eq, idxOf_commandWord]
  apply BitVec.eq_of_getLsbD_eq
  intro i hi
  simp [hi]
  omega

@[simp] theorem idxHighOf_commandWord (w : BitVec 3) (a opc : Byte) :
    idxHighOf (commandWord (w.setWidth 9) a opc) = 0 := by
  rw [idxHighOf_eq, idxOf_commandWord]
  apply BitVec.eq_of_getLsbD_eq
  intro i hi
  simp [hi]

@[simp] theorem whenUnused_true (i : Instr) : whenUnused true i = .ok i := rfl

theorem whenUnused_eq_ok {u : Bool} {i j : Instr} (h : whenUnused u i = .ok j) : u = true ∧ i = j := by
  cases u
  · cases h
  · exact ⟨rfl, Except.ok.inj h⟩

/-- A word with RSV = 0 is the command word of its other fields. -/
theorem eq_commandWord {w : Word} (h : rsvOf w = 0) : w = commandWord (idxOf w) (symOf w) (opcOf w) := by
  apply BitVec.eq_of_getLsbD_eq
  intro i hi
  rw [getLsbD_commandWord]
  split
  · rw [opcOf, BitVec.getLsbD_extractLsb', Nat.zero_add]
    simp [*]
  · split
    · rw [symOf, BitVec.getLsbD_extractLsb', show 8 + (i - 8) = i by omega, decide_eq_true (by omega), Bool.true_and]
    · by_cases h3 : i < 25
      · rw [idxOf, BitVec.getLsbD_extractLsb', show 16 + (i - 16) = i by omega, decide_eq_true (by omega), Bool.true_and]
      · have := congrArg (fun v : BitVec 7 => v.getLsbD (i - 25)) h
        simp only [rsvOf, BitVec.getLsbD_extractLsb', show 25 + (i - 25) = i by omega] at this
        rw [decide_eq_true (by omega), Bool.true_and] at this
        rw [this, BitVec.getLsbD_of_ge _ (i - 16) (by omega)]
        exact BitVec.getLsbD_zero

/-! ### The match and mask table -/

/-- A word is its four fields (R75). -/
theorem eq_fields (w : Word) : w = (rsvOf w ++ idxOf w ++ symOf w ++ opcOf w : BitVec (7 + 9 + 8 + 8)) := by
  apply BitVec.eq_of_getLsbD_eq
  intro i hi
  rw [BitVec.getLsbD_append, BitVec.getLsbD_append, BitVec.getLsbD_append]
  simp only [opcOf, symOf, idxOf, rsvOf, BitVec.getLsbD_extractLsb']
  by_cases h1 : i < 8
  · simp [h1]
  · by_cases h2 : i < 16
    · rw [if_neg h1, if_pos (by omega), show 8 + (i - 8) = i by omega]
      simp
      omega
    · by_cases h3 : i < 25
      · rw [if_neg h1, if_neg (by omega), if_pos (by omega), show 16 + (i - 8 - 8) = i by omega]
        simp
        omega
      · rw [if_neg h1, if_neg (by omega), if_neg (by omega), show 25 + (i - 8 - 8 - 9) = i by omega]
        simp
        omega

theorem append_eq_append {n m : Nat} {a a' : BitVec n} {b b' : BitVec m} : a ++ b = a' ++ b' ↔ a = a' ∧ b = b' := by
  constructor
  · intro h
    constructor <;> apply BitVec.eq_of_getLsbD_eq <;> intro i hi
    · have := congrArg (fun v => v.getLsbD (m + i)) h
      simpa [BitVec.getLsbD_append] using this
    · have := congrArg (fun v => v.getLsbD i) h
      simpa [BitVec.getLsbD_append, hi] using this
  · rintro ⟨rfl, rfl⟩
    rfl

/-- Fitting a row of the match and mask table, field by field (R78). -/
theorem fits_fields (w : Word) (mr pr : BitVec 7) (mb pb : BitVec 9) (ma pa mo po : Byte) :
    CommandRow.fits ⟨(mr ++ mb ++ ma ++ mo : BitVec (7 + 9 + 8 + 8)),
      (pr ++ pb ++ pa ++ po : BitVec (7 + 9 + 8 + 8))⟩ w = true ↔
      rsvOf w &&& mr = pr ∧ idxOf w &&& mb = pb ∧ symOf w &&& ma = pa ∧ opcOf w &&& mo = po := by
  rw [CommandRow.fits, beq_iff_eq]
  conv => lhs; lhs; rw [eq_fields w]
  change (rsvOf w ++ idxOf w ++ symOf w ++ opcOf w) &&& (mr ++ mb ++ ma ++ mo) = pr ++ pb ++ pa ++ po ↔ _
  rw [BitVec.and_append, BitVec.and_append, BitVec.and_append, append_eq_append, append_eq_append, append_eq_append,
    and_assoc, and_assoc]

end Sys2Proof
end

