-- ==== Sys2Proof/Laws/State.lean ====
section
/-! SUPPORT. Each field of State after each update of it: one lemma a field, so that no proof unfolds an update. -/

namespace Sys2Proof.Machine

/-! ### State.finish -/

@[simp] theorem State.finish_arg (s : State) : (s.finish).arg = s.arg := rfl
@[simp] theorem State.finish_result0 (s : State) : (s.finish).result0 = s.result0 := rfl
@[simp] theorem State.finish_result1 (s : State) : (s.finish).result1 = s.result1 := rfl
@[simp] theorem State.finish_result2 (s : State) : (s.finish).result2 = s.result2 := rfl
@[simp] theorem State.finish_phase (s : State) : (s.finish).phase = s.phase := rfl
@[simp] theorem State.finish_pending (s : State) : (s.finish).pending = none := rfl
@[simp] theorem State.finish_errCode (s : State) : (s.finish).errCode = s.errCode := rfl
@[simp] theorem State.finish_errSrc (s : State) : (s.finish).errSrc = s.errSrc := rfl
@[simp] theorem State.finish_errWord (s : State) : (s.finish).errWord = s.errWord := rfl
@[simp] theorem State.finish_overrun (s : State) : (s.finish).overrun = s.overrun := rfl
@[simp] theorem State.finish_inbuf (s : State) : (s.finish).inbuf = s.inbuf := rfl
@[simp] theorem State.finish_inLen (s : State) : (s.finish).inLen = s.inLen := rfl
@[simp] theorem State.finish_outbuf (s : State) : (s.finish).outbuf = s.outbuf := rfl
@[simp] theorem State.finish_outLen (s : State) : (s.finish).outLen = s.outLen := rfl
@[simp] theorem State.finish_outRd (s : State) : (s.finish).outRd = s.outRd := rfl
@[simp] theorem State.finish_freq (s : State) : (s.finish).freq = s.freq := rfl
@[simp] theorem State.finish_nsym (s : State) : (s.finish).nsym = s.nsym := rfl
@[simp] theorem State.finish_arena (s : State) : (s.finish).arena = s.arena := rfl
@[simp] theorem State.finish_nodeCount (s : State) : (s.finish).nodeCount = s.nodeCount := rfl
@[simp] theorem State.finish_heap (s : State) : (s.finish).heap = s.heap := rfl
@[simp] theorem State.finish_pqSize (s : State) : (s.finish).pqSize = s.pqSize := rfl
@[simp] theorem State.finish_root (s : State) : (s.finish).root = s.root := rfl
@[simp] theorem State.finish_codeLen (s : State) : (s.finish).codeLen = s.codeLen := rfl
@[simp] theorem State.finish_codeBits (s : State) : (s.finish).codeBits = s.codeBits := rfl
@[simp] theorem State.finish_bitcnt (s : State) : (s.finish).bitcnt = s.bitcnt := rfl
@[simp] theorem State.finish_treeLen (s : State) : (s.finish).treeLen = s.treeLen := rfl
@[simp] theorem State.finish_params (s : State) : (s.finish).params = s.params := rfl
@[simp] theorem State.finish_agenda (s : State) : (s.finish).agenda = s.agenda := rfl
@[simp] theorem State.finish_reads (s : State) : (s.finish).reads = s.reads := rfl
@[simp] theorem State.finish_draws (s : State) : (s.finish).draws = s.draws := rfl
@[simp] theorem State.finish_freqAt (s : State) (k : Nat) : s.finish.freqAt k = s.freqAt k := rfl
@[simp] theorem State.finish_nodeAt (s : State) (n : NodeId) : s.finish.nodeAt n = s.nodeAt n := rfl
@[simp] theorem State.finish_codeLenAt (s : State) (k : Nat) : s.finish.codeLenAt k = s.codeLenAt k := rfl
@[simp] theorem State.finish_codeBitsAt (s : State) (k : Nat) : s.finish.codeBitsAt k = s.codeBitsAt k := rfl
@[simp] theorem State.finish_codeOf (s : State) (b : Byte) : s.finish.codeOf b = s.codeOf b := rfl
@[simp] theorem State.finish_inputBytes (s : State) : s.finish.inputBytes = s.inputBytes := rfl
@[simp] theorem State.finish_outputBytes (s : State) : s.finish.outputBytes = s.outputBytes := rfl

/-! ### State.observe -/

@[simp] theorem State.observe_arg (s : State) (v : Word) : (s.observe v).arg = s.arg := rfl
@[simp] theorem State.observe_result0 (s : State) (v : Word) : (s.observe v).result0 = s.result0 := rfl
@[simp] theorem State.observe_result1 (s : State) (v : Word) : (s.observe v).result1 = s.result1 := rfl
@[simp] theorem State.observe_result2 (s : State) (v : Word) : (s.observe v).result2 = s.result2 := rfl
@[simp] theorem State.observe_phase (s : State) (v : Word) : (s.observe v).phase = s.phase := rfl
@[simp] theorem State.observe_pending (s : State) (v : Word) : (s.observe v).pending = s.pending := rfl
@[simp] theorem State.observe_errCode (s : State) (v : Word) : (s.observe v).errCode = s.errCode := rfl
@[simp] theorem State.observe_errSrc (s : State) (v : Word) : (s.observe v).errSrc = s.errSrc := rfl
@[simp] theorem State.observe_errWord (s : State) (v : Word) : (s.observe v).errWord = s.errWord := rfl
@[simp] theorem State.observe_overrun (s : State) (v : Word) : (s.observe v).overrun = s.overrun := rfl
@[simp] theorem State.observe_inbuf (s : State) (v : Word) : (s.observe v).inbuf = s.inbuf := rfl
@[simp] theorem State.observe_inLen (s : State) (v : Word) : (s.observe v).inLen = s.inLen := rfl
@[simp] theorem State.observe_outbuf (s : State) (v : Word) : (s.observe v).outbuf = s.outbuf := rfl
@[simp] theorem State.observe_outLen (s : State) (v : Word) : (s.observe v).outLen = s.outLen := rfl
@[simp] theorem State.observe_outRd (s : State) (v : Word) : (s.observe v).outRd = s.outRd := rfl
@[simp] theorem State.observe_freq (s : State) (v : Word) : (s.observe v).freq = s.freq := rfl
@[simp] theorem State.observe_nsym (s : State) (v : Word) : (s.observe v).nsym = s.nsym := rfl
@[simp] theorem State.observe_arena (s : State) (v : Word) : (s.observe v).arena = s.arena := rfl
@[simp] theorem State.observe_nodeCount (s : State) (v : Word) : (s.observe v).nodeCount = s.nodeCount := rfl
@[simp] theorem State.observe_heap (s : State) (v : Word) : (s.observe v).heap = s.heap := rfl
@[simp] theorem State.observe_pqSize (s : State) (v : Word) : (s.observe v).pqSize = s.pqSize := rfl
@[simp] theorem State.observe_root (s : State) (v : Word) : (s.observe v).root = s.root := rfl
@[simp] theorem State.observe_codeLen (s : State) (v : Word) : (s.observe v).codeLen = s.codeLen := rfl
@[simp] theorem State.observe_codeBits (s : State) (v : Word) : (s.observe v).codeBits = s.codeBits := rfl
@[simp] theorem State.observe_bitcnt (s : State) (v : Word) : (s.observe v).bitcnt = s.bitcnt := rfl
@[simp] theorem State.observe_treeLen (s : State) (v : Word) : (s.observe v).treeLen = s.treeLen := rfl
@[simp] theorem State.observe_params (s : State) (v : Word) : (s.observe v).params = s.params := rfl
@[simp] theorem State.observe_agenda (s : State) (v : Word) : (s.observe v).agenda = s.agenda := rfl
@[simp] theorem State.observe_reads (s : State) (v : Word) : (s.observe v).reads = s.reads ++ [v] := rfl
@[simp] theorem State.observe_draws (s : State) (v : Word) : (s.observe v).draws = s.draws := rfl

/-! ### State.observeDraw -/

@[simp] theorem State.observeDraw_arg (s : State) : (s.observeDraw).arg = s.arg := rfl
@[simp] theorem State.observeDraw_result0 (s : State) : (s.observeDraw).result0 = s.result0 := rfl
@[simp] theorem State.observeDraw_result1 (s : State) : (s.observeDraw).result1 = s.result1 := rfl
@[simp] theorem State.observeDraw_result2 (s : State) : (s.observeDraw).result2 = s.result2 := rfl
@[simp] theorem State.observeDraw_phase (s : State) : (s.observeDraw).phase = s.phase := rfl
@[simp] theorem State.observeDraw_pending (s : State) : (s.observeDraw).pending = s.pending := rfl
@[simp] theorem State.observeDraw_errCode (s : State) : (s.observeDraw).errCode = s.errCode := rfl
@[simp] theorem State.observeDraw_errSrc (s : State) : (s.observeDraw).errSrc = s.errSrc := rfl
@[simp] theorem State.observeDraw_errWord (s : State) : (s.observeDraw).errWord = s.errWord := rfl
@[simp] theorem State.observeDraw_overrun (s : State) : (s.observeDraw).overrun = s.overrun := rfl
@[simp] theorem State.observeDraw_inbuf (s : State) : (s.observeDraw).inbuf = s.inbuf := rfl
@[simp] theorem State.observeDraw_inLen (s : State) : (s.observeDraw).inLen = s.inLen := rfl
@[simp] theorem State.observeDraw_outbuf (s : State) : (s.observeDraw).outbuf = s.outbuf := rfl
@[simp] theorem State.observeDraw_outLen (s : State) : (s.observeDraw).outLen = s.outLen := rfl
@[simp] theorem State.observeDraw_outRd (s : State) : (s.observeDraw).outRd = s.outRd := rfl
@[simp] theorem State.observeDraw_freq (s : State) : (s.observeDraw).freq = s.freq := rfl
@[simp] theorem State.observeDraw_nsym (s : State) : (s.observeDraw).nsym = s.nsym := rfl
@[simp] theorem State.observeDraw_arena (s : State) : (s.observeDraw).arena = s.arena := rfl
@[simp] theorem State.observeDraw_nodeCount (s : State) : (s.observeDraw).nodeCount = s.nodeCount := rfl
@[simp] theorem State.observeDraw_heap (s : State) : (s.observeDraw).heap = s.heap := rfl
@[simp] theorem State.observeDraw_pqSize (s : State) : (s.observeDraw).pqSize = s.pqSize := rfl
@[simp] theorem State.observeDraw_root (s : State) : (s.observeDraw).root = s.root := rfl
@[simp] theorem State.observeDraw_codeLen (s : State) : (s.observeDraw).codeLen = s.codeLen := rfl
@[simp] theorem State.observeDraw_codeBits (s : State) : (s.observeDraw).codeBits = s.codeBits := rfl
@[simp] theorem State.observeDraw_bitcnt (s : State) : (s.observeDraw).bitcnt = s.bitcnt := rfl
@[simp] theorem State.observeDraw_treeLen (s : State) : (s.observeDraw).treeLen = s.treeLen := rfl
@[simp] theorem State.observeDraw_params (s : State) : (s.observeDraw).params = s.params := rfl
@[simp] theorem State.observeDraw_agenda (s : State) : (s.observeDraw).agenda = s.agenda := rfl
@[simp] theorem State.observeDraw_reads (s : State) : (s.observeDraw).reads = s.reads ++ [Config.draw32 s.draws] := rfl
@[simp] theorem State.observeDraw_draws (s : State) : (s.observeDraw).draws = s.draws + 1 := rfl

/-! ### State.dropWrite -/

@[simp] theorem State.dropWrite_arg (s : State) : (s.dropWrite).arg = s.arg := rfl
@[simp] theorem State.dropWrite_result0 (s : State) : (s.dropWrite).result0 = s.result0 := rfl
@[simp] theorem State.dropWrite_result1 (s : State) : (s.dropWrite).result1 = s.result1 := rfl
@[simp] theorem State.dropWrite_result2 (s : State) : (s.dropWrite).result2 = s.result2 := rfl
@[simp] theorem State.dropWrite_phase (s : State) : (s.dropWrite).phase = s.phase := rfl
@[simp] theorem State.dropWrite_pending (s : State) : (s.dropWrite).pending = s.pending := rfl
@[simp] theorem State.dropWrite_errCode (s : State) : (s.dropWrite).errCode = s.errCode := rfl
@[simp] theorem State.dropWrite_errSrc (s : State) : (s.dropWrite).errSrc = s.errSrc := rfl
@[simp] theorem State.dropWrite_errWord (s : State) : (s.dropWrite).errWord = s.errWord := rfl
@[simp] theorem State.dropWrite_overrun (s : State) : (s.dropWrite).overrun = true := rfl
@[simp] theorem State.dropWrite_inbuf (s : State) : (s.dropWrite).inbuf = s.inbuf := rfl
@[simp] theorem State.dropWrite_inLen (s : State) : (s.dropWrite).inLen = s.inLen := rfl
@[simp] theorem State.dropWrite_outbuf (s : State) : (s.dropWrite).outbuf = s.outbuf := rfl
@[simp] theorem State.dropWrite_outLen (s : State) : (s.dropWrite).outLen = s.outLen := rfl
@[simp] theorem State.dropWrite_outRd (s : State) : (s.dropWrite).outRd = s.outRd := rfl
@[simp] theorem State.dropWrite_freq (s : State) : (s.dropWrite).freq = s.freq := rfl
@[simp] theorem State.dropWrite_nsym (s : State) : (s.dropWrite).nsym = s.nsym := rfl
@[simp] theorem State.dropWrite_arena (s : State) : (s.dropWrite).arena = s.arena := rfl
@[simp] theorem State.dropWrite_nodeCount (s : State) : (s.dropWrite).nodeCount = s.nodeCount := rfl
@[simp] theorem State.dropWrite_heap (s : State) : (s.dropWrite).heap = s.heap := rfl
@[simp] theorem State.dropWrite_pqSize (s : State) : (s.dropWrite).pqSize = s.pqSize := rfl
@[simp] theorem State.dropWrite_root (s : State) : (s.dropWrite).root = s.root := rfl
@[simp] theorem State.dropWrite_codeLen (s : State) : (s.dropWrite).codeLen = s.codeLen := rfl
@[simp] theorem State.dropWrite_codeBits (s : State) : (s.dropWrite).codeBits = s.codeBits := rfl
@[simp] theorem State.dropWrite_bitcnt (s : State) : (s.dropWrite).bitcnt = s.bitcnt := rfl
@[simp] theorem State.dropWrite_treeLen (s : State) : (s.dropWrite).treeLen = s.treeLen := rfl
@[simp] theorem State.dropWrite_params (s : State) : (s.dropWrite).params = s.params := rfl
@[simp] theorem State.dropWrite_agenda (s : State) : (s.dropWrite).agenda = s.agenda := rfl
@[simp] theorem State.dropWrite_reads (s : State) : (s.dropWrite).reads = s.reads := rfl
@[simp] theorem State.dropWrite_draws (s : State) : (s.dropWrite).draws = s.draws := rfl

/-! ### State.report -/

@[simp] theorem State.report_arg (s : State) (r0 r1 r2 : Word) : (s.report r0 r1 r2).arg = s.arg := rfl
@[simp] theorem State.report_result0 (s : State) (r0 r1 r2 : Word) : (s.report r0 r1 r2).result0 = r0 := rfl
@[simp] theorem State.report_result1 (s : State) (r0 r1 r2 : Word) : (s.report r0 r1 r2).result1 = r1 := rfl
@[simp] theorem State.report_result2 (s : State) (r0 r1 r2 : Word) : (s.report r0 r1 r2).result2 = r2 := rfl
@[simp] theorem State.report_phase (s : State) (r0 r1 r2 : Word) : (s.report r0 r1 r2).phase = s.phase := rfl
@[simp] theorem State.report_pending (s : State) (r0 r1 r2 : Word) : (s.report r0 r1 r2).pending = s.pending := rfl
@[simp] theorem State.report_errCode (s : State) (r0 r1 r2 : Word) : (s.report r0 r1 r2).errCode = s.errCode := rfl
@[simp] theorem State.report_errSrc (s : State) (r0 r1 r2 : Word) : (s.report r0 r1 r2).errSrc = s.errSrc := rfl
@[simp] theorem State.report_errWord (s : State) (r0 r1 r2 : Word) : (s.report r0 r1 r2).errWord = s.errWord := rfl
@[simp] theorem State.report_overrun (s : State) (r0 r1 r2 : Word) : (s.report r0 r1 r2).overrun = s.overrun := rfl
@[simp] theorem State.report_inbuf (s : State) (r0 r1 r2 : Word) : (s.report r0 r1 r2).inbuf = s.inbuf := rfl
@[simp] theorem State.report_inLen (s : State) (r0 r1 r2 : Word) : (s.report r0 r1 r2).inLen = s.inLen := rfl
@[simp] theorem State.report_outbuf (s : State) (r0 r1 r2 : Word) : (s.report r0 r1 r2).outbuf = s.outbuf := rfl
@[simp] theorem State.report_outLen (s : State) (r0 r1 r2 : Word) : (s.report r0 r1 r2).outLen = s.outLen := rfl
@[simp] theorem State.report_outRd (s : State) (r0 r1 r2 : Word) : (s.report r0 r1 r2).outRd = s.outRd := rfl
@[simp] theorem State.report_freq (s : State) (r0 r1 r2 : Word) : (s.report r0 r1 r2).freq = s.freq := rfl
@[simp] theorem State.report_nsym (s : State) (r0 r1 r2 : Word) : (s.report r0 r1 r2).nsym = s.nsym := rfl
@[simp] theorem State.report_arena (s : State) (r0 r1 r2 : Word) : (s.report r0 r1 r2).arena = s.arena := rfl
@[simp] theorem State.report_nodeCount (s : State) (r0 r1 r2 : Word) : (s.report r0 r1 r2).nodeCount = s.nodeCount := rfl
@[simp] theorem State.report_heap (s : State) (r0 r1 r2 : Word) : (s.report r0 r1 r2).heap = s.heap := rfl
@[simp] theorem State.report_pqSize (s : State) (r0 r1 r2 : Word) : (s.report r0 r1 r2).pqSize = s.pqSize := rfl
@[simp] theorem State.report_root (s : State) (r0 r1 r2 : Word) : (s.report r0 r1 r2).root = s.root := rfl
@[simp] theorem State.report_codeLen (s : State) (r0 r1 r2 : Word) : (s.report r0 r1 r2).codeLen = s.codeLen := rfl
@[simp] theorem State.report_codeBits (s : State) (r0 r1 r2 : Word) : (s.report r0 r1 r2).codeBits = s.codeBits := rfl
@[simp] theorem State.report_bitcnt (s : State) (r0 r1 r2 : Word) : (s.report r0 r1 r2).bitcnt = s.bitcnt := rfl
@[simp] theorem State.report_treeLen (s : State) (r0 r1 r2 : Word) : (s.report r0 r1 r2).treeLen = s.treeLen := rfl
@[simp] theorem State.report_params (s : State) (r0 r1 r2 : Word) : (s.report r0 r1 r2).params = s.params := rfl
@[simp] theorem State.report_agenda (s : State) (r0 r1 r2 : Word) : (s.report r0 r1 r2).agenda = s.agenda := rfl
@[simp] theorem State.report_reads (s : State) (r0 r1 r2 : Word) : (s.report r0 r1 r2).reads = s.reads := rfl
@[simp] theorem State.report_draws (s : State) (r0 r1 r2 : Word) : (s.report r0 r1 r2).draws = s.draws := rfl

/-! ### State.reportNode -/

@[simp] theorem State.reportNode_arg (s : State) (n : NodeId) : (s.reportNode n).arg = s.arg := rfl
@[simp] theorem State.reportNode_result0 (s : State) (n : NodeId) : (s.reportNode n).result0 = (s.nodeAt n).reportWord := rfl
@[simp] theorem State.reportNode_result1 (s : State) (n : NodeId) : (s.reportNode n).result1 = (s.nodeAt n).freq := rfl
@[simp] theorem State.reportNode_result2 (s : State) (n : NodeId) : (s.reportNode n).result2 = n.setWidth 32 := rfl
@[simp] theorem State.reportNode_phase (s : State) (n : NodeId) : (s.reportNode n).phase = s.phase := rfl
@[simp] theorem State.reportNode_pending (s : State) (n : NodeId) : (s.reportNode n).pending = s.pending := rfl
@[simp] theorem State.reportNode_errCode (s : State) (n : NodeId) : (s.reportNode n).errCode = s.errCode := rfl
@[simp] theorem State.reportNode_errSrc (s : State) (n : NodeId) : (s.reportNode n).errSrc = s.errSrc := rfl
@[simp] theorem State.reportNode_errWord (s : State) (n : NodeId) : (s.reportNode n).errWord = s.errWord := rfl
@[simp] theorem State.reportNode_overrun (s : State) (n : NodeId) : (s.reportNode n).overrun = s.overrun := rfl
@[simp] theorem State.reportNode_inbuf (s : State) (n : NodeId) : (s.reportNode n).inbuf = s.inbuf := rfl
@[simp] theorem State.reportNode_inLen (s : State) (n : NodeId) : (s.reportNode n).inLen = s.inLen := rfl
@[simp] theorem State.reportNode_outbuf (s : State) (n : NodeId) : (s.reportNode n).outbuf = s.outbuf := rfl
@[simp] theorem State.reportNode_outLen (s : State) (n : NodeId) : (s.reportNode n).outLen = s.outLen := rfl
@[simp] theorem State.reportNode_outRd (s : State) (n : NodeId) : (s.reportNode n).outRd = s.outRd := rfl
@[simp] theorem State.reportNode_freq (s : State) (n : NodeId) : (s.reportNode n).freq = s.freq := rfl
@[simp] theorem State.reportNode_nsym (s : State) (n : NodeId) : (s.reportNode n).nsym = s.nsym := rfl
@[simp] theorem State.reportNode_arena (s : State) (n : NodeId) : (s.reportNode n).arena = s.arena := rfl
@[simp] theorem State.reportNode_nodeCount (s : State) (n : NodeId) : (s.reportNode n).nodeCount = s.nodeCount := rfl
@[simp] theorem State.reportNode_heap (s : State) (n : NodeId) : (s.reportNode n).heap = s.heap := rfl
@[simp] theorem State.reportNode_pqSize (s : State) (n : NodeId) : (s.reportNode n).pqSize = s.pqSize := rfl
@[simp] theorem State.reportNode_root (s : State) (n : NodeId) : (s.reportNode n).root = s.root := rfl
@[simp] theorem State.reportNode_codeLen (s : State) (n : NodeId) : (s.reportNode n).codeLen = s.codeLen := rfl
@[simp] theorem State.reportNode_codeBits (s : State) (n : NodeId) : (s.reportNode n).codeBits = s.codeBits := rfl
@[simp] theorem State.reportNode_bitcnt (s : State) (n : NodeId) : (s.reportNode n).bitcnt = s.bitcnt := rfl
@[simp] theorem State.reportNode_treeLen (s : State) (n : NodeId) : (s.reportNode n).treeLen = s.treeLen := rfl
@[simp] theorem State.reportNode_params (s : State) (n : NodeId) : (s.reportNode n).params = s.params := rfl
@[simp] theorem State.reportNode_agenda (s : State) (n : NodeId) : (s.reportNode n).agenda = s.agenda := rfl
@[simp] theorem State.reportNode_reads (s : State) (n : NodeId) : (s.reportNode n).reads = s.reads := rfl
@[simp] theorem State.reportNode_draws (s : State) (n : NodeId) : (s.reportNode n).draws = s.draws := rfl

/-! ### State.reportInvalid -/

@[simp] theorem State.reportInvalid_arg (s : State) : (s.reportInvalid).arg = s.arg := rfl
@[simp] theorem State.reportInvalid_result0 (s : State) : (s.reportInvalid).result0 = 0 := rfl
@[simp] theorem State.reportInvalid_result1 (s : State) : (s.reportInvalid).result1 = 0 := rfl
@[simp] theorem State.reportInvalid_result2 (s : State) : (s.reportInvalid).result2 = 0x1FF := rfl
@[simp] theorem State.reportInvalid_phase (s : State) : (s.reportInvalid).phase = s.phase := rfl
@[simp] theorem State.reportInvalid_pending (s : State) : (s.reportInvalid).pending = s.pending := rfl
@[simp] theorem State.reportInvalid_errCode (s : State) : (s.reportInvalid).errCode = s.errCode := rfl
@[simp] theorem State.reportInvalid_errSrc (s : State) : (s.reportInvalid).errSrc = s.errSrc := rfl
@[simp] theorem State.reportInvalid_errWord (s : State) : (s.reportInvalid).errWord = s.errWord := rfl
@[simp] theorem State.reportInvalid_overrun (s : State) : (s.reportInvalid).overrun = s.overrun := rfl
@[simp] theorem State.reportInvalid_inbuf (s : State) : (s.reportInvalid).inbuf = s.inbuf := rfl
@[simp] theorem State.reportInvalid_inLen (s : State) : (s.reportInvalid).inLen = s.inLen := rfl
@[simp] theorem State.reportInvalid_outbuf (s : State) : (s.reportInvalid).outbuf = s.outbuf := rfl
@[simp] theorem State.reportInvalid_outLen (s : State) : (s.reportInvalid).outLen = s.outLen := rfl
@[simp] theorem State.reportInvalid_outRd (s : State) : (s.reportInvalid).outRd = s.outRd := rfl
@[simp] theorem State.reportInvalid_freq (s : State) : (s.reportInvalid).freq = s.freq := rfl
@[simp] theorem State.reportInvalid_nsym (s : State) : (s.reportInvalid).nsym = s.nsym := rfl
@[simp] theorem State.reportInvalid_arena (s : State) : (s.reportInvalid).arena = s.arena := rfl
@[simp] theorem State.reportInvalid_nodeCount (s : State) : (s.reportInvalid).nodeCount = s.nodeCount := rfl
@[simp] theorem State.reportInvalid_heap (s : State) : (s.reportInvalid).heap = s.heap := rfl
@[simp] theorem State.reportInvalid_pqSize (s : State) : (s.reportInvalid).pqSize = s.pqSize := rfl
@[simp] theorem State.reportInvalid_root (s : State) : (s.reportInvalid).root = s.root := rfl
@[simp] theorem State.reportInvalid_codeLen (s : State) : (s.reportInvalid).codeLen = s.codeLen := rfl
@[simp] theorem State.reportInvalid_codeBits (s : State) : (s.reportInvalid).codeBits = s.codeBits := rfl
@[simp] theorem State.reportInvalid_bitcnt (s : State) : (s.reportInvalid).bitcnt = s.bitcnt := rfl
@[simp] theorem State.reportInvalid_treeLen (s : State) : (s.reportInvalid).treeLen = s.treeLen := rfl
@[simp] theorem State.reportInvalid_params (s : State) : (s.reportInvalid).params = s.params := rfl
@[simp] theorem State.reportInvalid_agenda (s : State) : (s.reportInvalid).agenda = s.agenda := rfl
@[simp] theorem State.reportInvalid_reads (s : State) : (s.reportInvalid).reads = s.reads := rfl
@[simp] theorem State.reportInvalid_draws (s : State) : (s.reportInvalid).draws = s.draws := rfl

/-! ### State.reportFreq -/

@[simp] theorem State.reportFreq_arg (s : State) (sym : Byte) : (s.reportFreq sym).arg = s.arg := rfl
@[simp] theorem State.reportFreq_result0 (s : State) (sym : Byte) : (s.reportFreq sym).result0 = s.freqAt sym.toNat := rfl
@[simp] theorem State.reportFreq_result1 (s : State) (sym : Byte) : (s.reportFreq sym).result1 = 0 := rfl
@[simp] theorem State.reportFreq_result2 (s : State) (sym : Byte) : (s.reportFreq sym).result2 = 0 := rfl
@[simp] theorem State.reportFreq_phase (s : State) (sym : Byte) : (s.reportFreq sym).phase = s.phase := rfl
@[simp] theorem State.reportFreq_pending (s : State) (sym : Byte) : (s.reportFreq sym).pending = s.pending := rfl
@[simp] theorem State.reportFreq_errCode (s : State) (sym : Byte) : (s.reportFreq sym).errCode = s.errCode := rfl
@[simp] theorem State.reportFreq_errSrc (s : State) (sym : Byte) : (s.reportFreq sym).errSrc = s.errSrc := rfl
@[simp] theorem State.reportFreq_errWord (s : State) (sym : Byte) : (s.reportFreq sym).errWord = s.errWord := rfl
@[simp] theorem State.reportFreq_overrun (s : State) (sym : Byte) : (s.reportFreq sym).overrun = s.overrun := rfl
@[simp] theorem State.reportFreq_inbuf (s : State) (sym : Byte) : (s.reportFreq sym).inbuf = s.inbuf := rfl
@[simp] theorem State.reportFreq_inLen (s : State) (sym : Byte) : (s.reportFreq sym).inLen = s.inLen := rfl
@[simp] theorem State.reportFreq_outbuf (s : State) (sym : Byte) : (s.reportFreq sym).outbuf = s.outbuf := rfl
@[simp] theorem State.reportFreq_outLen (s : State) (sym : Byte) : (s.reportFreq sym).outLen = s.outLen := rfl
@[simp] theorem State.reportFreq_outRd (s : State) (sym : Byte) : (s.reportFreq sym).outRd = s.outRd := rfl
@[simp] theorem State.reportFreq_freq (s : State) (sym : Byte) : (s.reportFreq sym).freq = s.freq := rfl
@[simp] theorem State.reportFreq_nsym (s : State) (sym : Byte) : (s.reportFreq sym).nsym = s.nsym := rfl
@[simp] theorem State.reportFreq_arena (s : State) (sym : Byte) : (s.reportFreq sym).arena = s.arena := rfl
@[simp] theorem State.reportFreq_nodeCount (s : State) (sym : Byte) : (s.reportFreq sym).nodeCount = s.nodeCount := rfl
@[simp] theorem State.reportFreq_heap (s : State) (sym : Byte) : (s.reportFreq sym).heap = s.heap := rfl
@[simp] theorem State.reportFreq_pqSize (s : State) (sym : Byte) : (s.reportFreq sym).pqSize = s.pqSize := rfl
@[simp] theorem State.reportFreq_root (s : State) (sym : Byte) : (s.reportFreq sym).root = s.root := rfl
@[simp] theorem State.reportFreq_codeLen (s : State) (sym : Byte) : (s.reportFreq sym).codeLen = s.codeLen := rfl
@[simp] theorem State.reportFreq_codeBits (s : State) (sym : Byte) : (s.reportFreq sym).codeBits = s.codeBits := rfl
@[simp] theorem State.reportFreq_bitcnt (s : State) (sym : Byte) : (s.reportFreq sym).bitcnt = s.bitcnt := rfl
@[simp] theorem State.reportFreq_treeLen (s : State) (sym : Byte) : (s.reportFreq sym).treeLen = s.treeLen := rfl
@[simp] theorem State.reportFreq_params (s : State) (sym : Byte) : (s.reportFreq sym).params = s.params := rfl
@[simp] theorem State.reportFreq_agenda (s : State) (sym : Byte) : (s.reportFreq sym).agenda = s.agenda := rfl
@[simp] theorem State.reportFreq_reads (s : State) (sym : Byte) : (s.reportFreq sym).reads = s.reads := rfl
@[simp] theorem State.reportFreq_draws (s : State) (sym : Byte) : (s.reportFreq sym).draws = s.draws := rfl

/-! ### State.reportCode -/

@[simp] theorem State.reportCode_arg (s : State) (sym : Byte) (w : BitVec 3) : (s.reportCode sym w).arg = s.arg := rfl
@[simp] theorem State.reportCode_result0 (s : State) (sym : Byte) (w : BitVec 3) : (s.reportCode sym w).result0 = (s.codeLenAt sym.toNat).setWidth 32 := rfl
@[simp] theorem State.reportCode_result1 (s : State) (sym : Byte) (w : BitVec 3) : (s.reportCode sym w).result1 = codeWord (s.codeOf sym) w.toNat := rfl
@[simp] theorem State.reportCode_result2 (s : State) (sym : Byte) (w : BitVec 3) : (s.reportCode sym w).result2 = 0 := rfl
@[simp] theorem State.reportCode_phase (s : State) (sym : Byte) (w : BitVec 3) : (s.reportCode sym w).phase = s.phase := rfl
@[simp] theorem State.reportCode_pending (s : State) (sym : Byte) (w : BitVec 3) : (s.reportCode sym w).pending = s.pending := rfl
@[simp] theorem State.reportCode_errCode (s : State) (sym : Byte) (w : BitVec 3) : (s.reportCode sym w).errCode = s.errCode := rfl
@[simp] theorem State.reportCode_errSrc (s : State) (sym : Byte) (w : BitVec 3) : (s.reportCode sym w).errSrc = s.errSrc := rfl
@[simp] theorem State.reportCode_errWord (s : State) (sym : Byte) (w : BitVec 3) : (s.reportCode sym w).errWord = s.errWord := rfl
@[simp] theorem State.reportCode_overrun (s : State) (sym : Byte) (w : BitVec 3) : (s.reportCode sym w).overrun = s.overrun := rfl
@[simp] theorem State.reportCode_inbuf (s : State) (sym : Byte) (w : BitVec 3) : (s.reportCode sym w).inbuf = s.inbuf := rfl
@[simp] theorem State.reportCode_inLen (s : State) (sym : Byte) (w : BitVec 3) : (s.reportCode sym w).inLen = s.inLen := rfl
@[simp] theorem State.reportCode_outbuf (s : State) (sym : Byte) (w : BitVec 3) : (s.reportCode sym w).outbuf = s.outbuf := rfl
@[simp] theorem State.reportCode_outLen (s : State) (sym : Byte) (w : BitVec 3) : (s.reportCode sym w).outLen = s.outLen := rfl
@[simp] theorem State.reportCode_outRd (s : State) (sym : Byte) (w : BitVec 3) : (s.reportCode sym w).outRd = s.outRd := rfl
@[simp] theorem State.reportCode_freq (s : State) (sym : Byte) (w : BitVec 3) : (s.reportCode sym w).freq = s.freq := rfl
@[simp] theorem State.reportCode_nsym (s : State) (sym : Byte) (w : BitVec 3) : (s.reportCode sym w).nsym = s.nsym := rfl
@[simp] theorem State.reportCode_arena (s : State) (sym : Byte) (w : BitVec 3) : (s.reportCode sym w).arena = s.arena := rfl
@[simp] theorem State.reportCode_nodeCount (s : State) (sym : Byte) (w : BitVec 3) : (s.reportCode sym w).nodeCount = s.nodeCount := rfl
@[simp] theorem State.reportCode_heap (s : State) (sym : Byte) (w : BitVec 3) : (s.reportCode sym w).heap = s.heap := rfl
@[simp] theorem State.reportCode_pqSize (s : State) (sym : Byte) (w : BitVec 3) : (s.reportCode sym w).pqSize = s.pqSize := rfl
@[simp] theorem State.reportCode_root (s : State) (sym : Byte) (w : BitVec 3) : (s.reportCode sym w).root = s.root := rfl
@[simp] theorem State.reportCode_codeLen (s : State) (sym : Byte) (w : BitVec 3) : (s.reportCode sym w).codeLen = s.codeLen := rfl
@[simp] theorem State.reportCode_codeBits (s : State) (sym : Byte) (w : BitVec 3) : (s.reportCode sym w).codeBits = s.codeBits := rfl
@[simp] theorem State.reportCode_bitcnt (s : State) (sym : Byte) (w : BitVec 3) : (s.reportCode sym w).bitcnt = s.bitcnt := rfl
@[simp] theorem State.reportCode_treeLen (s : State) (sym : Byte) (w : BitVec 3) : (s.reportCode sym w).treeLen = s.treeLen := rfl
@[simp] theorem State.reportCode_params (s : State) (sym : Byte) (w : BitVec 3) : (s.reportCode sym w).params = s.params := rfl
@[simp] theorem State.reportCode_agenda (s : State) (sym : Byte) (w : BitVec 3) : (s.reportCode sym w).agenda = s.agenda := rfl
@[simp] theorem State.reportCode_reads (s : State) (sym : Byte) (w : BitVec 3) : (s.reportCode sym w).reads = s.reads := rfl
@[simp] theorem State.reportCode_draws (s : State) (sym : Byte) (w : BitVec 3) : (s.reportCode sym w).draws = s.draws := rfl

/-! ### State.appendInput -/

@[simp] theorem State.appendInput_arg (s : State) (b : Byte) : (s.appendInput b).arg = s.arg := rfl
@[simp] theorem State.appendInput_result0 (s : State) (b : Byte) : (s.appendInput b).result0 = s.result0 := rfl
@[simp] theorem State.appendInput_result1 (s : State) (b : Byte) : (s.appendInput b).result1 = s.result1 := rfl
@[simp] theorem State.appendInput_result2 (s : State) (b : Byte) : (s.appendInput b).result2 = s.result2 := rfl
@[simp] theorem State.appendInput_phase (s : State) (b : Byte) : (s.appendInput b).phase = s.phase := rfl
@[simp] theorem State.appendInput_pending (s : State) (b : Byte) : (s.appendInput b).pending = s.pending := rfl
@[simp] theorem State.appendInput_errCode (s : State) (b : Byte) : (s.appendInput b).errCode = s.errCode := rfl
@[simp] theorem State.appendInput_errSrc (s : State) (b : Byte) : (s.appendInput b).errSrc = s.errSrc := rfl
@[simp] theorem State.appendInput_errWord (s : State) (b : Byte) : (s.appendInput b).errWord = s.errWord := rfl
@[simp] theorem State.appendInput_overrun (s : State) (b : Byte) : (s.appendInput b).overrun = s.overrun := rfl
@[simp] theorem State.appendInput_inbuf (s : State) (b : Byte) : (s.appendInput b).inbuf = s.inbuf.write s.inLen.toNat b := rfl
@[simp] theorem State.appendInput_inLen (s : State) (b : Byte) : (s.appendInput b).inLen = s.inLen + 1 := rfl
@[simp] theorem State.appendInput_outbuf (s : State) (b : Byte) : (s.appendInput b).outbuf = s.outbuf := rfl
@[simp] theorem State.appendInput_outLen (s : State) (b : Byte) : (s.appendInput b).outLen = s.outLen := rfl
@[simp] theorem State.appendInput_outRd (s : State) (b : Byte) : (s.appendInput b).outRd = s.outRd := rfl
@[simp] theorem State.appendInput_freq (s : State) (b : Byte) : (s.appendInput b).freq = s.freq := rfl
@[simp] theorem State.appendInput_nsym (s : State) (b : Byte) : (s.appendInput b).nsym = s.nsym := rfl
@[simp] theorem State.appendInput_arena (s : State) (b : Byte) : (s.appendInput b).arena = s.arena := rfl
@[simp] theorem State.appendInput_nodeCount (s : State) (b : Byte) : (s.appendInput b).nodeCount = s.nodeCount := rfl
@[simp] theorem State.appendInput_heap (s : State) (b : Byte) : (s.appendInput b).heap = s.heap := rfl
@[simp] theorem State.appendInput_pqSize (s : State) (b : Byte) : (s.appendInput b).pqSize = s.pqSize := rfl
@[simp] theorem State.appendInput_root (s : State) (b : Byte) : (s.appendInput b).root = s.root := rfl
@[simp] theorem State.appendInput_codeLen (s : State) (b : Byte) : (s.appendInput b).codeLen = s.codeLen := rfl
@[simp] theorem State.appendInput_codeBits (s : State) (b : Byte) : (s.appendInput b).codeBits = s.codeBits := rfl
@[simp] theorem State.appendInput_bitcnt (s : State) (b : Byte) : (s.appendInput b).bitcnt = s.bitcnt := rfl
@[simp] theorem State.appendInput_treeLen (s : State) (b : Byte) : (s.appendInput b).treeLen = s.treeLen := rfl
@[simp] theorem State.appendInput_params (s : State) (b : Byte) : (s.appendInput b).params = s.params := rfl
@[simp] theorem State.appendInput_agenda (s : State) (b : Byte) : (s.appendInput b).agenda = s.agenda := rfl
@[simp] theorem State.appendInput_reads (s : State) (b : Byte) : (s.appendInput b).reads = s.reads := rfl
@[simp] theorem State.appendInput_draws (s : State) (b : Byte) : (s.appendInput b).draws = s.draws := rfl

/-! ### State.cleared -/

@[simp] theorem State.cleared_arg (s : State) : (s.cleared).arg = 0#32 := rfl
@[simp] theorem State.cleared_result0 (s : State) : (s.cleared).result0 = 0#32 := rfl
@[simp] theorem State.cleared_result1 (s : State) : (s.cleared).result1 = 0#32 := rfl
@[simp] theorem State.cleared_result2 (s : State) : (s.cleared).result2 = 0#32 := rfl
@[simp] theorem State.cleared_phase (s : State) : (s.cleared).phase = .idle := rfl
@[simp] theorem State.cleared_pending (s : State) : (s.cleared).pending = none := rfl
@[simp] theorem State.cleared_errCode (s : State) : (s.cleared).errCode = 0#4 := rfl
@[simp] theorem State.cleared_errSrc (s : State) : (s.cleared).errSrc = false := rfl
@[simp] theorem State.cleared_errWord (s : State) : (s.cleared).errWord = 0#32 := rfl
@[simp] theorem State.cleared_overrun (s : State) : (s.cleared).overrun = false := rfl
@[simp] theorem State.cleared_inbuf (s : State) : (s.cleared).inbuf = [] := rfl
@[simp] theorem State.cleared_inLen (s : State) : (s.cleared).inLen = 0#32 := rfl
@[simp] theorem State.cleared_outbuf (s : State) : (s.cleared).outbuf = [] := rfl
@[simp] theorem State.cleared_outLen (s : State) : (s.cleared).outLen = 0#32 := rfl
@[simp] theorem State.cleared_outRd (s : State) : (s.cleared).outRd = 0#32 := rfl
@[simp] theorem State.cleared_freq (s : State) : (s.cleared).freq = [] := rfl
@[simp] theorem State.cleared_nsym (s : State) : (s.cleared).nsym = 0#9 := rfl
@[simp] theorem State.cleared_arena (s : State) : (s.cleared).arena = [] := rfl
@[simp] theorem State.cleared_nodeCount (s : State) : (s.cleared).nodeCount = 0#10 := rfl
@[simp] theorem State.cleared_heap (s : State) : (s.cleared).heap = [] := rfl
@[simp] theorem State.cleared_pqSize (s : State) : (s.cleared).pqSize = 0#9 := rfl
@[simp] theorem State.cleared_root (s : State) : (s.cleared).root = Config.noNode := rfl
@[simp] theorem State.cleared_codeLen (s : State) : (s.cleared).codeLen = [] := rfl
@[simp] theorem State.cleared_codeBits (s : State) : (s.cleared).codeBits = [] := rfl
@[simp] theorem State.cleared_bitcnt (s : State) : (s.cleared).bitcnt = 0#64 := rfl
@[simp] theorem State.cleared_treeLen (s : State) : (s.cleared).treeLen = 0#32 := rfl
@[simp] theorem State.cleared_params (s : State) : (s.cleared).params = s.params := rfl
@[simp] theorem State.cleared_agenda (s : State) : (s.cleared).agenda = s.agenda := rfl
@[simp] theorem State.cleared_reads (s : State) : (s.cleared).reads = s.reads := rfl
@[simp] theorem State.cleared_draws (s : State) : (s.cleared).draws = s.draws := rfl

/-! ### allocate -/

@[simp] theorem allocate_arg (s : State) (nd : Node) : (allocate nd s).arg = s.arg := rfl
@[simp] theorem allocate_result0 (s : State) (nd : Node) : (allocate nd s).result0 = s.result0 := rfl
@[simp] theorem allocate_result1 (s : State) (nd : Node) : (allocate nd s).result1 = s.result1 := rfl
@[simp] theorem allocate_result2 (s : State) (nd : Node) : (allocate nd s).result2 = s.result2 := rfl
@[simp] theorem allocate_phase (s : State) (nd : Node) : (allocate nd s).phase = s.phase := rfl
@[simp] theorem allocate_pending (s : State) (nd : Node) : (allocate nd s).pending = s.pending := rfl
@[simp] theorem allocate_errCode (s : State) (nd : Node) : (allocate nd s).errCode = s.errCode := rfl
@[simp] theorem allocate_errSrc (s : State) (nd : Node) : (allocate nd s).errSrc = s.errSrc := rfl
@[simp] theorem allocate_errWord (s : State) (nd : Node) : (allocate nd s).errWord = s.errWord := rfl
@[simp] theorem allocate_overrun (s : State) (nd : Node) : (allocate nd s).overrun = s.overrun := rfl
@[simp] theorem allocate_inbuf (s : State) (nd : Node) : (allocate nd s).inbuf = s.inbuf := rfl
@[simp] theorem allocate_inLen (s : State) (nd : Node) : (allocate nd s).inLen = s.inLen := rfl
@[simp] theorem allocate_outbuf (s : State) (nd : Node) : (allocate nd s).outbuf = s.outbuf := rfl
@[simp] theorem allocate_outLen (s : State) (nd : Node) : (allocate nd s).outLen = s.outLen := rfl
@[simp] theorem allocate_outRd (s : State) (nd : Node) : (allocate nd s).outRd = s.outRd := rfl
@[simp] theorem allocate_freq (s : State) (nd : Node) : (allocate nd s).freq = s.freq := rfl
@[simp] theorem allocate_nsym (s : State) (nd : Node) : (allocate nd s).nsym = s.nsym := rfl
@[simp] theorem allocate_arena (s : State) (nd : Node) : (allocate nd s).arena = Table.set Node.blank s.arena s.nextId.toNat nd := rfl
@[simp] theorem allocate_nodeCount (s : State) (nd : Node) : (allocate nd s).nodeCount = s.nodeCount + 1 := rfl
@[simp] theorem allocate_heap (s : State) (nd : Node) : (allocate nd s).heap = s.heap := rfl
@[simp] theorem allocate_pqSize (s : State) (nd : Node) : (allocate nd s).pqSize = s.pqSize := rfl
@[simp] theorem allocate_root (s : State) (nd : Node) : (allocate nd s).root = s.root := rfl
@[simp] theorem allocate_codeLen (s : State) (nd : Node) : (allocate nd s).codeLen = s.codeLen := rfl
@[simp] theorem allocate_codeBits (s : State) (nd : Node) : (allocate nd s).codeBits = s.codeBits := rfl
@[simp] theorem allocate_bitcnt (s : State) (nd : Node) : (allocate nd s).bitcnt = s.bitcnt := rfl
@[simp] theorem allocate_treeLen (s : State) (nd : Node) : (allocate nd s).treeLen = s.treeLen := rfl
@[simp] theorem allocate_params (s : State) (nd : Node) : (allocate nd s).params = s.params := rfl
@[simp] theorem allocate_agenda (s : State) (nd : Node) : (allocate nd s).agenda = s.agenda := rfl
@[simp] theorem allocate_reads (s : State) (nd : Node) : (allocate nd s).reads = s.reads := rfl
@[simp] theorem allocate_draws (s : State) (nd : Node) : (allocate nd s).draws = s.draws := rfl

/-! ### enqueue -/

@[simp] theorem enqueue_arg (s : State) (n : NodeId) : (enqueue n s).arg = s.arg := rfl
@[simp] theorem enqueue_result0 (s : State) (n : NodeId) : (enqueue n s).result0 = s.result0 := rfl
@[simp] theorem enqueue_result1 (s : State) (n : NodeId) : (enqueue n s).result1 = s.result1 := rfl
@[simp] theorem enqueue_result2 (s : State) (n : NodeId) : (enqueue n s).result2 = s.result2 := rfl
@[simp] theorem enqueue_phase (s : State) (n : NodeId) : (enqueue n s).phase = s.phase := rfl
@[simp] theorem enqueue_pending (s : State) (n : NodeId) : (enqueue n s).pending = s.pending := rfl
@[simp] theorem enqueue_errCode (s : State) (n : NodeId) : (enqueue n s).errCode = s.errCode := rfl
@[simp] theorem enqueue_errSrc (s : State) (n : NodeId) : (enqueue n s).errSrc = s.errSrc := rfl
@[simp] theorem enqueue_errWord (s : State) (n : NodeId) : (enqueue n s).errWord = s.errWord := rfl
@[simp] theorem enqueue_overrun (s : State) (n : NodeId) : (enqueue n s).overrun = s.overrun := rfl
@[simp] theorem enqueue_inbuf (s : State) (n : NodeId) : (enqueue n s).inbuf = s.inbuf := rfl
@[simp] theorem enqueue_inLen (s : State) (n : NodeId) : (enqueue n s).inLen = s.inLen := rfl
@[simp] theorem enqueue_outbuf (s : State) (n : NodeId) : (enqueue n s).outbuf = s.outbuf := rfl
@[simp] theorem enqueue_outLen (s : State) (n : NodeId) : (enqueue n s).outLen = s.outLen := rfl
@[simp] theorem enqueue_outRd (s : State) (n : NodeId) : (enqueue n s).outRd = s.outRd := rfl
@[simp] theorem enqueue_freq (s : State) (n : NodeId) : (enqueue n s).freq = s.freq := rfl
@[simp] theorem enqueue_nsym (s : State) (n : NodeId) : (enqueue n s).nsym = s.nsym := rfl
@[simp] theorem enqueue_arena (s : State) (n : NodeId) : (enqueue n s).arena = s.arena := rfl
@[simp] theorem enqueue_nodeCount (s : State) (n : NodeId) : (enqueue n s).nodeCount = s.nodeCount := rfl
@[simp] theorem enqueue_heap (s : State) (n : NodeId) : (enqueue n s).heap = 
    siftUp s.arena (s.pqSize + 1).toNat (Table.set 0 s.heap (s.pqSize + 1).toNat n) (s.pqSize + 1).toNat := rfl
@[simp] theorem enqueue_pqSize (s : State) (n : NodeId) : (enqueue n s).pqSize = s.pqSize + 1 := rfl
@[simp] theorem enqueue_root (s : State) (n : NodeId) : (enqueue n s).root = s.root := rfl
@[simp] theorem enqueue_codeLen (s : State) (n : NodeId) : (enqueue n s).codeLen = s.codeLen := rfl
@[simp] theorem enqueue_codeBits (s : State) (n : NodeId) : (enqueue n s).codeBits = s.codeBits := rfl
@[simp] theorem enqueue_bitcnt (s : State) (n : NodeId) : (enqueue n s).bitcnt = s.bitcnt := rfl
@[simp] theorem enqueue_treeLen (s : State) (n : NodeId) : (enqueue n s).treeLen = s.treeLen := rfl
@[simp] theorem enqueue_params (s : State) (n : NodeId) : (enqueue n s).params = s.params := rfl
@[simp] theorem enqueue_agenda (s : State) (n : NodeId) : (enqueue n s).agenda = s.agenda := rfl
@[simp] theorem enqueue_reads (s : State) (n : NodeId) : (enqueue n s).reads = s.reads := rfl
@[simp] theorem enqueue_draws (s : State) (n : NodeId) : (enqueue n s).draws = s.draws := rfl

/-! ### addNode -/

@[simp] theorem addNode_arg (s : State) (nd : Node) : (addNode nd s).arg = s.arg := rfl
@[simp] theorem addNode_result0 (s : State) (nd : Node) : (addNode nd s).result0 = s.result0 := rfl
@[simp] theorem addNode_result1 (s : State) (nd : Node) : (addNode nd s).result1 = s.result1 := rfl
@[simp] theorem addNode_result2 (s : State) (nd : Node) : (addNode nd s).result2 = s.result2 := rfl
@[simp] theorem addNode_phase (s : State) (nd : Node) : (addNode nd s).phase = s.phase := rfl
@[simp] theorem addNode_pending (s : State) (nd : Node) : (addNode nd s).pending = s.pending := rfl
@[simp] theorem addNode_errCode (s : State) (nd : Node) : (addNode nd s).errCode = s.errCode := rfl
@[simp] theorem addNode_errSrc (s : State) (nd : Node) : (addNode nd s).errSrc = s.errSrc := rfl
@[simp] theorem addNode_errWord (s : State) (nd : Node) : (addNode nd s).errWord = s.errWord := rfl
@[simp] theorem addNode_overrun (s : State) (nd : Node) : (addNode nd s).overrun = s.overrun := rfl
@[simp] theorem addNode_inbuf (s : State) (nd : Node) : (addNode nd s).inbuf = s.inbuf := rfl
@[simp] theorem addNode_inLen (s : State) (nd : Node) : (addNode nd s).inLen = s.inLen := rfl
@[simp] theorem addNode_outbuf (s : State) (nd : Node) : (addNode nd s).outbuf = s.outbuf := rfl
@[simp] theorem addNode_outLen (s : State) (nd : Node) : (addNode nd s).outLen = s.outLen := rfl
@[simp] theorem addNode_outRd (s : State) (nd : Node) : (addNode nd s).outRd = s.outRd := rfl
@[simp] theorem addNode_freq (s : State) (nd : Node) : (addNode nd s).freq = s.freq := rfl
@[simp] theorem addNode_nsym (s : State) (nd : Node) : (addNode nd s).nsym = s.nsym := rfl
@[simp] theorem addNode_arena (s : State) (nd : Node) : (addNode nd s).arena = Table.set Node.blank s.arena s.nextId.toNat nd := rfl
@[simp] theorem addNode_nodeCount (s : State) (nd : Node) : (addNode nd s).nodeCount = s.nodeCount + 1 := rfl
@[simp] theorem addNode_pqSize (s : State) (nd : Node) : (addNode nd s).pqSize = s.pqSize + 1 := rfl
@[simp] theorem addNode_root (s : State) (nd : Node) : (addNode nd s).root = s.root := rfl
@[simp] theorem addNode_codeLen (s : State) (nd : Node) : (addNode nd s).codeLen = s.codeLen := rfl
@[simp] theorem addNode_codeBits (s : State) (nd : Node) : (addNode nd s).codeBits = s.codeBits := rfl
@[simp] theorem addNode_bitcnt (s : State) (nd : Node) : (addNode nd s).bitcnt = s.bitcnt := rfl
@[simp] theorem addNode_treeLen (s : State) (nd : Node) : (addNode nd s).treeLen = s.treeLen := rfl
@[simp] theorem addNode_params (s : State) (nd : Node) : (addNode nd s).params = s.params := rfl
@[simp] theorem addNode_agenda (s : State) (nd : Node) : (addNode nd s).agenda = s.agenda := rfl
@[simp] theorem addNode_reads (s : State) (nd : Node) : (addNode nd s).reads = s.reads := rfl
@[simp] theorem addNode_draws (s : State) (nd : Node) : (addNode nd s).draws = s.draws := rfl

/-! ### State.emptyQueue -/

@[simp] theorem State.emptyQueue_arg (s : State) : (s.emptyQueue).arg = s.arg := rfl
@[simp] theorem State.emptyQueue_result0 (s : State) : (s.emptyQueue).result0 = s.result0 := rfl
@[simp] theorem State.emptyQueue_result1 (s : State) : (s.emptyQueue).result1 = s.result1 := rfl
@[simp] theorem State.emptyQueue_result2 (s : State) : (s.emptyQueue).result2 = s.result2 := rfl
@[simp] theorem State.emptyQueue_phase (s : State) : (s.emptyQueue).phase = s.phase := rfl
@[simp] theorem State.emptyQueue_pending (s : State) : (s.emptyQueue).pending = s.pending := rfl
@[simp] theorem State.emptyQueue_errCode (s : State) : (s.emptyQueue).errCode = s.errCode := rfl
@[simp] theorem State.emptyQueue_errSrc (s : State) : (s.emptyQueue).errSrc = s.errSrc := rfl
@[simp] theorem State.emptyQueue_errWord (s : State) : (s.emptyQueue).errWord = s.errWord := rfl
@[simp] theorem State.emptyQueue_overrun (s : State) : (s.emptyQueue).overrun = s.overrun := rfl
@[simp] theorem State.emptyQueue_inbuf (s : State) : (s.emptyQueue).inbuf = s.inbuf := rfl
@[simp] theorem State.emptyQueue_inLen (s : State) : (s.emptyQueue).inLen = s.inLen := rfl
@[simp] theorem State.emptyQueue_outbuf (s : State) : (s.emptyQueue).outbuf = s.outbuf := rfl
@[simp] theorem State.emptyQueue_outLen (s : State) : (s.emptyQueue).outLen = s.outLen := rfl
@[simp] theorem State.emptyQueue_outRd (s : State) : (s.emptyQueue).outRd = s.outRd := rfl
@[simp] theorem State.emptyQueue_freq (s : State) : (s.emptyQueue).freq = s.freq := rfl
@[simp] theorem State.emptyQueue_nsym (s : State) : (s.emptyQueue).nsym = s.nsym := rfl
@[simp] theorem State.emptyQueue_arena (s : State) : (s.emptyQueue).arena = s.arena := rfl
@[simp] theorem State.emptyQueue_nodeCount (s : State) : (s.emptyQueue).nodeCount = 0 := rfl
@[simp] theorem State.emptyQueue_heap (s : State) : (s.emptyQueue).heap = s.heap := rfl
@[simp] theorem State.emptyQueue_pqSize (s : State) : (s.emptyQueue).pqSize = 0 := rfl
@[simp] theorem State.emptyQueue_root (s : State) : (s.emptyQueue).root = s.root := rfl
@[simp] theorem State.emptyQueue_codeLen (s : State) : (s.emptyQueue).codeLen = s.codeLen := rfl
@[simp] theorem State.emptyQueue_codeBits (s : State) : (s.emptyQueue).codeBits = s.codeBits := rfl
@[simp] theorem State.emptyQueue_bitcnt (s : State) : (s.emptyQueue).bitcnt = s.bitcnt := rfl
@[simp] theorem State.emptyQueue_treeLen (s : State) : (s.emptyQueue).treeLen = s.treeLen := rfl
@[simp] theorem State.emptyQueue_params (s : State) : (s.emptyQueue).params = s.params := rfl
@[simp] theorem State.emptyQueue_agenda (s : State) : (s.emptyQueue).agenda = s.agenda := rfl
@[simp] theorem State.emptyQueue_reads (s : State) : (s.emptyQueue).reads = s.reads := rfl
@[simp] theorem State.emptyQueue_draws (s : State) : (s.emptyQueue).draws = s.draws := rfl

/-! ### State.counted -/

@[simp] theorem State.counted_arg (s : State) : (s.counted).arg = s.arg := rfl
@[simp] theorem State.counted_result0 (s : State) : (s.counted).result0 = s.result0 := rfl
@[simp] theorem State.counted_result1 (s : State) : (s.counted).result1 = s.result1 := rfl
@[simp] theorem State.counted_result2 (s : State) : (s.counted).result2 = s.result2 := rfl
@[simp] theorem State.counted_phase (s : State) : (s.counted).phase = s.phase := rfl
@[simp] theorem State.counted_pending (s : State) : (s.counted).pending = s.pending := rfl
@[simp] theorem State.counted_errCode (s : State) : (s.counted).errCode = s.errCode := rfl
@[simp] theorem State.counted_errSrc (s : State) : (s.counted).errSrc = s.errSrc := rfl
@[simp] theorem State.counted_errWord (s : State) : (s.counted).errWord = s.errWord := rfl
@[simp] theorem State.counted_overrun (s : State) : (s.counted).overrun = s.overrun := rfl
@[simp] theorem State.counted_inbuf (s : State) : (s.counted).inbuf = s.inbuf := rfl
@[simp] theorem State.counted_inLen (s : State) : (s.counted).inLen = s.inLen := rfl
@[simp] theorem State.counted_outbuf (s : State) : (s.counted).outbuf = s.outbuf := rfl
@[simp] theorem State.counted_outLen (s : State) : (s.counted).outLen = s.outLen := rfl
@[simp] theorem State.counted_outRd (s : State) : (s.counted).outRd = s.outRd := rfl
@[simp] theorem State.counted_freq (s : State) : (s.counted).freq = countBytes s.inputBytes := rfl
@[simp] theorem State.counted_nsym (s : State) : (s.counted).nsym = 
    BitVec.ofNat 9 (participants (countBytes s.inputBytes)).length := rfl
@[simp] theorem State.counted_arena (s : State) : (s.counted).arena = s.arena := rfl
@[simp] theorem State.counted_nodeCount (s : State) : (s.counted).nodeCount = s.nodeCount := rfl
@[simp] theorem State.counted_heap (s : State) : (s.counted).heap = s.heap := rfl
@[simp] theorem State.counted_pqSize (s : State) : (s.counted).pqSize = s.pqSize := rfl
@[simp] theorem State.counted_root (s : State) : (s.counted).root = s.root := rfl
@[simp] theorem State.counted_codeLen (s : State) : (s.counted).codeLen = s.codeLen := rfl
@[simp] theorem State.counted_codeBits (s : State) : (s.counted).codeBits = s.codeBits := rfl
@[simp] theorem State.counted_bitcnt (s : State) : (s.counted).bitcnt = s.bitcnt := rfl
@[simp] theorem State.counted_treeLen (s : State) : (s.counted).treeLen = s.treeLen := rfl
@[simp] theorem State.counted_params (s : State) : (s.counted).params = s.params := rfl
@[simp] theorem State.counted_agenda (s : State) : (s.counted).agenda = s.agenda := rfl
@[simp] theorem State.counted_reads (s : State) : (s.counted).reads = s.reads := rfl
@[simp] theorem State.counted_draws (s : State) : (s.counted).draws = s.draws := rfl

/-! ### State.withCodes -/

@[simp] theorem State.withCodes_arg (s : State) (codes : List (Byte × List Bool)) : (s.withCodes codes).arg = s.arg := rfl
@[simp] theorem State.withCodes_result0 (s : State) (codes : List (Byte × List Bool)) : (s.withCodes codes).result0 = s.result0 := rfl
@[simp] theorem State.withCodes_result1 (s : State) (codes : List (Byte × List Bool)) : (s.withCodes codes).result1 = s.result1 := rfl
@[simp] theorem State.withCodes_result2 (s : State) (codes : List (Byte × List Bool)) : (s.withCodes codes).result2 = s.result2 := rfl
@[simp] theorem State.withCodes_phase (s : State) (codes : List (Byte × List Bool)) : (s.withCodes codes).phase = .coded := rfl
@[simp] theorem State.withCodes_pending (s : State) (codes : List (Byte × List Bool)) : (s.withCodes codes).pending = s.pending := rfl
@[simp] theorem State.withCodes_errCode (s : State) (codes : List (Byte × List Bool)) : (s.withCodes codes).errCode = s.errCode := rfl
@[simp] theorem State.withCodes_errSrc (s : State) (codes : List (Byte × List Bool)) : (s.withCodes codes).errSrc = s.errSrc := rfl
@[simp] theorem State.withCodes_errWord (s : State) (codes : List (Byte × List Bool)) : (s.withCodes codes).errWord = s.errWord := rfl
@[simp] theorem State.withCodes_overrun (s : State) (codes : List (Byte × List Bool)) : (s.withCodes codes).overrun = s.overrun := rfl
@[simp] theorem State.withCodes_inbuf (s : State) (codes : List (Byte × List Bool)) : (s.withCodes codes).inbuf = s.inbuf := rfl
@[simp] theorem State.withCodes_inLen (s : State) (codes : List (Byte × List Bool)) : (s.withCodes codes).inLen = s.inLen := rfl
@[simp] theorem State.withCodes_outbuf (s : State) (codes : List (Byte × List Bool)) : (s.withCodes codes).outbuf = s.outbuf := rfl
@[simp] theorem State.withCodes_outLen (s : State) (codes : List (Byte × List Bool)) : (s.withCodes codes).outLen = s.outLen := rfl
@[simp] theorem State.withCodes_outRd (s : State) (codes : List (Byte × List Bool)) : (s.withCodes codes).outRd = s.outRd := rfl
@[simp] theorem State.withCodes_freq (s : State) (codes : List (Byte × List Bool)) : (s.withCodes codes).freq = s.freq := rfl
@[simp] theorem State.withCodes_nsym (s : State) (codes : List (Byte × List Bool)) : (s.withCodes codes).nsym = s.nsym := rfl
@[simp] theorem State.withCodes_arena (s : State) (codes : List (Byte × List Bool)) : (s.withCodes codes).arena = s.arena := rfl
@[simp] theorem State.withCodes_nodeCount (s : State) (codes : List (Byte × List Bool)) : (s.withCodes codes).nodeCount = s.nodeCount := rfl
@[simp] theorem State.withCodes_heap (s : State) (codes : List (Byte × List Bool)) : (s.withCodes codes).heap = s.heap := rfl
@[simp] theorem State.withCodes_pqSize (s : State) (codes : List (Byte × List Bool)) : (s.withCodes codes).pqSize = s.pqSize := rfl
@[simp] theorem State.withCodes_root (s : State) (codes : List (Byte × List Bool)) : (s.withCodes codes).root = s.root := rfl
@[simp] theorem State.withCodes_codeLen (s : State) (codes : List (Byte × List Bool)) : (s.withCodes codes).codeLen = codeLengths codes := rfl
@[simp] theorem State.withCodes_codeBits (s : State) (codes : List (Byte × List Bool)) : (s.withCodes codes).codeBits = codeBitStrings codes := rfl
@[simp] theorem State.withCodes_bitcnt (s : State) (codes : List (Byte × List Bool)) : (s.withCodes codes).bitcnt = 
    payloadBits s.freq (codeLengths codes) := rfl
@[simp] theorem State.withCodes_treeLen (s : State) (codes : List (Byte × List Bool)) : (s.withCodes codes).treeLen = s.treeLen := rfl
@[simp] theorem State.withCodes_params (s : State) (codes : List (Byte × List Bool)) : (s.withCodes codes).params = s.params := rfl
@[simp] theorem State.withCodes_agenda (s : State) (codes : List (Byte × List Bool)) : (s.withCodes codes).agenda = s.agenda := rfl
@[simp] theorem State.withCodes_reads (s : State) (codes : List (Byte × List Bool)) : (s.withCodes codes).reads = s.reads := rfl
@[simp] theorem State.withCodes_draws (s : State) (codes : List (Byte × List Bool)) : (s.withCodes codes).draws = s.draws := rfl

/-! ### State.emitted -/

@[simp] theorem State.emitted_arg (s : State) (bytes : List Byte) : (s.emitted bytes).arg = s.arg := rfl
@[simp] theorem State.emitted_result0 (s : State) (bytes : List Byte) : (s.emitted bytes).result0 = s.result0 := rfl
@[simp] theorem State.emitted_result1 (s : State) (bytes : List Byte) : (s.emitted bytes).result1 = s.result1 := rfl
@[simp] theorem State.emitted_result2 (s : State) (bytes : List Byte) : (s.emitted bytes).result2 = s.result2 := rfl
@[simp] theorem State.emitted_phase (s : State) (bytes : List Byte) : (s.emitted bytes).phase = .done := rfl
@[simp] theorem State.emitted_pending (s : State) (bytes : List Byte) : (s.emitted bytes).pending = s.pending := rfl
@[simp] theorem State.emitted_errCode (s : State) (bytes : List Byte) : (s.emitted bytes).errCode = s.errCode := rfl
@[simp] theorem State.emitted_errSrc (s : State) (bytes : List Byte) : (s.emitted bytes).errSrc = s.errSrc := rfl
@[simp] theorem State.emitted_errWord (s : State) (bytes : List Byte) : (s.emitted bytes).errWord = s.errWord := rfl
@[simp] theorem State.emitted_overrun (s : State) (bytes : List Byte) : (s.emitted bytes).overrun = s.overrun := rfl
@[simp] theorem State.emitted_inbuf (s : State) (bytes : List Byte) : (s.emitted bytes).inbuf = s.inbuf := rfl
@[simp] theorem State.emitted_inLen (s : State) (bytes : List Byte) : (s.emitted bytes).inLen = s.inLen := rfl
@[simp] theorem State.emitted_outbuf (s : State) (bytes : List Byte) : (s.emitted bytes).outbuf = s.outbuf.writeList 0 bytes := rfl
@[simp] theorem State.emitted_outLen (s : State) (bytes : List Byte) : (s.emitted bytes).outLen = BitVec.ofNat 32 bytes.length := rfl
@[simp] theorem State.emitted_outRd (s : State) (bytes : List Byte) : (s.emitted bytes).outRd = 0 := rfl
@[simp] theorem State.emitted_freq (s : State) (bytes : List Byte) : (s.emitted bytes).freq = s.freq := rfl
@[simp] theorem State.emitted_nsym (s : State) (bytes : List Byte) : (s.emitted bytes).nsym = s.nsym := rfl
@[simp] theorem State.emitted_arena (s : State) (bytes : List Byte) : (s.emitted bytes).arena = s.arena := rfl
@[simp] theorem State.emitted_nodeCount (s : State) (bytes : List Byte) : (s.emitted bytes).nodeCount = s.nodeCount := rfl
@[simp] theorem State.emitted_heap (s : State) (bytes : List Byte) : (s.emitted bytes).heap = s.heap := rfl
@[simp] theorem State.emitted_pqSize (s : State) (bytes : List Byte) : (s.emitted bytes).pqSize = s.pqSize := rfl
@[simp] theorem State.emitted_root (s : State) (bytes : List Byte) : (s.emitted bytes).root = s.root := rfl
@[simp] theorem State.emitted_codeLen (s : State) (bytes : List Byte) : (s.emitted bytes).codeLen = s.codeLen := rfl
@[simp] theorem State.emitted_codeBits (s : State) (bytes : List Byte) : (s.emitted bytes).codeBits = s.codeBits := rfl
@[simp] theorem State.emitted_bitcnt (s : State) (bytes : List Byte) : (s.emitted bytes).bitcnt = s.bitcnt := rfl
@[simp] theorem State.emitted_treeLen (s : State) (bytes : List Byte) : (s.emitted bytes).treeLen = 
    6 * s.nsym.setWidth 32 - 2 := rfl
@[simp] theorem State.emitted_params (s : State) (bytes : List Byte) : (s.emitted bytes).params = s.params := rfl
@[simp] theorem State.emitted_agenda (s : State) (bytes : List Byte) : (s.emitted bytes).agenda = s.agenda := rfl
@[simp] theorem State.emitted_reads (s : State) (bytes : List Byte) : (s.emitted bytes).reads = s.reads := rfl
@[simp] theorem State.emitted_draws (s : State) (bytes : List Byte) : (s.emitted bytes).draws = s.draws := rfl

/-! ### dequeueRest -/

@[simp] theorem dequeueRest_arg (s : State) : (dequeueRest s).arg = s.arg := by
  rw [dequeueRest]; split <;> [rfl; split <;> rfl]
@[simp] theorem dequeueRest_result0 (s : State) : (dequeueRest s).result0 = s.result0 := by
  rw [dequeueRest]; split <;> [rfl; split <;> rfl]
@[simp] theorem dequeueRest_result1 (s : State) : (dequeueRest s).result1 = s.result1 := by
  rw [dequeueRest]; split <;> [rfl; split <;> rfl]
@[simp] theorem dequeueRest_result2 (s : State) : (dequeueRest s).result2 = s.result2 := by
  rw [dequeueRest]; split <;> [rfl; split <;> rfl]
@[simp] theorem dequeueRest_phase (s : State) : (dequeueRest s).phase = s.phase := by
  rw [dequeueRest]; split <;> [rfl; split <;> rfl]
@[simp] theorem dequeueRest_pending (s : State) : (dequeueRest s).pending = s.pending := by
  rw [dequeueRest]; split <;> [rfl; split <;> rfl]
@[simp] theorem dequeueRest_errCode (s : State) : (dequeueRest s).errCode = s.errCode := by
  rw [dequeueRest]; split <;> [rfl; split <;> rfl]
@[simp] theorem dequeueRest_errSrc (s : State) : (dequeueRest s).errSrc = s.errSrc := by
  rw [dequeueRest]; split <;> [rfl; split <;> rfl]
@[simp] theorem dequeueRest_errWord (s : State) : (dequeueRest s).errWord = s.errWord := by
  rw [dequeueRest]; split <;> [rfl; split <;> rfl]
@[simp] theorem dequeueRest_overrun (s : State) : (dequeueRest s).overrun = s.overrun := by
  rw [dequeueRest]; split <;> [rfl; split <;> rfl]
@[simp] theorem dequeueRest_inbuf (s : State) : (dequeueRest s).inbuf = s.inbuf := by
  rw [dequeueRest]; split <;> [rfl; split <;> rfl]
@[simp] theorem dequeueRest_inLen (s : State) : (dequeueRest s).inLen = s.inLen := by
  rw [dequeueRest]; split <;> [rfl; split <;> rfl]
@[simp] theorem dequeueRest_outbuf (s : State) : (dequeueRest s).outbuf = s.outbuf := by
  rw [dequeueRest]; split <;> [rfl; split <;> rfl]
@[simp] theorem dequeueRest_outLen (s : State) : (dequeueRest s).outLen = s.outLen := by
  rw [dequeueRest]; split <;> [rfl; split <;> rfl]
@[simp] theorem dequeueRest_outRd (s : State) : (dequeueRest s).outRd = s.outRd := by
  rw [dequeueRest]; split <;> [rfl; split <;> rfl]
@[simp] theorem dequeueRest_freq (s : State) : (dequeueRest s).freq = s.freq := by
  rw [dequeueRest]; split <;> [rfl; split <;> rfl]
@[simp] theorem dequeueRest_nsym (s : State) : (dequeueRest s).nsym = s.nsym := by
  rw [dequeueRest]; split <;> [rfl; split <;> rfl]
@[simp] theorem dequeueRest_arena (s : State) : (dequeueRest s).arena = s.arena := by
  rw [dequeueRest]; split <;> [rfl; split <;> rfl]
@[simp] theorem dequeueRest_nodeCount (s : State) : (dequeueRest s).nodeCount = s.nodeCount := by
  rw [dequeueRest]; split <;> [rfl; split <;> rfl]
@[simp] theorem dequeueRest_root (s : State) : (dequeueRest s).root = s.root := by
  rw [dequeueRest]; split <;> [rfl; split <;> rfl]
@[simp] theorem dequeueRest_codeLen (s : State) : (dequeueRest s).codeLen = s.codeLen := by
  rw [dequeueRest]; split <;> [rfl; split <;> rfl]
@[simp] theorem dequeueRest_codeBits (s : State) : (dequeueRest s).codeBits = s.codeBits := by
  rw [dequeueRest]; split <;> [rfl; split <;> rfl]
@[simp] theorem dequeueRest_bitcnt (s : State) : (dequeueRest s).bitcnt = s.bitcnt := by
  rw [dequeueRest]; split <;> [rfl; split <;> rfl]
@[simp] theorem dequeueRest_treeLen (s : State) : (dequeueRest s).treeLen = s.treeLen := by
  rw [dequeueRest]; split <;> [rfl; split <;> rfl]
@[simp] theorem dequeueRest_params (s : State) : (dequeueRest s).params = s.params := by
  rw [dequeueRest]; split <;> [rfl; split <;> rfl]
@[simp] theorem dequeueRest_agenda (s : State) : (dequeueRest s).agenda = s.agenda := by
  rw [dequeueRest]; split <;> [rfl; split <;> rfl]
@[simp] theorem dequeueRest_reads (s : State) : (dequeueRest s).reads = s.reads := by
  rw [dequeueRest]; split <;> [rfl; split <;> rfl]
@[simp] theorem dequeueRest_draws (s : State) : (dequeueRest s).draws = s.draws := by
  rw [dequeueRest]; split <;> [rfl; split <;> rfl]

/-! ### State.raise -/

@[simp] theorem State.raise_arg (s : State) (e : ErrorKind) (w : Word) (src : Bool) : (s.raise e w src).arg = s.arg := by
  rw [State.raise]; split <;> rfl
@[simp] theorem State.raise_result0 (s : State) (e : ErrorKind) (w : Word) (src : Bool) : (s.raise e w src).result0 = s.result0 := by
  rw [State.raise]; split <;> rfl
@[simp] theorem State.raise_result1 (s : State) (e : ErrorKind) (w : Word) (src : Bool) : (s.raise e w src).result1 = s.result1 := by
  rw [State.raise]; split <;> rfl
@[simp] theorem State.raise_result2 (s : State) (e : ErrorKind) (w : Word) (src : Bool) : (s.raise e w src).result2 = s.result2 := by
  rw [State.raise]; split <;> rfl
@[simp] theorem State.raise_phase (s : State) (e : ErrorKind) (w : Word) (src : Bool) : (s.raise e w src).phase = s.phase := by
  rw [State.raise]; split <;> rfl
@[simp] theorem State.raise_pending (s : State) (e : ErrorKind) (w : Word) (src : Bool) : (s.raise e w src).pending = s.pending := by
  rw [State.raise]; split <;> rfl
@[simp] theorem State.raise_overrun (s : State) (e : ErrorKind) (w : Word) (src : Bool) : (s.raise e w src).overrun = s.overrun := by
  rw [State.raise]; split <;> rfl
@[simp] theorem State.raise_inbuf (s : State) (e : ErrorKind) (w : Word) (src : Bool) : (s.raise e w src).inbuf = s.inbuf := by
  rw [State.raise]; split <;> rfl
@[simp] theorem State.raise_inLen (s : State) (e : ErrorKind) (w : Word) (src : Bool) : (s.raise e w src).inLen = s.inLen := by
  rw [State.raise]; split <;> rfl
@[simp] theorem State.raise_outbuf (s : State) (e : ErrorKind) (w : Word) (src : Bool) : (s.raise e w src).outbuf = s.outbuf := by
  rw [State.raise]; split <;> rfl
@[simp] theorem State.raise_outLen (s : State) (e : ErrorKind) (w : Word) (src : Bool) : (s.raise e w src).outLen = s.outLen := by
  rw [State.raise]; split <;> rfl
@[simp] theorem State.raise_outRd (s : State) (e : ErrorKind) (w : Word) (src : Bool) : (s.raise e w src).outRd = s.outRd := by
  rw [State.raise]; split <;> rfl
@[simp] theorem State.raise_freq (s : State) (e : ErrorKind) (w : Word) (src : Bool) : (s.raise e w src).freq = s.freq := by
  rw [State.raise]; split <;> rfl
@[simp] theorem State.raise_nsym (s : State) (e : ErrorKind) (w : Word) (src : Bool) : (s.raise e w src).nsym = s.nsym := by
  rw [State.raise]; split <;> rfl
@[simp] theorem State.raise_arena (s : State) (e : ErrorKind) (w : Word) (src : Bool) : (s.raise e w src).arena = s.arena := by
  rw [State.raise]; split <;> rfl
@[simp] theorem State.raise_nodeCount (s : State) (e : ErrorKind) (w : Word) (src : Bool) : (s.raise e w src).nodeCount = s.nodeCount := by
  rw [State.raise]; split <;> rfl
@[simp] theorem State.raise_heap (s : State) (e : ErrorKind) (w : Word) (src : Bool) : (s.raise e w src).heap = s.heap := by
  rw [State.raise]; split <;> rfl
@[simp] theorem State.raise_pqSize (s : State) (e : ErrorKind) (w : Word) (src : Bool) : (s.raise e w src).pqSize = s.pqSize := by
  rw [State.raise]; split <;> rfl
@[simp] theorem State.raise_root (s : State) (e : ErrorKind) (w : Word) (src : Bool) : (s.raise e w src).root = s.root := by
  rw [State.raise]; split <;> rfl
@[simp] theorem State.raise_codeLen (s : State) (e : ErrorKind) (w : Word) (src : Bool) : (s.raise e w src).codeLen = s.codeLen := by
  rw [State.raise]; split <;> rfl
@[simp] theorem State.raise_codeBits (s : State) (e : ErrorKind) (w : Word) (src : Bool) : (s.raise e w src).codeBits = s.codeBits := by
  rw [State.raise]; split <;> rfl
@[simp] theorem State.raise_bitcnt (s : State) (e : ErrorKind) (w : Word) (src : Bool) : (s.raise e w src).bitcnt = s.bitcnt := by
  rw [State.raise]; split <;> rfl
@[simp] theorem State.raise_treeLen (s : State) (e : ErrorKind) (w : Word) (src : Bool) : (s.raise e w src).treeLen = s.treeLen := by
  rw [State.raise]; split <;> rfl
@[simp] theorem State.raise_params (s : State) (e : ErrorKind) (w : Word) (src : Bool) : (s.raise e w src).params = s.params := by
  rw [State.raise]; split <;> rfl
@[simp] theorem State.raise_agenda (s : State) (e : ErrorKind) (w : Word) (src : Bool) : (s.raise e w src).agenda = s.agenda := by
  rw [State.raise]; split <;> rfl
@[simp] theorem State.raise_reads (s : State) (e : ErrorKind) (w : Word) (src : Bool) : (s.raise e w src).reads = s.reads := by
  rw [State.raise]; split <;> rfl
@[simp] theorem State.raise_draws (s : State) (e : ErrorKind) (w : Word) (src : Bool) : (s.raise e w src).draws = s.draws := by
  rw [State.raise]; split <;> rfl

/-! ### State.rooted -/

@[simp] theorem State.rooted_arg (s : State) : (s.rooted).arg = s.arg := by
  simp [State.rooted]
@[simp] theorem State.rooted_result0 (s : State) : (s.rooted).result0 = s.result0 := by
  simp [State.rooted]
@[simp] theorem State.rooted_result1 (s : State) : (s.rooted).result1 = s.result1 := by
  simp [State.rooted]
@[simp] theorem State.rooted_result2 (s : State) : (s.rooted).result2 = s.result2 := by
  simp [State.rooted]
@[simp] theorem State.rooted_phase (s : State) : (s.rooted).phase = .built := by
  simp [State.rooted]
@[simp] theorem State.rooted_pending (s : State) : (s.rooted).pending = s.pending := by
  simp [State.rooted]
@[simp] theorem State.rooted_errCode (s : State) : (s.rooted).errCode = s.errCode := by
  simp [State.rooted]
@[simp] theorem State.rooted_errSrc (s : State) : (s.rooted).errSrc = s.errSrc := by
  simp [State.rooted]
@[simp] theorem State.rooted_errWord (s : State) : (s.rooted).errWord = s.errWord := by
  simp [State.rooted]
@[simp] theorem State.rooted_overrun (s : State) : (s.rooted).overrun = s.overrun := by
  simp [State.rooted]
@[simp] theorem State.rooted_inbuf (s : State) : (s.rooted).inbuf = s.inbuf := by
  simp [State.rooted]
@[simp] theorem State.rooted_inLen (s : State) : (s.rooted).inLen = s.inLen := by
  simp [State.rooted]
@[simp] theorem State.rooted_outbuf (s : State) : (s.rooted).outbuf = s.outbuf := by
  simp [State.rooted]
@[simp] theorem State.rooted_outLen (s : State) : (s.rooted).outLen = s.outLen := by
  simp [State.rooted]
@[simp] theorem State.rooted_outRd (s : State) : (s.rooted).outRd = s.outRd := by
  simp [State.rooted]
@[simp] theorem State.rooted_freq (s : State) : (s.rooted).freq = s.freq := by
  simp [State.rooted]
@[simp] theorem State.rooted_nsym (s : State) : (s.rooted).nsym = s.nsym := by
  simp [State.rooted]
@[simp] theorem State.rooted_arena (s : State) : (s.rooted).arena = s.arena := by
  simp [State.rooted]
@[simp] theorem State.rooted_nodeCount (s : State) : (s.rooted).nodeCount = s.nodeCount := by
  simp [State.rooted]
@[simp] theorem State.rooted_heap (s : State) : (s.rooted).heap = (dequeueRest s).heap := by
  simp [State.rooted]
@[simp] theorem State.rooted_pqSize (s : State) : (s.rooted).pqSize = (dequeueRest s).pqSize := by
  simp [State.rooted]
@[simp] theorem State.rooted_root (s : State) : (s.rooted).root = dequeueTop s := by
  simp [State.rooted]
@[simp] theorem State.rooted_codeLen (s : State) : (s.rooted).codeLen = s.codeLen := by
  simp [State.rooted]
@[simp] theorem State.rooted_codeBits (s : State) : (s.rooted).codeBits = s.codeBits := by
  simp [State.rooted]
@[simp] theorem State.rooted_bitcnt (s : State) : (s.rooted).bitcnt = s.bitcnt := by
  simp [State.rooted]
@[simp] theorem State.rooted_treeLen (s : State) : (s.rooted).treeLen = s.treeLen := by
  simp [State.rooted]
@[simp] theorem State.rooted_params (s : State) : (s.rooted).params = s.params := by
  simp [State.rooted]
@[simp] theorem State.rooted_agenda (s : State) : (s.rooted).agenda = s.agenda := by
  simp [State.rooted]
@[simp] theorem State.rooted_reads (s : State) : (s.rooted).reads = s.reads := by
  simp [State.rooted]
@[simp] theorem State.rooted_draws (s : State) : (s.rooted).draws = s.draws := by
  simp [State.rooted]

end Sys2Proof.Machine
end

