-- ==== Sys2Proof/Laws/Table.lean ====
section
/-! SUPPORT. The block's memories: reading after writing, and the canonical form. -/

namespace Sys2Proof.Machine

variable {α : Type} {d : α}

@[simp] theorem Table.get_nil (k : Nat) : Table.get d [] k = d := rfl

theorem Table.get_cons (d : α) (a : Nat) (v : α) (m : Table α) (k : Nat) :
    Table.get d ((a, v) :: m) k = if a = k then v else Table.get d m k := rfl

theorem Table.erase_cons (a : Nat) (v : α) (m : Table α) (k : Nat) :
    Table.erase ((a, v) :: m) k = if a = k then Table.erase m k else (a, v) :: Table.erase m k := by
  by_cases h : a = k <;> simp [Table.erase, h]

/-- Reading an erased table. -/
theorem Table.get_erase (m : Table α) (k j : Nat) :
    Table.get d (Table.erase m k) j = if j = k then d else Table.get d m j := by
  induction m with
  | nil => simp [Table.erase]
  | cons c m ih =>
    obtain ⟨a, v⟩ := c
    rw [Table.erase_cons, Table.get_cons]
    split <;> rename_i h
    · subst h
      rw [ih]
      split <;> rename_i hj
      · rfl
      · rw [if_neg (fun e => hj e.symm)]
    · rw [Table.get_cons, ih]
      by_cases hj : a = j
      · subst hj
        simp [h]
      · simp [hj]

theorem Table.erase_ne {m : Table α} {k : Nat} {c : Nat × α} (h : c ∈ Table.erase m k) : c.1 ≠ k ∧ c ∈ m := by
  simp only [Table.erase, List.mem_filter, bne_iff_ne] at h
  exact ⟨h.2, h.1⟩

/-- Reading after an insertion at an index the table does not list. -/
theorem Table.get_insert (m : Table α) (k j : Nat) (v : α) (h : ∀ c ∈ m, c.1 ≠ k) :
    Table.get d (Table.insert k v m) j = if j = k then v else Table.get d m j := by
  induction m with
  | nil => simp only [Table.insert, Table.get_cons, Table.get_nil, eq_comm]
  | cons c m ih =>
    obtain ⟨a, w⟩ := c
    have hak : a ≠ k := h (a, w) (by simp)
    rw [Table.insert]
    split
    · simp only [Table.get_cons d k, eq_comm]
    · rw [Table.get_cons, ih (fun c hc => h c (by simp [hc])), Table.get_cons]
      by_cases hj : a = j
      · subst hj
        simp [hak]
      · simp [hj]

theorem Table.mem_insert {m : Table α} {k : Nat} {v : α} {c : Nat × α} :
    c ∈ Table.insert k v m ↔ c = (k, v) ∨ c ∈ m := by
  induction m with
  | nil => simp [Table.insert]
  | cons b m ih =>
    obtain ⟨a, w⟩ := b
    rw [Table.insert]
    split
    · simp
    · simp only [List.mem_cons, ih]
      tauto

theorem Table.pairwise_erase {m : Table α} (h : (m.map Prod.fst).Pairwise (· < ·)) (k : Nat) :
    ((Table.erase m k).map Prod.fst).Pairwise (· < ·) :=
  h.sublist (List.Sublist.map _ List.filter_sublist)

theorem Table.pairwise_insert {m : Table α} (h : (m.map Prod.fst).Pairwise (· < ·)) (k : Nat) (v : α)
    (hk : ∀ c ∈ m, c.1 ≠ k) : ((Table.insert k v m).map Prod.fst).Pairwise (· < ·) := by
  induction m with
  | nil => simp [Table.insert]
  | cons b m ih =>
    obtain ⟨a, w⟩ := b
    rw [List.map_cons, List.pairwise_cons] at h
    rw [Table.insert]
    split <;> rename_i hlt
    · rw [List.map_cons, List.pairwise_cons, List.map_cons, List.pairwise_cons]
      refine ⟨fun x hx => ?_, h⟩
      rcases List.mem_cons.mp hx with rfl | hx
      · exact hlt
      · exact hlt.trans (h.1 x hx)
    · rw [List.map_cons, List.pairwise_cons]
      refine ⟨fun x hx => ?_, ih h.2 (fun c hc => hk c (by simp [hc]))⟩
      obtain ⟨c, hc, rfl⟩ := List.mem_map.mp hx
      rcases Table.mem_insert.mp hc with rfl | hc
      · have := hk (a, w) (by simp)
        simp only at this hlt ⊢
        omega
      · exact h.1 _ (List.mem_map_of_mem hc)

theorem Table.get_of_not_mem {m : Table α} {k : Nat} (h : ∀ c ∈ m, c.1 ≠ k) : Table.get d m k = d := by
  induction m with
  | nil => rfl
  | cons c m ih =>
    obtain ⟨a, v⟩ := c
    rw [Table.get_cons, if_neg (h (a, v) (by simp)), ih (fun c hc => h c (by simp [hc]))]

theorem Table.get_of_mem {m : Table α} (h : (m.map Prod.fst).Pairwise (· < ·)) {c : Nat × α} (hc : c ∈ m) :
    Table.get d m c.1 = c.2 := by
  induction m with
  | nil => simp at hc
  | cons b m ih =>
    obtain ⟨a, v⟩ := b
    rw [List.map_cons, List.pairwise_cons] at h
    rcases List.mem_cons.mp hc with rfl | hc
    · simp [Table.get_cons]
    · have := h.1 c.1 (List.mem_map_of_mem hc)
      rw [Table.get_cons, if_neg (by simp only at this; omega), ih h.2 hc]

theorem Table.eq_of_mem_iff {m m' : Table α} (h : (m.map Prod.fst).Pairwise (· < ·))
    (h' : (m'.map Prod.fst).Pairwise (· < ·)) (e : ∀ c, c ∈ m ↔ c ∈ m') : m = m' := by
  induction m generalizing m' with
  | nil =>
    cases m' with
    | nil => rfl
    | cons c m' => exact absurd ((e c).mpr (by simp)) (by simp)
  | cons b m ih =>
    cases m' with
    | nil => exact absurd ((e b).mp (by simp)) (by simp)
    | cons b' m' =>
      rw [List.map_cons, List.pairwise_cons] at h h'
      have hbb : b = b' := by
        rcases List.mem_cons.mp ((e b).mp (by simp)) with hb | hb
        · exact hb
        · rcases List.mem_cons.mp ((e b').mpr (by simp)) with hb' | hb'
          · exact hb'.symm
          · have h1 := h'.1 _ (List.mem_map_of_mem hb)
            have h2 := h.1 _ (List.mem_map_of_mem hb')
            omega
      subst hbb
      rw [ih h.2 h'.2 (fun c => ?_)]
      constructor
      · intro hc
        rcases List.mem_cons.mp ((e c).mp (by simp [hc])) with rfl | h3
        · exact absurd (h.1 _ (List.mem_map_of_mem hc)) (lt_irrefl _)
        · exact h3
      · intro hc
        rcases List.mem_cons.mp ((e c).mpr (by simp [hc])) with rfl | h3
        · exact absurd (h'.1 _ (List.mem_map_of_mem hc)) (lt_irrefl _)
        · exact h3

variable [DecidableEq α]

/-- Reading after a write: the value at its index, every other index as before. -/
theorem Table.get_set (m : Table α) (k j : Nat) (v : α) :
    Table.get d (Table.set d m k v) j = if j = k then v else Table.get d m j := by
  rw [Table.set]
  split <;> rename_i hv
  · rw [Table.get_erase, hv]
  · rw [Table.get_insert _ _ _ _ (fun c hc => (Table.erase_ne hc).1), Table.get_erase]
    split <;> rfl

@[simp] theorem Table.get_set_same (m : Table α) (k : Nat) (v : α) : Table.get d (Table.set d m k v) k = v := by
  rw [Table.get_set, if_pos rfl]

theorem Table.get_set_other (m : Table α) {k j : Nat} (v : α) (h : j ≠ k) :
    Table.get d (Table.set d m k v) j = Table.get d m j := by
  rw [Table.get_set, if_neg h]

/-- The entries after a write. -/
theorem Table.mem_set {m : Table α} {k : Nat} {v : α} {c : Nat × α} (h : c ∈ Table.set d m k v) :
    (c = (k, v) ∧ v ≠ d) ∨ (c.1 ≠ k ∧ c ∈ m) := by
  rw [Table.set] at h
  split at h <;> rename_i hv
  · exact .inr (Table.erase_ne h)
  · rcases Table.mem_insert.mp h with h | h
    · exact .inl ⟨h, hv⟩
    · exact .inr (Table.erase_ne h)

theorem Table.wf_nil : Table.WF d ([] : Table α) := by simp [Table.WF]

/-- A write keeps the canonical form. -/
theorem Table.wf_set {m : Table α} (h : Table.WF d m) (k : Nat) (v : α) : Table.WF d (Table.set d m k v) := by
  refine ⟨?_, fun c hc => ?_⟩
  · rw [Table.set]
    split
    · exact Table.pairwise_erase h.1 k
    · exact Table.pairwise_insert (Table.pairwise_erase h.1 k) k v (fun c hc => (Table.erase_ne hc).1)
  · rcases Table.mem_set hc with ⟨rfl, hv⟩ | ⟨-, hm⟩
    · exact hv
    · exact h.2 c hm

theorem Table.mem_iff {m : Table α} (h : Table.WF d m) {k : Nat} {v : α} :
    (k, v) ∈ m ↔ Table.get d m k = v ∧ v ≠ d := by
  refine ⟨fun hc => ⟨Table.get_of_mem h.1 hc, h.2 _ hc⟩, fun ⟨hg, hv⟩ => ?_⟩
  by_contra hn
  have : ∀ c ∈ m, c.1 ≠ k := by
    rintro ⟨a, w⟩ hc rfl
    have := Table.get_of_mem (d := d) h.1 hc
    simp only at this
    rw [hg] at this
    exact hn (this ▸ hc)
  exact hv (hg ▸ Table.get_of_not_mem this)

/-- Two memories in canonical form that read the same everywhere are equal. -/
theorem Table.ext_of_wf {m m' : Table α} (h : Table.WF d m) (h' : Table.WF d m')
    (e : ∀ k, Table.get d m k = Table.get d m' k) : m = m' :=
  Table.eq_of_mem_iff h.1 h'.1 fun c => by rw [Table.mem_iff h, Table.mem_iff h', e]

/-! ### Byte memories -/

theorem Memory.read_write (m : Memory) (k j : Nat) (v : Byte) :
    (m.write k v).read j = if j = k then v else m.read j := Table.get_set m k j v

@[simp] theorem Memory.read_nil (k : Nat) : Memory.read [] k = 0 := rfl

theorem Memory.wf_write {m : Memory} (h : m.wf) (k : Nat) (v : Byte) : (m.write k v).wf := Table.wf_set h k v

/-- Reading after consecutive writes: the written bytes, every other index as before. -/
theorem Memory.read_writeList (m : Memory) (k : Nat) (bytes : List Byte) (j : Nat) :
    (m.writeList k bytes).read j = if k ≤ j ∧ j < k + bytes.length then bytes.getD (j - k) 0 else m.read j := by
  induction bytes generalizing m k with
  | nil => simp [Memory.writeList]
  | cons b rest ih =>
    rw [Memory.writeList, ih, Memory.read_write, List.length_cons]
    by_cases hj : j = k
    · subst hj
      simp
    · by_cases h1 : k + 1 ≤ j ∧ j < k + 1 + rest.length
      · have h2 : k ≤ j ∧ j < k + (rest.length + 1) := by omega
        rw [if_pos h1, if_pos h2, show j - k = (j - (k + 1)) + 1 by omega, List.getD_cons_succ]
      · have h2 : ¬ (k ≤ j ∧ j < k + (rest.length + 1)) := by omega
        rw [if_neg h1, if_neg h2, if_neg hj]

theorem Memory.wf_writeList {m : Memory} (h : m.wf) (k : Nat) (bytes : List Byte) : (m.writeList k bytes).wf := by
  induction bytes generalizing m k with
  | nil => exact h
  | cons b rest ih => exact ih (Memory.wf_write h k b) (k + 1)

theorem Memory.mem_write {m : Memory} {k : Nat} {v : Byte} {c : Host.Cell} (h : c ∈ m.write k v) :
    c.1 = k ∨ c ∈ m := by
  rcases Table.mem_set h with ⟨rfl, -⟩ | ⟨-, h⟩
  · exact .inl rfl
  · exact .inr h

theorem Memory.mem_writeList {m : Memory} {k : Nat} {bytes : List Byte} {c : Host.Cell}
    (h : c ∈ m.writeList k bytes) : (k ≤ c.1 ∧ c.1 < k + bytes.length) ∨ c ∈ m := by
  induction bytes generalizing m k with
  | nil => exact .inr h
  | cons b rest ih =>
    rw [List.length_cons]
    rcases ih h with h | h
    · exact .inl (by omega)
    · rcases Memory.mem_write h with h | h
      · exact .inl (by omega)
      · exact .inr h

@[simp] theorem Memory.length_take (m : Memory) (n : Nat) : (m.take n).length = n := by simp [Memory.take]

/-- The bytes written from index 0 on are read back. -/
theorem Memory.take_writeList (m : Memory) (bytes : List Byte) :
    (m.writeList 0 bytes).take bytes.length = bytes := by
  refine List.ext_getElem (by simp) fun i h1 h2 => ?_
  simp only [Memory.take, List.getElem_map, List.getElem_range, Memory.read_writeList]
  rw [if_pos ⟨by omega, by omega⟩]
  simp [h2]

/-- Appending at the end of the bytes held. -/
theorem Memory.take_write_succ (m : Memory) (n : Nat) (b : Byte) : (m.write n b).take (n + 1) = m.take n ++ [b] := by
  rw [Memory.take, List.range_succ, List.map_append, List.map_singleton, Memory.read_write, if_pos rfl]
  congr 1
  refine List.map_congr_left fun i hi => ?_
  rw [Memory.read_write, if_neg (by simp at hi; omega)]

end Sys2Proof.Machine
end

