-- ==== Sys2Proof/Laws/Queue.lean ====
section
/-! SUPPORT. The priority queue: what the swaps, the two sift loops, enqueue and dequeue do to the slots, and the heap
invariant (spec/41_priority_queue.md R105 to R111). -/

namespace Sys2Proof.Machine

/-- The node ids in slots 1 to `n`. -/
def slots (heap : Table NodeId) (n : Nat) : List NodeId := (List.range n).map fun i => Table.get 0 heap (i + 1)

theorem queueIds_eq_slots (s : State) : s.queueIds = slots s.heap s.pqSize.toNat := rfl

@[simp] theorem length_slots (heap : Table NodeId) (n : Nat) : (slots heap n).length = n := by simp [slots]

theorem mem_slots {heap : Table NodeId} {n : Nat} {x : NodeId} :
    x ∈ slots heap n ↔ ∃ i, 1 ≤ i ∧ i ≤ n ∧ Table.get 0 heap i = x := by
  simp only [slots, List.mem_map, List.mem_range]
  constructor
  · rintro ⟨i, hi, rfl⟩
    exact ⟨i + 1, by omega, by omega, rfl⟩
  · rintro ⟨i, h1, h2, rfl⟩
    exact ⟨i - 1, by omega, by rw [Nat.sub_add_cancel h1]⟩

theorem slots_congr {h h' : Table NodeId} {n : Nat} (e : ∀ i, 1 ≤ i → i ≤ n → Table.get 0 h i = Table.get 0 h' i) :
    slots h n = slots h' n := by
  refine List.map_congr_left fun i hi => e (i + 1) (by omega) ?_
  simp at hi
  omega

theorem slots_succ (heap : Table NodeId) (n : Nat) :
    slots heap (n + 1) = slots heap n ++ [Table.get 0 heap (n + 1)] := by
  simp [slots, List.range_succ]

theorem slots_cons (heap : Table NodeId) (n : Nat) :
    slots heap (n + 1) = Table.get 0 heap 1 :: (List.range n).map (fun i => Table.get 0 heap (i + 2)) := by
  simp [slots, List.range_succ_eq_map, Function.comp_def]

/-! ### Swaps -/

theorem get_heapSwap (heap : Table NodeId) (i j k : Nat) :
    Table.get 0 (heapSwap heap i j) k =
      if k = j then Table.get 0 heap i else if k = i then Table.get 0 heap j else Table.get 0 heap k := by
  rw [heapSwap, Table.get_set, Table.get_set]

/-- The slot whose content slot `k` has after a swap. -/
def swapSlot (i j k : Nat) : Nat := if k = j then i else if k = i then j else k

theorem get_heapSwap_slot (heap : Table NodeId) (i j k : Nat) :
    Table.get 0 (heapSwap heap i j) k = Table.get 0 heap (swapSlot i j k) := by
  rw [get_heapSwap, swapSlot]
  split <;> [rfl; split <;> rfl]

theorem heapKey_heapSwap (arena : Table Node) (heap : Table NodeId) (i j k : Nat) :
    heapKey arena (heapSwap heap i j) k = heapKey arena heap (swapSlot i j k) := by
  rw [heapKey, get_heapSwap_slot, heapKey]

theorem slots_heapSwap_perm (heap : Table NodeId) {i j n : Nat} (hi : 1 ≤ i) (hin : i ≤ n) (hj : 1 ≤ j) (hjn : j ≤ n) :
    (slots (heapSwap heap i j) n).Perm (slots heap n) := by
  have e : slots (heapSwap heap i j) n =
      ((List.range n).map fun k => swapSlot i j (k + 1) - 1).map fun k => Table.get 0 heap (k + 1) := by
    rw [slots, List.map_map]
    refine List.map_congr_left fun k hk => ?_
    have : 1 ≤ swapSlot i j (k + 1) := by rw [swapSlot]; split <;> [exact hi; split <;> omega]
    simp only [Function.comp_apply, get_heapSwap_slot, Nat.sub_add_cancel this]
  rw [e]
  refine List.Perm.map _ ((List.perm_ext_iff_of_nodup ?_ List.nodup_range).mpr fun x => ?_)
  · refine List.Nodup.map_on (fun a _ b _ h => ?_) List.nodup_range
    simp only [swapSlot] at h
    split_ifs at h <;> omega
  · simp only [List.mem_map, List.mem_range]
    constructor
    · rintro ⟨k, hk, rfl⟩
      rw [swapSlot]
      split_ifs <;> omega
    · intro hx
      refine ⟨swapSlot i j (x + 1) - 1, ?_, ?_⟩
      · rw [swapSlot]
        split_ifs <;> omega
      · simp only [swapSlot]
        split_ifs <;> omega

/-! ### Tables kept in form -/

/-- The heap is in canonical form and lists slots 1 to `cap` only. -/
def HeapForm (cap : Nat) (heap : Table NodeId) : Prop := Table.WF 0 heap ∧ ∀ c ∈ heap, 1 ≤ c.1 ∧ c.1 ≤ cap

theorem HeapForm.set {cap : Nat} {heap : Table NodeId} (h : HeapForm cap heap) {i : Nat} (h1 : 1 ≤ i) (h2 : i ≤ cap)
    (v : NodeId) : HeapForm cap (Table.set 0 heap i v) := by
  refine ⟨Table.wf_set h.1 i v, fun c hc => ?_⟩
  rcases Table.mem_set hc with ⟨rfl, -⟩ | ⟨-, hm⟩
  · exact ⟨h1, h2⟩
  · exact h.2 c hm

theorem HeapForm.swap {cap : Nat} {heap : Table NodeId} (h : HeapForm cap heap) {i j : Nat} (h1 : 1 ≤ i) (h2 : i ≤ cap)
    (h3 : 1 ≤ j) (h4 : j ≤ cap) : HeapForm cap (heapSwap heap i j) := (h.set h1 h2 _).set h3 h4 _

/-! ### The sift loops -/

/-- The key of a slot as a number. -/
def keyNat (arena : Table Node) (heap : Table NodeId) (i : Nat) : Nat := (heapKey arena heap i).toNat

theorem heapKey_lt_iff {arena : Table Node} {heap : Table NodeId} {i j : Nat} :
    heapKey arena heap i < heapKey arena heap j ↔ keyNat arena heap i < keyNat arena heap j := BitVec.lt_def

theorem swapSlot_right (i j : Nat) : swapSlot i j j = i := by simp [swapSlot]

theorem swapSlot_left (i j : Nat) : swapSlot i j i = j := by
  rw [swapSlot]
  split <;> rename_i h
  · exact h
  · rw [if_pos rfl]

theorem swapSlot_other {i j k : Nat} (hi : k ≠ i) (hj : k ≠ j) : swapSlot i j k = k := by
  rw [swapSlot, if_neg hj, if_neg hi]

theorem keyNat_heapSwap (arena : Table Node) (heap : Table NodeId) (i j k : Nat) :
    keyNat arena (heapSwap heap i j) k = keyNat arena heap (swapSlot i j k) := by
  rw [keyNat, heapKey_heapSwap, keyNat]

/-- Every slot but `i` has a key at least its parent's, and the children of `i` have keys at least those of the parent
of `i`: what holds while `siftUp` stands at slot `i`. -/
structure OrderedAbove (arena : Table Node) (size : Nat) (heap : Table NodeId) (i : Nat) : Prop where
  others : ∀ j, 2 ≤ j → j ≤ size → j ≠ i → keyNat arena heap (j / 2) ≤ keyNat arena heap j
  children : ∀ j, 2 ≤ j → j ≤ size → j / 2 = i → 2 ≤ i → keyNat arena heap (i / 2) ≤ keyNat arena heap j

/-- Every slot that is no child of `i` has a key at least its parent's, and the children of `i` have keys at least
those of the parent of `i`: what holds while `siftDown` stands at slot `i`. -/
structure OrderedBelow (arena : Table Node) (size : Nat) (heap : Table NodeId) (i : Nat) : Prop where
  others : ∀ j, 2 ≤ j → j ≤ size → j / 2 ≠ i → keyNat arena heap (j / 2) ≤ keyNat arena heap j
  children : ∀ j, 2 ≤ j → j ≤ size → j / 2 = i → 2 ≤ i → keyNat arena heap (i / 2) ≤ keyNat arena heap j

/-- The heap invariant on a table (R33). -/
def Ordered (arena : Table Node) (size : Nat) (heap : Table NodeId) : Prop :=
  ∀ j, 2 ≤ j → j ≤ size → keyNat arena heap (j / 2) ≤ keyNat arena heap j

theorem siftUp_perm (arena : Table Node) (n : Nat) (fuel : Nat) (heap : Table NodeId) (i : Nat) (h1 : 1 ≤ i)
    (h2 : i ≤ n) : (slots (siftUp arena fuel heap i) n).Perm (slots heap n) := by
  induction fuel generalizing heap i with
  | zero => exact .refl _
  | succ fuel ih =>
    rw [siftUp]
    split <;> rename_i h
    · exact (ih _ _ (by omega) (by omega)).trans (slots_heapSwap_perm heap h1 h2 (by omega) (by omega))
    · exact .refl _

theorem siftUp_form {arena : Table Node} {cap : Nat} (fuel : Nat) {heap : Table NodeId} {i : Nat}
    (h : HeapForm cap heap) (h1 : 1 ≤ i) (h2 : i ≤ cap) : HeapForm cap (siftUp arena fuel heap i) := by
  induction fuel generalizing heap i with
  | zero => exact h
  | succ fuel ih =>
    rw [siftUp]
    split <;> rename_i hc
    · exact ih (h.swap h1 h2 (by omega) (by omega)) (by omega) (by omega)
    · exact h

theorem siftUp_ordered {arena : Table Node} {size : Nat} (fuel : Nat) {heap : Table NodeId} {i : Nat}
    (h : OrderedAbove arena size heap i) (h1 : 1 ≤ i) (h2 : i ≤ size) (hf : i ≤ fuel) :
    Ordered arena size (siftUp arena fuel heap i) := by
  induction fuel generalizing heap i with
  | zero => omega
  | succ fuel ih =>
    rw [siftUp]
    simp only [heapKey_lt_iff]
    split <;> rename_i hc
    · obtain ⟨hi, hlt⟩ := hc
      refine ih ⟨fun j hj hjn hne => ?_, fun j hj hjn hji h2i => ?_⟩ (by omega) (by omega) (by omega)
      · rw [keyNat_heapSwap, keyNat_heapSwap]
        by_cases hji : j = i
        · subst hji
          rw [swapSlot_right, swapSlot_left]
          omega
        · rw [swapSlot_other hji hne]
          have hkj := h.others j hj hjn hji
          by_cases hc : j / 2 = i
          · rw [hc, swapSlot_left]
            exact h.children j hj hjn hc (by omega)
          · by_cases hs : j / 2 = i / 2
            · rw [hs, swapSlot_right]
              rw [hs] at hkj
              omega
            · rw [swapSlot_other hc hs]
              exact hkj
      · have hp := h.others (i / 2) h2i (by omega) (by omega)
        rw [keyNat_heapSwap, keyNat_heapSwap, swapSlot_other (by omega : i / 2 / 2 ≠ i) (by omega)]
        by_cases hj' : j = i
        · rw [hj', swapSlot_left]
          exact hp
        · have hkj := h.others j hj hjn hj'
          rw [hji] at hkj
          rw [swapSlot_other hj' (by omega)]
          omega
    · intro j hj hjn
      by_cases hji : j = i
      · subst hji
        by_contra hlt
        exact hc ⟨by omega, by omega⟩
      · exact h.others j hj hjn hji

/-- The fuel of `siftUp` is no end of the loop (R107). -/
theorem siftUp_fuel (arena : Table Node) (fuel fuel' : Nat) (heap : Table NodeId) (i : Nat) (h : i ≤ fuel)
    (h' : i ≤ fuel') : siftUp arena fuel heap i = siftUp arena fuel' heap i := by
  induction fuel generalizing fuel' heap i with
  | zero =>
    cases fuel' with
    | zero => rfl
    | succ m => rw [siftUp, siftUp, if_neg (by omega)]
  | succ n ih =>
    cases fuel' with
    | zero => rw [siftUp, siftUp, if_neg (by omega)]
    | succ m =>
      rw [siftUp, siftUp]
      split
      · exact ih _ _ _ (by omega) (by omega)
      · rfl

theorem smallerChild_cases (arena : Table Node) (size : Nat) (heap : Table NodeId) (i : Nat) (h : ¬ size < 2 * i) :
    (smallerChild arena size heap i = 2 * i ∨ smallerChild arena size heap i = 2 * i + 1) ∧
      smallerChild arena size heap i ≤ size ∧
      ∀ j, 2 ≤ j → j ≤ size → j / 2 = i → keyNat arena heap (smallerChild arena size heap i) ≤ keyNat arena heap j := by
  rw [smallerChild]
  simp only [heapKey_lt_iff]
  split <;> rename_i hc
  · refine ⟨.inr rfl, hc.1, fun j hj hjn hji => ?_⟩
    rcases (by omega : j = 2 * i ∨ j = 2 * i + 1) with rfl | rfl <;> omega
  · refine ⟨.inl rfl, by omega, fun j hj hjn hji => ?_⟩
    rcases (by omega : j = 2 * i ∨ j = 2 * i + 1) with rfl | rfl
    · exact le_refl _
    · by_contra hlt
      exact hc ⟨hjn, by omega⟩

/-- The fuel of `siftDown` is no end of the loop (R108). -/
theorem siftDown_fuel (arena : Table Node) (size fuel fuel' : Nat) (heap : Table NodeId) (i : Nat) (h1 : 1 ≤ i)
    (h : size ≤ fuel + i) (h' : size ≤ fuel' + i) :
    siftDown arena size fuel heap i = siftDown arena size fuel' heap i := by
  induction fuel generalizing fuel' heap i with
  | zero =>
    cases fuel' with
    | zero => rfl
    | succ m => rw [siftDown, siftDown, if_pos (by omega)]
  | succ n ih =>
    cases fuel' with
    | zero => rw [siftDown, siftDown, if_pos (by omega)]
    | succ m =>
      rw [siftDown, siftDown]
      split
      · rfl
      · rename_i hh
        have := smallerChild_cases arena size heap i hh
        split
        · exact ih _ _ _ (by omega) (by omega) (by omega)
        · rfl

theorem siftDown_perm (arena : Table Node) (size : Nat) (fuel : Nat) (heap : Table NodeId) (i : Nat) (h1 : 1 ≤ i) :
    (slots (siftDown arena size fuel heap i) size).Perm (slots heap size) := by
  induction fuel generalizing heap i with
  | zero => exact .refl _
  | succ fuel ih =>
    rw [siftDown]
    split <;> rename_i h
    · exact .refl _
    · obtain ⟨hc, hle, -⟩ := smallerChild_cases arena size heap i h
      split
      · exact (ih _ _ (by omega)).trans (slots_heapSwap_perm heap h1 (by omega) (by omega) hle)
      · exact .refl _

theorem siftDown_form {arena : Table Node} {cap size : Nat} (hs : size ≤ cap) (fuel : Nat) {heap : Table NodeId} {i : Nat}
    (h : HeapForm cap heap) (h1 : 1 ≤ i) : HeapForm cap (siftDown arena size fuel heap i) := by
  induction fuel generalizing heap i with
  | zero => exact h
  | succ fuel ih =>
    rw [siftDown]
    split <;> rename_i hc
    · exact h
    · obtain ⟨hc', hle, -⟩ := smallerChild_cases arena size heap i hc
      split
      · exact ih (h.swap h1 (by omega) (by omega) (by omega)) (by omega)
      · exact h

theorem siftDown_ordered {arena : Table Node} {size : Nat} (fuel : Nat) {heap : Table NodeId} {i : Nat}
    (h : OrderedBelow arena size heap i) (h1 : 1 ≤ i) (hf : size < fuel + i) :
    Ordered arena size (siftDown arena size fuel heap i) := by
  induction fuel generalizing heap i with
  | zero => exact fun j hj hjn => h.others j hj hjn (by omega)
  | succ fuel ih =>
    rw [siftDown]
    simp only [heapKey_lt_iff]
    split <;> rename_i hsz
    · exact fun j hj hjn => h.others j hj hjn (by omega)
    · obtain ⟨hc, hle, hmin⟩ := smallerChild_cases arena size heap i hsz
      generalize smallerChild arena size heap i = c at *
      have hci : c / 2 = i := by omega
      split <;> rename_i hlt
      · refine ih ⟨fun j hj hjn hne => ?_, fun j hj hjn hjc h2c => ?_⟩ (by omega) (by omega)
        · rw [keyNat_heapSwap, keyNat_heapSwap]
          by_cases hjc : j = c
          · rw [hjc, hci, swapSlot_left, swapSlot_right]
            omega
          · by_cases hji : j = i
            · subst hji
              rw [swapSlot_other (by omega : j / 2 ≠ j) (by omega), swapSlot_left]
              exact h.children c (by omega) hle hci hj
            · rw [swapSlot_other hji hjc]
              by_cases hp : j / 2 = i
              · rw [hp, swapSlot_left]
                exact hmin j hj hjn hp
              · rw [swapSlot_other hp hne]
                exact h.others j hj hjn hp
        · have hkj := h.others j hj hjn (by omega)
          rw [hjc] at hkj
          rw [keyNat_heapSwap, keyNat_heapSwap, hci, swapSlot_left, swapSlot_other (by omega) (by omega)]
          exact hkj
      · intro j hj hjn
        by_cases hji : j / 2 = i
        · have := hmin j hj hjn hji
          rw [hji]
          omega
        · exact h.others j hj hjn hji

/-- The root has the least key (R105, R33). -/
theorem Ordered.root_le {arena : Table Node} {size : Nat} {heap : Table NodeId} (h : Ordered arena size heap) (i : Nat)
    (h1 : 1 ≤ i) (h2 : i ≤ size) : keyNat arena heap 1 ≤ keyNat arena heap i := by
  induction i using Nat.strongRecOn with
  | _ i ih =>
    rcases (by omega : i = 1 ∨ 2 ≤ i) with rfl | hi
    · exact le_refl _
    · exact (ih (i / 2) (by omega) (by omega) (by omega)).trans (h i hi h2)

theorem keyNat_set_other (arena : Table Node) (heap : Table NodeId) {i k : Nat} (v : NodeId) (h : k ≠ i) :
    keyNat arena (Table.set 0 heap i v) k = keyNat arena heap k := by
  rw [keyNat, heapKey, Table.get_set_other _ _ h, keyNat, heapKey]

/-- Adding at the end and sifting up keeps the heap invariant. -/
theorem enqueue_ordered {arena : Table Node} {size : Nat} {heap : Table NodeId} (h : Ordered arena size heap)
    (n : NodeId) :
    Ordered arena (size + 1) (siftUp arena (size + 1) (Table.set 0 heap (size + 1) n) (size + 1)) := by
  refine siftUp_ordered _ ⟨fun j hj hjn hne => ?_, fun j hj hjn hji _ => ?_⟩ (by omega) (by omega) (by omega)
  · rw [keyNat_set_other _ _ _ hne, keyNat_set_other _ _ _ (by omega)]
    exact h j hj (by omega)
  · omega

/-- Moving the last node to the root and sifting down keeps the heap invariant. -/
theorem dequeue_ordered {arena : Table Node} {size : Nat} {heap : Table NodeId} (h : Ordered arena (size + 1) heap) :
    Ordered arena size
      (siftDown arena size size (Table.set 0 heap 1 (Table.get 0 heap (size + 1))) 1) := by
  refine siftDown_ordered _ ⟨fun j hj hjn hne => ?_, fun j hj hjn hji h2 => by omega⟩ (by omega) (by omega)
  rw [keyNat_set_other _ _ _ (by omega), keyNat_set_other _ _ _ (by omega)]
  exact h j hj (by omega)

/-! ### enqueue and dequeue on the state -/

theorem heapOrdered_iff (s : State) : s.HeapOrdered ↔ Ordered s.arena s.pqSize.toNat s.heap := Iff.rfl

theorem heapCap_eq : Config.heapCap = 256 := rfl

theorem arenaCap_eq : Config.arenaCap = 511 := rfl

theorem pqSize_add_one {s : State} (h : s.pqSize.toNat < 511) : (s.pqSize + 1).toNat = s.pqSize.toNat + 1 := by
  rw [BitVec.toNat_add]
  exact Nat.mod_eq_of_lt (by simp; omega)

theorem pqSize_sub_one {s : State} (h : s.pqSize ≠ 0) : (s.pqSize - 1).toNat = s.pqSize.toNat - 1 := by
  bv_omega

/-- `enqueue` adds its node to the queue. -/
theorem queueIds_enqueue {s : State} (n : NodeId) (h : s.pqSize.toNat < 511) :
    (enqueue n s).queueIds.Perm (n :: s.queueIds) := by
  rw [queueIds_eq_slots, enqueue_heap, enqueue_pqSize, pqSize_add_one h]
  refine (siftUp_perm _ _ _ _ _ (by omega) (by omega)).trans ?_
  rw [slots_succ, Table.get_set_same, slots_congr (h' := s.heap) fun i h1 h2 => Table.get_set_other _ _ (by omega)]
  exact List.perm_append_singleton _ _

/-- `enqueue` keeps the heap invariant (R110). -/
theorem heapOrdered_enqueue {s : State} (n : NodeId) (h : s.pqSize.toNat < 511) (ho : s.HeapOrdered) :
    (enqueue n s).HeapOrdered := by
  rw [heapOrdered_iff, enqueue_heap, enqueue_pqSize, enqueue_arena, pqSize_add_one h]
  exact enqueue_ordered ho n

theorem heapForm_enqueue {s : State} (n : NodeId) (h : s.pqSize.toNat < Config.heapCap)
    (hf : HeapForm Config.heapCap s.heap) : HeapForm Config.heapCap (enqueue n s).heap := by
  have hcap := heapCap_eq
  have hp := pqSize_add_one (s := s) (by omega)
  rw [enqueue_heap]
  exact siftUp_form _ (hf.set (by omega) (by omega) n) (by omega) (by omega)

theorem dequeueRest_empty {s : State} (h : s.pqSize = 0) : dequeueRest s = s := by rw [dequeueRest, if_pos h]

theorem dequeueRest_pqSize {s : State} (h : s.pqSize ≠ 0) : (dequeueRest s).pqSize = s.pqSize - 1 := by
  rw [dequeueRest, if_neg h]
  split <;> rename_i h1
  · rw [h1]; rfl
  · rfl

theorem toNat_dequeueRest_pqSize {s : State} (h : s.pqSize ≠ 0) :
    (dequeueRest s).pqSize.toNat = s.pqSize.toNat - 1 := by rw [dequeueRest_pqSize h, pqSize_sub_one h]

theorem dequeueTop_eq {s : State} (h : s.pqSize ≠ 0) : dequeueTop s = s.heapAt 1 := by rw [dequeueTop, if_neg h]

/-- The slots after a dequeue are those of the heap sifted down, the queue of one node included. -/
theorem dequeueRest_slots {s : State} (h : s.pqSize ≠ 0) :
    slots (dequeueRest s).heap (s.pqSize.toNat - 1) =
      slots (siftDown s.arena (s.pqSize.toNat - 1) (s.pqSize.toNat - 1)
        (Table.set 0 s.heap 1 (s.heapAt s.pqSize.toNat)) 1) (s.pqSize.toNat - 1) := by
  rw [dequeueRest, if_neg h]
  split <;> rename_i h1
  · simp [h1, slots]
  · rw [pqSize_sub_one h]

/-- `dequeue` takes the root out of the queue (R108). -/
theorem queueIds_dequeue {s : State} (h : s.pqSize ≠ 0) :
    s.queueIds.Perm (dequeueTop s :: (dequeueRest s).queueIds) := by
  have hpos : 0 < s.pqSize.toNat := by bv_omega
  obtain ⟨m, hm⟩ : ∃ m, s.pqSize.toNat = m + 1 := ⟨s.pqSize.toNat - 1, by omega⟩
  rw [dequeueTop_eq h, queueIds_eq_slots, queueIds_eq_slots, toNat_dequeueRest_pqSize h, dequeueRest_slots h, hm,
    Nat.add_sub_cancel]
  refine .trans ?_ (.cons _ (siftDown_perm _ _ _ _ _ (by omega)).symm)
  cases m with
  | zero => simp [slots, State.heapAt]
  | succ m =>
    rw [slots_succ, slots_cons, slots_cons, Table.get_set_same, State.heapAt, State.heapAt, List.cons_append]
    refine .cons _ ?_
    rw [List.map_congr_left (g := fun i => Table.get 0 s.heap (i + 2))
      (fun i _ => Table.get_set_other _ _ (by omega))]
    exact List.perm_append_singleton _ _

/-- `dequeue` keeps the heap invariant (R110). -/
theorem heapOrdered_dequeue {s : State} (ho : s.HeapOrdered) : (dequeueRest s).HeapOrdered := by
  by_cases h : s.pqSize = 0
  · rw [dequeueRest_empty h]
    exact ho
  · intro j hj hjn
    rw [toNat_dequeueRest_pqSize h] at hjn
    have hpos : 0 < s.pqSize.toNat := by bv_omega
    have h1 : s.pqSize ≠ 1 := by
      intro h1
      rw [h1] at hjn
      simp at hjn
      omega
    have := dequeue_ordered (arena := s.arena) (size := s.pqSize.toNat - 1) (heap := s.heap)
      (by rw [Nat.sub_add_cancel hpos]; exact ho) j hj hjn
    rw [Nat.sub_add_cancel hpos] at this
    simpa only [State.keyAt, dequeueRest_arena, dequeueRest, if_neg h, if_neg h1, pqSize_sub_one h, BitVec.le_def,
      State.heapAt, keyNat] using this

theorem heapForm_dequeue {s : State} (hs : s.pqSize.toNat ≤ Config.heapCap) (hf : HeapForm Config.heapCap s.heap) :
    HeapForm Config.heapCap (dequeueRest s).heap := by
  rw [dequeueRest]
  split
  · exact hf
  · split
    · exact hf
    · rename_i h _
      have := pqSize_sub_one h
      have hcap := heapCap_eq
      exact siftDown_form (by omega) _ (hf.set (by omega) (by omega) _) (by omega)

/-- The frequency of a node. -/
theorem keyAt_eq (s : State) (i : Nat) : s.keyAt i = (s.nodeAt (s.heapAt i)).freq := rfl

/-- The node `dequeue` returns has the least frequency in the queue (R108). -/
theorem dequeueTop_le {s : State} (ho : s.HeapOrdered) (h : s.pqSize ≠ 0) {n : NodeId} (hn : n ∈ s.queueIds) :
    (s.nodeAt (dequeueTop s)).freq ≤ (s.nodeAt n).freq := by
  obtain ⟨i, h1, h2, rfl⟩ := mem_slots.mp (queueIds_eq_slots s ▸ hn)
  rw [dequeueTop_eq h, ← keyAt_eq, BitVec.le_def]
  exact Ordered.root_le ho i h1 h2

theorem dequeueTop_mem {s : State} (h : s.pqSize ≠ 0) : dequeueTop s ∈ s.queueIds :=
  (queueIds_dequeue h).mem_iff.mpr (by simp)

theorem mem_queueIds_of_dequeue {s : State} {n : NodeId} (hn : n ∈ (dequeueRest s).queueIds) : n ∈ s.queueIds := by
  by_cases h : s.pqSize = 0
  · rwa [dequeueRest_empty h] at hn
  · exact (queueIds_dequeue h).mem_iff.mpr (by simp [hn])

@[simp] theorem length_queueIds (s : State) : s.queueIds.length = s.pqSize.toNat := by simp [State.queueIds]

theorem queueIds_of_empty {s : State} (h : s.pqSize = 0) : s.queueIds = [] := by simp [State.queueIds, h]

/-! ### Allocation -/

theorem toNat_nextId {s : State} (h : s.nodeCount.toNat ≤ Config.arenaCap) : s.nextId.toNat = s.nodeCount.toNat := by
  have hcap := arenaCap_eq
  rw [State.nextId, BitVec.toNat_setWidth]
  exact Nat.mod_eq_of_lt (by omega)

theorem toNat_allocate_nodeCount {s : State} (nd : Node) (h : s.nodeCount.toNat < Config.arenaCap) :
    (allocate nd s).nodeCount.toNat = s.nodeCount.toNat + 1 := by
  have hcap := arenaCap_eq
  rw [allocate_nodeCount, BitVec.toNat_add]
  exact Nat.mod_eq_of_lt (by simp; omega)

theorem toNat_addNode_nodeCount {s : State} (nd : Node) (h : s.nodeCount.toNat < Config.arenaCap) :
    (addNode nd s).nodeCount.toNat = s.nodeCount.toNat + 1 := toNat_allocate_nodeCount nd h

theorem nodeAt_allocate (nd : Node) (s : State) (n : NodeId) :
    (allocate nd s).nodeAt n = if n = s.nextId then nd else s.nodeAt n := by
  rw [State.nodeAt, allocate_arena, Table.get_set, State.nodeAt]
  by_cases h : n = s.nextId
  · simp [h]
  · rw [if_neg h, if_neg fun e => h (BitVec.eq_of_toNat_eq e)]

theorem nodeAt_addNode (nd : Node) (s : State) (n : NodeId) :
    (addNode nd s).nodeAt n = if n = s.nextId then nd else s.nodeAt n := nodeAt_allocate nd s n

theorem nodeAt_dequeueRest (s : State) (n : NodeId) : (dequeueRest s).nodeAt n = s.nodeAt n := by
  rw [State.nodeAt, dequeueRest_arena, State.nodeAt]

/-- An allocated node is not the next one. -/
theorem ne_nextId {s : State} (h : s.nodeCount.toNat ≤ Config.arenaCap) {n : NodeId} (hn : n.toNat < s.nodeCount.toNat) :
    n ≠ s.nextId := by
  rintro rfl
  rw [toNat_nextId h] at hn
  omega

/-- Allocating a node leaves the keys of the queue alone. -/
theorem heapOrdered_allocate {s : State} (nd : Node) (h : s.QueueOk) : (allocate nd s).HeapOrdered := by
  have key : ∀ i, 1 ≤ i → i ≤ s.pqSize.toNat → (allocate nd s).keyAt i = s.keyAt i := by
    intro i h1 h2
    have hm : s.heapAt i ∈ s.queueIds := queueIds_eq_slots s ▸ mem_slots.mpr ⟨i, h1, h2, rfl⟩
    rw [keyAt_eq, keyAt_eq, show (allocate nd s).heapAt i = s.heapAt i from rfl, nodeAt_allocate,
      if_neg (ne_nextId h.count (h.allocated _ hm))]
  intro j hj hjn
  rw [key _ (by omega) (by simp at hjn; omega), key _ (by omega) hjn]
  exact h.ordered j hj hjn

/-- Allocating a node and enqueueing it keeps the queue in order (R113, R118, R119). -/
theorem queueOk_addNode {s : State} (nd : Node) (h : s.QueueOk) (hs : s.pqSize.toNat < Config.heapCap)
    (hc : s.nodeCount.toNat < Config.arenaCap) : (addNode nd s).QueueOk := by
  have hcap := arenaCap_eq
  have hcap' := heapCap_eq
  have hsz : (allocate nd s).pqSize.toNat < 511 := by simp; omega
  have perm : (addNode nd s).queueIds.Perm (s.nextId :: s.queueIds) := queueIds_enqueue s.nextId hsz
  have hn := toNat_addNode_nodeCount nd hc
  have hid := toNat_nextId h.count
  refine ⟨heapOrdered_enqueue _ hsz (heapOrdered_allocate nd h), ?_, by omega, fun n hmem => ?_, ?_⟩
  · rw [addNode_pqSize, pqSize_add_one (by omega)]
    omega
  · rcases List.mem_cons.mp (perm.mem_iff.mp hmem) with rfl | hmem
    · omega
    · have := h.allocated n hmem
      omega
  · refine perm.nodup_iff.mpr (List.nodup_cons.mpr ⟨fun hmem => ?_, h.once⟩)
    have := h.allocated _ hmem
    omega

/-- A dequeue keeps the queue in order. -/
theorem queueOk_dequeue {s : State} (h : s.QueueOk) : (dequeueRest s).QueueOk := by
  by_cases h0 : s.pqSize = 0
  · rw [dequeueRest_empty h0]
    exact h
  · have perm := queueIds_dequeue h0
    refine ⟨heapOrdered_dequeue h.ordered, ?_, by simpa using h.count, fun n hn => ?_, ?_⟩
    · rw [toNat_dequeueRest_pqSize h0]
      have := h.size
      omega
    · simpa using h.allocated n (mem_queueIds_of_dequeue hn)
    · exact (List.nodup_cons.mp (perm.nodup_iff.mp h.once)).2

/-- An empty queue is in order. -/
theorem queueOk_of_empty {s : State} (h : s.pqSize = 0) (hc : s.nodeCount.toNat ≤ Config.arenaCap) : s.QueueOk := by
  refine ⟨fun j hj hjn => ?_, by simp [h], hc, fun n hn => ?_, ?_⟩
  · rw [h] at hjn
    simp at hjn
    omega
  · rw [queueIds_of_empty h] at hn
    simp at hn
  · rw [queueIds_of_empty h]
    exact List.nodup_nil

end Sys2Proof.Machine
end

