-- ==== Sys2Proof/Laws/Tree.lean ====
section
/-! SUPPORT. BUILD: the frequency table, the numbers of nodes, the forest in the queue and the tree it ends with
(spec/42_tree_builder.md R117 to R123). -/

namespace Sys2Proof.Machine

/-! ### Counting -/

theorem get_countBytes_from (bytes : List Byte) (t : Table Word) (b : Byte) :
    Table.get 0 (bytes.foldl countByte t) b.toNat = Table.get 0 t b.toNat + BitVec.ofNat 32 (bytes.count b) := by
  induction bytes generalizing t with
  | nil => simp
  | cons a rest ih =>
    rw [List.foldl_cons, ih, countByte, Table.get_set, List.count_cons]
    by_cases h : a = b
    · subst h
      simp only [if_pos, beq_self_eq_true]
      rw [BitVec.ofNat_add, BitVec.add_assoc, BitVec.add_comm (BitVec.ofNat 32 _)]
      rfl
    · have h' : b.toNat ≠ a.toNat := fun e => h (BitVec.eq_of_toNat_eq e).symm
      simp [h', h]

/-- FREQ after counting (R117). -/
theorem get_countBytes (bytes : List Byte) (b : Byte) :
    Table.get 0 (countBytes bytes) b.toNat = BitVec.ofNat 32 (bytes.count b) := by
  rw [countBytes, get_countBytes_from]
  simp

@[simp] theorem length_inputBytes (s : State) : s.inputBytes.length = s.inLen.toNat := by simp [State.inputBytes]

/-- No count wraps (R123). -/
theorem toNat_countBytes (s : State) (b : Byte) :
    (Table.get 0 (countBytes s.inputBytes) b.toNat).toNat = s.inputBytes.count b := by
  have h1 : s.inputBytes.count b ≤ s.inLen.toNat := length_inputBytes s ▸ List.count_le_length
  rw [get_countBytes, BitVec.toNat_ofNat, Nat.mod_eq_of_lt]
  have := s.inLen.isLt
  omega

/-- The symbols that take part, as bytes. -/
def symbolList (freq : Table Word) : List Byte := (participants freq).map (BitVec.ofNat 8)

theorem mem_participants {freq : Table Word} {i : Nat} :
    i ∈ participants freq ↔ i < 256 ∧ Table.get 0 freq i ≠ 0 := by simp [participants]

theorem nodup_participants (freq : Table Word) : (participants freq).Nodup := List.nodup_range.filter _

theorem length_participants_le (freq : Table Word) : (participants freq).length ≤ 256 := by
  have := List.length_filter_le (fun sym => Table.get 0 freq sym != 0) (List.range 256)
  simpa [participants] using this

theorem nodup_symbolList (freq : Table Word) : (symbolList freq).Nodup := by
  refine List.Nodup.map_on (fun a ha b hb e => ?_) (nodup_participants freq)
  have ha := (mem_participants.mp ha).1
  have hb := (mem_participants.mp hb).1
  have := congrArg BitVec.toNat e
  simpa [Nat.mod_eq_of_lt, ha, hb] using this

theorem mem_symbolList {freq : Table Word} {b : Byte} : b ∈ symbolList freq ↔ Table.get 0 freq b.toNat ≠ 0 := by
  simp only [symbolList, List.mem_map]
  constructor
  · rintro ⟨i, hi, rfl⟩
    obtain ⟨h1, h2⟩ := mem_participants.mp hi
    rwa [BitVec.toNat_ofNat, Nat.mod_eq_of_lt h1]
  · exact fun h => ⟨b.toNat, mem_participants.mpr ⟨b.isLt, h⟩, by simp⟩

/-- The participating symbols are those of the input (R27, R117). -/
theorem mem_symbolList_countBytes (s : State) (b : Byte) :
    b ∈ symbolList (countBytes s.inputBytes) ↔ b ∈ s.inputBytes := by
  rw [mem_symbolList, ← List.count_pos_iff, ← toNat_countBytes s b, Nat.pos_iff_ne_zero, ne_eq, ne_eq,
    BitVec.toNat_eq]
  rfl

theorem length_participants_countBytes (s : State) :
    (participants (countBytes s.inputBytes)).length = s.inputBytes.toFinset.card := by
  rw [← List.length_map (f := BitVec.ofNat 8), show List.map _ _ = symbolList (countBytes s.inputBytes) from rfl,
    ← List.toFinset_card_of_nodup (nodup_symbolList _)]
  congr 1
  ext b
  rw [List.mem_toFinset, List.mem_toFinset, mem_symbolList_countBytes]

/-- The counts of the participating symbols add up to the length of the input. -/
theorem sum_counts (l : List Byte) (syms : List Byte) (hn : syms.Nodup) (hs : ∀ b, b ∈ syms ↔ b ∈ l) :
    (syms.map fun b => l.count b).sum = l.length := by
  have hp : syms.Perm l.dedup :=
    (List.perm_ext_iff_of_nodup hn (List.nodup_dedup l)).mpr fun b => by rw [hs, List.mem_dedup]
  rw [(hp.map _).sum_eq, List.sum_map_count_dedup_eq_length]

/-! ### How the counts of nodes run -/

/-- `f` lets a predicate through that holds of every node added and every node dequeued, within the capacities. -/
structure QueueClosed (P : State → Prop) : Prop where
  add : ∀ s nd, P s → s.pqSize.toNat < Config.heapCap → s.nodeCount.toNat < Config.arenaCap → P (addNode nd s)
  remove : ∀ s, P s → P (dequeueRest s)

/-- The leaves: each adds one to the queue and one to the arena. -/
theorem foldl_addLeaf_induct {P : State → Prop} (hP : QueueClosed P) (syms : List Nat) (s : State) (h : P s)
    (hq : s.pqSize.toNat + syms.length ≤ 256) (hc : s.nodeCount.toNat + syms.length ≤ 256) :
    P (syms.foldl addLeaf s) ∧ (syms.foldl addLeaf s).pqSize.toNat = s.pqSize.toNat + syms.length ∧
      (syms.foldl addLeaf s).nodeCount.toNat = s.nodeCount.toNat + syms.length := by
  have hcap := arenaCap_eq
  have hcap' := heapCap_eq
  induction syms generalizing s with
  | nil => exact ⟨h, rfl, rfl⟩
  | cons x rest ih =>
    rw [List.length_cons] at hq hc
    have h1 : (addLeaf s x).pqSize.toNat = s.pqSize.toNat + 1 := by
      rw [addLeaf, addNode_pqSize, pqSize_add_one (by omega)]
    have h2 : (addLeaf s x).nodeCount.toNat = s.nodeCount.toNat + 1 := toNat_addNode_nodeCount _ (by omega)
    obtain ⟨a, b, c⟩ := ih (addLeaf s x) (hP.add _ _ h (by omega) (by omega)) (by omega) (by omega)
    rw [List.foldl_cons, List.length_cons]
    exact ⟨a, by omega, by omega⟩

theorem mergeStep_counts {s : State} (hq : 2 ≤ s.pqSize.toNat) (hc : s.nodeCount.toNat < Config.arenaCap) :
    (mergeStep s).pqSize.toNat = s.pqSize.toNat - 1 ∧ (mergeStep s).nodeCount.toNat = s.nodeCount.toNat + 1 := by
  have h0 : s.pqSize ≠ 0 := by bv_omega
  have e0 := toNat_dequeueRest_pqSize h0
  have h1 : (dequeueRest s).pqSize ≠ 0 := by
    intro e
    rw [e] at e0
    simp at e0
    omega
  have e1 := toNat_dequeueRest_pqSize h1
  constructor
  · rw [mergeStep, addNode_pqSize, pqSize_add_one (by omega)]
    omega
  · rw [mergeStep, toNat_addNode_nodeCount _ (by simpa using hc)]
    simp

theorem mergeLoop_induct {P : State → Prop} (hP : ∀ s, P s → 2 ≤ s.pqSize.toNat →
      s.nodeCount.toNat < Config.arenaCap → P (mergeStep s)) (fuel : Nat) (s : State) (h : P s)
    (hf : s.pqSize.toNat ≤ fuel) (hc : s.nodeCount.toNat + s.pqSize.toNat ≤ 512) (hq : s.pqSize.toNat ≤ 256) :
    P (mergeLoop fuel s) ∧ (mergeLoop fuel s).pqSize.toNat = min s.pqSize.toNat 1 ∧
      (mergeLoop fuel s).nodeCount.toNat = s.nodeCount.toNat + (s.pqSize.toNat - 1) := by
  have hcap := arenaCap_eq
  induction fuel generalizing s with
  | zero => exact ⟨h, by simp only [mergeLoop]; omega, by simp only [mergeLoop]; omega⟩
  | succ fuel ih =>
    rw [mergeLoop]
    split <;> rename_i hs
    · obtain ⟨e1, e2⟩ := mergeStep_counts (s := s) (by omega) (by omega)
      obtain ⟨a, b, c⟩ := ih (mergeStep s) (hP s h (by omega) (by omega)) (by omega) (by omega) (by omega)
      exact ⟨a, by omega, by omega⟩
    · exact ⟨h, by omega, by omega⟩

/-- The fuel of `mergeLoop` is no end of the loop (R119). -/
theorem mergeLoop_fuel (f f' : Nat) (s : State) (h : s.pqSize.toNat ≤ f) (h' : s.pqSize.toNat ≤ f')
    (hq : s.pqSize.toNat ≤ 256) (hc : s.nodeCount.toNat + s.pqSize.toNat ≤ 512) : mergeLoop f s = mergeLoop f' s := by
  have hcap := arenaCap_eq
  induction f generalizing f' s with
  | zero =>
    cases f' with
    | zero => rfl
    | succ m => rw [mergeLoop, mergeLoop, if_neg (by omega)]
  | succ n ih =>
    cases f' with
    | zero => rw [mergeLoop, mergeLoop, if_neg (by omega)]
    | succ m =>
      rw [mergeLoop, mergeLoop]
      split
      · obtain ⟨e1, e2⟩ := mergeStep_counts (s := s) (by omega) (by omega)
        exact ih _ _ (by omega) (by omega) (by omega) (by omega)
      · rfl

theorem QueueClosed.mergeStep {P : State → Prop} (hP : QueueClosed P) (s : State) (h : P s) (hq : 2 ≤ s.pqSize.toNat)
    (hc : s.nodeCount.toNat < Config.arenaCap) (hs : s.pqSize.toNat ≤ 256) : P (mergeStep s) := by
  have hcap := heapCap_eq
  have h0 : s.pqSize ≠ 0 := by bv_omega
  have e0 := toNat_dequeueRest_pqSize h0
  have h1 : (dequeueRest s).pqSize ≠ 0 := by
    intro e
    rw [e] at e0
    simp at e0
    omega
  have e1 := toNat_dequeueRest_pqSize h1
  exact hP.add _ _ (hP.remove _ (hP.remove _ h)) (by omega) (by simpa using hc)

theorem withLeaves_induct {P : State → Prop} (hP : QueueClosed P) (s : State) (h : P s.counted.emptyQueue) :
    P s.counted.emptyQueue.withLeaves ∧
      s.counted.emptyQueue.withLeaves.pqSize.toNat = (participants (countBytes s.inputBytes)).length ∧
      s.counted.emptyQueue.withLeaves.nodeCount.toNat = (participants (countBytes s.inputBytes)).length := by
  have hl := length_participants_le (countBytes s.inputBytes)
  have := foldl_addLeaf_induct hP (participants (countBytes s.inputBytes)) s.counted.emptyQueue h (by simpa using hl)
    (by simpa using hl)
  simpa [State.withLeaves] using this

/-- Whatever holds after the queue is emptied, and is kept by adding and removing nodes within the capacities, holds
after the merges. So BUILD never overflows HEAP or ARENA (R122). -/
theorem merged_induct {P : State → Prop} (hP : QueueClosed P) (s : State) (h : P s.counted.emptyQueue) :
    P s.merged ∧ s.merged.pqSize.toNat = min (participants (countBytes s.inputBytes)).length 1 ∧
      s.merged.nodeCount.toNat = (participants (countBytes s.inputBytes)).length +
        ((participants (countBytes s.inputBytes)).length - 1) := by
  have hl := length_participants_le (countBytes s.inputBytes)
  obtain ⟨h1, h2, h3⟩ := withLeaves_induct hP s h
  have := mergeLoop_induct (P := fun t => P t ∧ t.pqSize.toNat ≤ 256)
    (fun t ht hq hc => ⟨hP.mergeStep t ht.1 hq hc ht.2, by have := (mergeStep_counts hq hc).1; omega⟩)
    s.counted.emptyQueue.withLeaves.pqSize.toNat s.counted.emptyQueue.withLeaves ⟨h1, by omega⟩ le_rfl (by omega)
    (by omega)
  change (P s.merged ∧ _) ∧ s.merged.pqSize.toNat = _ ∧ s.merged.nodeCount.toNat = _ at this
  rw [h2, h3] at this
  exact ⟨this.1.1, this.2⟩

/-! ### What BUILD leaves alone -/

/-- `t` differs from `s` in the queue and the arena only. -/
def SameButQueue (s t : State) : Prop :=
  t = { s with arena := t.arena, nodeCount := t.nodeCount, heap := t.heap, pqSize := t.pqSize }

theorem sameButQueue_closed (s : State) : QueueClosed (SameButQueue s) := by
  constructor
  · intro t nd h _ _
    rw [SameButQueue] at h ⊢
    rw [h]
    rfl
  · intro t h
    rw [SameButQueue] at h ⊢
    rw [dequeueRest]
    split
    · exact h
    · split <;> (rw [h])

/-- The whole of what BUILD changes before it takes the root. -/
theorem merged_frame (s : State) : SameButQueue s.counted s.merged :=
  (merged_induct (sameButQueue_closed s.counted) s rfl).1

/-! ### Trees in the arena -/

/-- A tree stays where it is when a node is added. -/
theorem TreeAt.set {arena : Table Node} {n : NodeId} {t : CodeTree} (h : TreeAt arena n t) {k : Nat} (hk : n.toNat < k)
    (nd : Node) : TreeAt (Table.set Node.blank arena k nd) n t := by
  induction h with
  | leaf n h hl hr hn =>
    have e : Table.get Node.blank (Table.set Node.blank arena k nd) n.toNat = Table.get Node.blank arena n.toNat :=
      Table.get_set_other _ _ (by omega)
    have := TreeAt.leaf (arena := Table.set Node.blank arena k nd) n (by rw [e]; exact h) (by rw [e]; exact hl)
      (by rw [e]; exact hr) hn
    rwa [e] at this
  | pair n l r h hs hll hrl hl hr hn ihl ihr =>
    have e : Table.get Node.blank (Table.set Node.blank arena k nd) n.toNat = Table.get Node.blank arena n.toNat :=
      Table.get_set_other _ _ (by omega)
    exact TreeAt.pair n l r (by rw [e]; exact h) (by rw [e]; exact hs) (by rw [e]; exact hll) (by rw [e]; exact hrl)
      (by rw [e]; exact ihl (by omega)) (by rw [e]; exact ihr (by omega)) hn

/-- A node record stands for at most one tree. -/
theorem TreeAt.unique {arena : Table Node} {n : NodeId} {t t' : CodeTree} (h : TreeAt arena n t)
    (h' : TreeAt arena n t') : t = t' := by
  induction h generalizing t' with
  | leaf n h _ _ _ =>
    cases h' with
    | leaf => rfl
    | pair _ _ _ h2 => rw [h] at h2; cases h2
  | pair n l r h hs hll hrl hl hr hn ihl ihr =>
    cases h' with
    | leaf _ h2 => rw [h] at h2; cases h2
    | pair _ _ _ _ _ _ _ hl' hr' => rw [ihl hl', ihr hr']

/-- The sum of the weights of the leaves (R123). -/
def CodeTree.weight (w : Byte → Nat) : CodeTree → Nat
  | .leaf sym => w sym
  | .pair l r => l.weight w + r.weight w

theorem CodeTree.weight_eq (w : Byte → Nat) (t : CodeTree) : t.weight w = (t.symbols.map w).sum := by
  induction t with
  | leaf sym => simp [CodeTree.weight, CodeTree.symbols]
  | pair l r ihl ihr => simp [CodeTree.weight, CodeTree.symbols, ihl, ihr]

/-- The queue holds a forest: each node in it is the root of a tree whose frequency is the weight of its leaves, and the
leaves of all the trees together are `syms`. -/
structure Forest (w : Byte → Nat) (syms : List Byte) (s : State) (f : NodeId → CodeTree) : Prop where
  queue : s.QueueOk
  trees : ∀ n ∈ s.queueIds, TreeAt s.arena n (f n)
  weights : ∀ n ∈ s.queueIds, (s.nodeAt n).freq.toNat = (f n).weight w
  symbols : (s.queueIds.flatMap fun n => (f n).symbols).Perm syms
  last : s.nodeCount ≠ 0 → ∃ n ∈ s.queueIds, n.toNat + 1 = s.nodeCount.toNat

theorem flatMap_congr_mem {l : List NodeId} {f g : NodeId → List Byte} (h : ∀ n ∈ l, f n = g n) :
    l.flatMap f = l.flatMap g := by
  induction l with
  | nil => rfl
  | cons a l ih =>
    rw [List.flatMap_cons, List.flatMap_cons, h a (by simp), ih fun n hn => h n (by simp [hn])]

/-- Adding a tree to a forest: `rest` is what the queue held, `t` the new tree. -/
theorem Forest.add {w : Byte → Nat} {syms : List Byte} {s : State} {f : NodeId → CodeTree} {nd : Node} {t : CodeTree}
    (hq : s.QueueOk) (hs : s.pqSize.toNat < Config.heapCap) (hc : s.nodeCount.toNat < Config.arenaCap)
    (htrees : ∀ n ∈ s.queueIds, TreeAt s.arena n (f n))
    (hweights : ∀ n ∈ s.queueIds, (s.nodeAt n).freq.toNat = (f n).weight w)
    (hsyms : (t.symbols ++ s.queueIds.flatMap fun n => (f n).symbols).Perm syms)
    (ht : TreeAt (addNode nd s).arena s.nextId t) (hw : nd.freq.toNat = t.weight w) :
    Forest w syms (addNode nd s) (Function.update f s.nextId t) := by
  have hcap := arenaCap_eq
  have hcap' := heapCap_eq
  have hid := toNat_nextId hq.count
  have perm : (addNode nd s).queueIds.Perm (s.nextId :: s.queueIds) :=
    queueIds_enqueue (s := allocate nd s) s.nextId (by simp; omega)
  have hne : ∀ n ∈ s.queueIds, n ≠ s.nextId := fun n hn => ne_nextId hq.count (hq.allocated n hn)
  refine ⟨queueOk_addNode nd hq hs hc, fun n hn => ?_, fun n hn => ?_, ?_, fun _ => ⟨s.nextId, ?_, ?_⟩⟩
  · rcases List.mem_cons.mp (perm.mem_iff.mp hn) with rfl | hn
    · rwa [Function.update_self]
    · rw [Function.update_of_ne (hne n hn), addNode_arena]
      exact (htrees n hn).set (by have := hq.allocated n hn; omega) nd
  · rw [nodeAt_addNode]
    rcases List.mem_cons.mp (perm.mem_iff.mp hn) with rfl | hn
    · rw [if_pos rfl, Function.update_self, hw]
    · rw [if_neg (hne n hn), Function.update_of_ne (hne n hn), hweights n hn]
  · refine (perm.flatMap_right _).trans ?_
    rw [List.flatMap_cons, Function.update_self,
      flatMap_congr_mem (g := fun n => (f n).symbols) fun n hn => by rw [Function.update_of_ne (hne n hn)]]
    exact hsyms
  · exact perm.mem_iff.mpr (by simp)
  · rw [toNat_addNode_nodeCount nd hc, hid]

/-- The leaf of one more symbol. -/
theorem Forest.addLeaf {w : Byte → Nat} {syms : List Byte} {s : State} {f : NodeId → CodeTree} (h : Forest w syms s f)
    (i : Nat) (hs : s.pqSize.toNat < Config.heapCap) (hc : s.nodeCount.toNat < Config.arenaCap)
    (hw : (s.freqAt i).toNat = w (BitVec.ofNat 8 i)) :
    Forest w (BitVec.ofNat 8 i :: syms) (addLeaf s i)
      (Function.update f s.nextId (.leaf (BitVec.ofNat 8 i))) := by
  have hcap := arenaCap_eq
  refine Forest.add h.queue hs hc h.trees h.weights ?_ ?_ hw
  · exact List.Perm.cons _ h.symbols
  · have hid := toNat_nextId h.queue.count
    have e : Table.get Node.blank (addNode (Node.ofLeaf (BitVec.ofNat 8 i) (s.freqAt i)) s).arena s.nextId.toNat =
        Node.ofLeaf (BitVec.ofNat 8 i) (s.freqAt i) := by rw [addNode_arena, Table.get_set_same]
    have := TreeAt.leaf (arena := (addNode (Node.ofLeaf (BitVec.ofNat 8 i) (s.freqAt i)) s).arena) s.nextId
      (by rw [e]; rfl) (by rw [e]; rfl) (by rw [e]; rfl) (fun hn => by rw [hn] at hid; simp at hid; omega)
    rw [e] at this
    exact this

/-- One merge of the forest (R119). -/
theorem Forest.mergeStep {w : Byte → Nat} {syms : List Byte} {s : State} {f : NodeId → CodeTree} (h : Forest w syms s f)
    (hq : 2 ≤ s.pqSize.toNat) (hc : s.nodeCount.toNat < Config.arenaCap) (hw : (syms.map w).sum < 2 ^ 32) :
    ∃ g, Forest w syms (mergeStep s) g := by
  have hcap := arenaCap_eq
  have hcap' := heapCap_eq
  have h0 : s.pqSize ≠ 0 := by bv_omega
  have e0 := toNat_dequeueRest_pqSize h0
  have h1 : (dequeueRest s).pqSize ≠ 0 := by
    intro e
    rw [e] at e0
    simp at e0
    omega
  have e1 := toNat_dequeueRest_pqSize h1
  have p0 := queueIds_dequeue h0
  have p1 := queueIds_dequeue h1
  have hq2 := queueOk_dequeue (queueOk_dequeue h.queue)
  have sub : ∀ n ∈ (dequeueRest (dequeueRest s)).queueIds, n ∈ s.queueIds := fun n hn =>
    mem_queueIds_of_dequeue (mem_queueIds_of_dequeue hn)
  have ha : dequeueTop s ∈ s.queueIds := dequeueTop_mem h0
  have hb : dequeueTop (dequeueRest s) ∈ s.queueIds := mem_queueIds_of_dequeue (dequeueTop_mem h1)
  have hsz := h.queue.size
  have hid : (dequeueRest (dequeueRest s)).nextId.toNat = s.nodeCount.toNat := by
    rw [toNat_nextId hq2.count]; simp
  have perm : s.queueIds.Perm
      (dequeueTop s :: dequeueTop (dequeueRest s) :: (dequeueRest (dequeueRest s)).queueIds) :=
    p0.trans (.cons _ p1)
  have hsyms : ((f (dequeueTop s)).symbols ++ ((f (dequeueTop (dequeueRest s))).symbols ++
      (dequeueRest (dequeueRest s)).queueIds.flatMap fun n => (f n).symbols)).Perm syms := by
    have := (perm.flatMap_right fun n => (f n).symbols).symm.trans h.symbols
    simpa only [List.flatMap_cons] using this
  have hsum : (f (dequeueTop s)).weight w + (f (dequeueTop (dequeueRest s))).weight w ≤ (syms.map w).sum := by
    rw [← (hsyms.map w).sum_eq, CodeTree.weight_eq, CodeTree.weight_eq]
    simp only [List.map_append, List.sum_append]
    omega
  have hwa := h.weights _ ha
  have hwb := h.weights _ hb
  refine ⟨_, Forest.add (t := .pair (f (dequeueTop s)) (f (dequeueTop (dequeueRest s)))) hq2 (by omega) (by simpa using hc)
    (fun n hn => by simpa using h.trees n (sub n hn))
    (fun n hn => by simpa only [nodeAt_dequeueRest] using h.weights n (sub n hn)) ?_ ?_ ?_⟩
  · simpa only [CodeTree.symbols, List.append_assoc] using hsyms
  · refine TreeAt.pair _ _ _ ?_ ?_ ?_ ?_ ?_ ?_ (fun hn => by rw [hn] at hid; simp at hid; omega) <;>
      rw [addNode_arena, Table.get_set_same] <;>
      simp only [Node.ofPair, dequeueRest_arena]
    · have := h.queue.allocated _ ha
      omega
    · have := h.queue.allocated _ hb
      omega
    · exact (h.trees _ ha).set (by have := h.queue.allocated _ ha; omega) _
    · exact (h.trees _ hb).set (by have := h.queue.allocated _ hb; omega) _
  · simp only [Node.ofPair, nodeAt_dequeueRest, BitVec.toNat_add, CodeTree.weight]
    rw [hwa, hwb, Nat.mod_eq_of_lt (by omega)]

theorem forest_empty (w : Byte → Nat) {s : State} (hp : s.pqSize = 0) (hc : s.nodeCount = 0)
    (f : NodeId → CodeTree) : Forest w [] s f := by
  refine ⟨queueOk_of_empty hp (by simp [hc]), ?_, ?_, ?_, fun h => absurd hc h⟩ <;>
    simp [queueIds_of_empty hp]

/-- The leaves of BUILD are a forest (R118). -/
theorem forest_leaves (w : Byte → Nat) (syms : List Nat) (done : List Byte) (s : State) (f : NodeId → CodeTree)
    (h : Forest w done s f) (hq : s.pqSize.toNat + syms.length ≤ 256) (hc : s.nodeCount.toNat + syms.length ≤ 256)
    (hw : ∀ i ∈ syms, (s.freqAt i).toNat = w (BitVec.ofNat 8 i)) :
    ∃ g, Forest w ((syms.map (BitVec.ofNat 8)).reverse ++ done) (syms.foldl Machine.addLeaf s) g := by
  have hcap := arenaCap_eq
  have hcap' := heapCap_eq
  induction syms generalizing s f done with
  | nil => exact ⟨f, h⟩
  | cons x rest ih =>
    rw [List.length_cons] at hq hc
    have h1 : (Machine.addLeaf s x).pqSize.toNat = s.pqSize.toNat + 1 := by
      rw [Machine.addLeaf, addNode_pqSize, pqSize_add_one (by omega)]
    have h2 : (Machine.addLeaf s x).nodeCount.toNat = s.nodeCount.toNat + 1 := toNat_addNode_nodeCount _ (by omega)
    obtain ⟨g, hg⟩ := ih _ _ _ (h.addLeaf x (by omega) (by omega) (hw x (by simp))) (by omega) (by omega)
      (fun i hi => hw i (by simp [hi]))
    exact ⟨g, by simpa using hg⟩

/-- The tree BUILD ends with (R120, R122): one node in the queue, the last one allocated, whose leaves are the
participating symbols and whose frequency is the length of the input. -/
theorem merged_tree (s : State) (h : s.inLen ≠ 0) :
    ∃ t, s.merged.pqSize = 1 ∧ TreeAt s.merged.arena (dequeueTop s.merged) t ∧
      t.symbols.Perm (symbolList (countBytes s.inputBytes)) ∧
      (dequeueTop s.merged).toNat + 1 = s.merged.nodeCount.toNat ∧
      (s.merged.nodeAt (dequeueTop s.merged)).freq = s.inLen := by
  have hcap := arenaCap_eq
  have hl := length_participants_le (countBytes s.inputBytes)
  have hsum : ((symbolList (countBytes s.inputBytes)).map fun b => s.inputBytes.count b).sum = s.inLen.toNat := by
    rw [sum_counts _ _ (nodup_symbolList _) (mem_symbolList_countBytes s), length_inputBytes]
  have hpos : 0 < (participants (countBytes s.inputBytes)).length := by
    rw [length_participants_countBytes, Finset.card_pos]
    have : 0 < s.inputBytes.length := by rw [length_inputBytes]; bv_omega
    exact ⟨s.inputBytes[0], by simp⟩
  obtain ⟨g, hg⟩ := forest_leaves (fun b => s.inputBytes.count b) (participants (countBytes s.inputBytes)) []
    s.counted.emptyQueue (fun _ => .leaf 0) (forest_empty _ rfl rfl _) (by simpa using hl) (by simpa using hl)
    (fun i hi => by
      have hi := (mem_participants.mp hi).1
      have := toNat_countBytes s (BitVec.ofNat 8 i)
      rw [BitVec.toNat_ofNat, Nat.mod_eq_of_lt hi] at this
      exact this)
  have hwl := withLeaves_induct (P := fun _ => True) ⟨fun _ _ _ _ _ => trivial, fun _ _ => trivial⟩ s trivial
  have hperm : ((participants (countBytes s.inputBytes)).map (BitVec.ofNat 8)).reverse.Perm
      (symbolList (countBytes s.inputBytes)) := List.reverse_perm _
  rw [List.append_nil] at hg
  have hm := mergeLoop_induct (P := fun t => ∃ g, Forest (fun b => s.inputBytes.count b)
      ((participants (countBytes s.inputBytes)).map (BitVec.ofNat 8)).reverse t g)
    (fun t ⟨g, hg⟩ hq hc => hg.mergeStep hq hc (by
      rw [(hperm.map _).sum_eq, hsum]
      exact s.inLen.isLt))
    s.counted.emptyQueue.withLeaves.pqSize.toNat s.counted.emptyQueue.withLeaves ⟨g, hg⟩ le_rfl (by omega) (by omega)
  obtain ⟨⟨g, hg⟩, hsz, hnc⟩ := hm
  change Forest _ _ s.merged g at hg
  change s.merged.pqSize.toNat = _ at hsz
  change s.merged.nodeCount.toNat = _ at hnc
  have hone : s.merged.pqSize = 1 := by
    apply BitVec.eq_of_toNat_eq
    rw [hsz, hwl.2.1]
    simp
    omega
  have h0 : s.merged.pqSize ≠ 0 := by rw [hone]; decide
  have hids : s.merged.queueIds = [dequeueTop s.merged] := by
    have p := queueIds_dequeue h0
    have : (dequeueRest s.merged).queueIds = [] := by
      apply List.eq_nil_of_length_eq_zero
      rw [length_queueIds, toNat_dequeueRest_pqSize h0, hone]
      rfl
    rw [this] at p
    exact List.perm_singleton.mp p
  have hmem : dequeueTop s.merged ∈ s.merged.queueIds := dequeueTop_mem h0
  have hsy := hg.symbols
  rw [hids] at hsy
  simp only [List.flatMap_cons, List.flatMap_nil, List.append_nil] at hsy
  refine ⟨g (dequeueTop s.merged), hone, hg.trees _ hmem, hsy.trans hperm, ?_, ?_⟩
  · obtain ⟨n, hn, hne⟩ := hg.last (by
      intro e
      rw [e] at hnc
      simp at hnc
      omega)
    rw [hids] at hn
    rw [← List.mem_singleton.mp hn]
    exact hne
  · apply BitVec.eq_of_toNat_eq
    rw [hg.weights _ hmem, CodeTree.weight_eq, ((hsy.trans hperm).map _).sum_eq, hsum]

end Sys2Proof.Machine
end

