-- ==== Sys2Proof/Laws/CodeGen.lean ====
section
/-! SUPPORT. GENCODES: the walk gives the codes of the tree, the tables hold them, and BITCNT is the length of the
payload (spec/43_code_generator.md R126 to R130). -/

namespace Sys2Proof.Machine

/-! ### The walk -/

/-- The walk from a node that stands for a tree gives the codes of the tree (R127). -/
theorem walk_of_tree {arena : Table Node} {n : NodeId} {t : CodeTree} (h : TreeAt arena n t) (fuel : Nat) (p : List Bool)
    (hf : n.toNat < fuel) : walk arena fuel n p = some (t.codesFrom p) := by
  induction h generalizing fuel p with
  | leaf n h hl hr hn =>
    obtain ⟨m, rfl⟩ : ∃ m, fuel = m + 1 := ⟨fuel - 1, by omega⟩
    simp [walk, h, CodeTree.codesFrom]
  | pair n l r h hs hll hrl hl hr hn ihl ihr =>
    obtain ⟨m, rfl⟩ : ∃ m, fuel = m + 1 := ⟨fuel - 1, by omega⟩
    simp [walk, h, ihl m (p ++ [false]) (by omega), ihr m (p ++ [true]) (by omega), CodeTree.codesFrom]

/-- The fuel of a walk is enough for every tree. -/
theorem walk_root {s : State} {t : CodeTree} (h : TreeAt s.arena s.root t) :
    walk s.arena walkFuel s.root [] = some t.codes := walk_of_tree h _ _ s.root.isLt

/-! ### The codes of a tree -/

theorem CodeTree.map_fst_codesFrom (t : CodeTree) (p : List Bool) : (t.codesFrom p).map Prod.fst = t.symbols := by
  induction t generalizing p with
  | leaf sym => rfl
  | pair l r ihl ihr => simp [CodeTree.codesFrom, CodeTree.symbols, ihl, ihr]

theorem CodeTree.map_fst_codes (t : CodeTree) : t.codes.map Prod.fst = t.symbols := t.map_fst_codesFrom []

theorem CodeTree.symbols_ne_nil (t : CodeTree) : t.symbols ≠ [] := by
  induction t with
  | leaf sym => simp [CodeTree.symbols]
  | pair l r ihl _ => simp [CodeTree.symbols, ihl]

theorem CodeTree.length_symbols_pos (t : CodeTree) : 0 < t.symbols.length :=
  List.length_pos_iff.mpr t.symbols_ne_nil

theorem leafCode_of_ne {p : List Bool} (h : p ≠ []) : leafCode p = p := by
  rw [leafCode, if_neg (by simpa using h)]

theorem leafCode_length_pos (p : List Bool) : 0 < (leafCode p).length := by
  cases p with
  | nil => exact Nat.one_pos
  | cons b p => exact Nat.succ_pos _

theorem CodeTree.code_pos {t : CodeTree} {p : List Bool} {c : Byte × List Bool} (h : c ∈ t.codesFrom p) :
    0 < c.2.length := by
  induction t generalizing p with
  | leaf sym =>
    simp only [CodeTree.codesFrom, List.mem_singleton] at h
    rw [h]
    exact leafCode_length_pos p
  | pair l r ihl ihr =>
    rcases List.mem_append.mp h with h | h
    · exact ihl h
    · exact ihr h

/-- Below a path that is not empty, a code is the path continued, by fewer bits than the tree has leaves (R130). -/
theorem CodeTree.code_length_of_ne {t : CodeTree} {p : List Bool} (hp : p ≠ []) {c : Byte × List Bool}
    (h : c ∈ t.codesFrom p) : c.2.length + 1 ≤ p.length + t.symbols.length := by
  induction t generalizing p with
  | leaf sym =>
    simp only [CodeTree.codesFrom, List.mem_singleton] at h
    simp [h, leafCode_of_ne hp, CodeTree.symbols]
  | pair l r ihl ihr =>
    have hl := l.length_symbols_pos
    have hr := r.length_symbols_pos
    simp only [CodeTree.symbols, List.length_append]
    rcases List.mem_append.mp h with h | h
    · have := ihl (by simp) h
      simp at this
      omega
    · have := ihr (by simp) h
      simp at this
      omega

/-- A code of a tree with at least two leaves is shorter than their number; a lone leaf has a code of one bit (R128,
R130). -/
theorem CodeTree.code_length {t : CodeTree} {c : Byte × List Bool} (h : c ∈ t.codes) :
    (t.symbols.length = 1 ∧ c.2 = [false]) ∨ (2 ≤ t.symbols.length ∧ c.2.length + 1 ≤ t.symbols.length) := by
  cases t with
  | leaf sym =>
    simp only [CodeTree.codes, CodeTree.codesFrom, List.mem_singleton] at h
    exact .inl ⟨rfl, by rw [h]; rfl⟩
  | pair l r =>
    have hl := l.length_symbols_pos
    have hr := r.length_symbols_pos
    refine .inr ?_
    simp only [CodeTree.symbols, List.length_append]
    refine ⟨by omega, ?_⟩
    rcases List.mem_append.mp h with h | h
    · have := CodeTree.code_length_of_ne (by simp) h
      simp at this
      omega
    · have := CodeTree.code_length_of_ne (by simp) h
      simp at this
      omega

theorem length_le_of_nodup_bytes {l : List Byte} (h : l.Nodup) : l.length ≤ 256 := by
  have h1 := List.Nodup.length_le_card h
  rwa [Fintype.card_congr (BitVec.equivFin (m := 8)).toEquiv, Fintype.card_fin] at h1

/-- No code is longer than MAX_CODE_LEN (R6, R130). -/
theorem CodeTree.code_length_le {t : CodeTree} (hn : t.symbols.Nodup) {c : Byte × List Bool} (h : c ∈ t.codes) :
    c.2.length ≤ 255 := by
  have := length_le_of_nodup_bytes hn
  rcases CodeTree.code_length h with ⟨-, h⟩ | ⟨-, h⟩
  · simp [h]
  · omega

/-! ### The tables -/

/-- Recording values under different keys. -/
theorem get_foldl_set {α β : Type} [DecidableEq α] {d : α} (g : β → α) (codes : List (Byte × β))
    (hn : (codes.map Prod.fst).Nodup) (t : Table α) (sym : Byte) :
    Table.get d (codes.foldl (fun t c => Table.set d t c.1.toNat (g c.2)) t) sym.toNat =
      match codes.find? (fun c => c.1 = sym) with
      | some c => g c.2
      | none => Table.get d t sym.toNat := by
  induction codes generalizing t with
  | nil => rfl
  | cons c rest ih =>
    rw [List.map_cons, List.nodup_cons] at hn
    rw [List.foldl_cons, ih hn.2, List.find?_cons]
    by_cases h : c.1 = sym
    · have : rest.find? (fun c => c.1 = sym) = none := by
        rw [List.find?_eq_none]
        intro x hx e
        exact hn.1 (List.mem_map.mpr ⟨x, hx, by simpa [h] using e⟩)
      simp [h, this]
    · have h' : sym.toNat ≠ c.1.toNat := fun e => h (BitVec.eq_of_toNat_eq e).symm
      simp only [h, decide_false]
      rw [Table.get_set_other _ _ h']

theorem find?_of_mem {β : Type} {codes : List (Byte × β)} (hn : (codes.map Prod.fst).Nodup) {c : Byte × β} (h : c ∈ codes) :
    codes.find? (fun x => x.1 = c.1) = some c := by
  induction codes with
  | nil => simp at h
  | cons x rest ih =>
    rw [List.map_cons, List.nodup_cons] at hn
    rcases List.mem_cons.mp h with rfl | h
    · simp
    · have : x.1 ≠ c.1 := fun e => hn.1 (List.mem_map.mpr ⟨c, h, e.symm⟩)
      rw [List.find?_cons]
      simp [this, ih hn.2 h]

theorem find?_of_not_mem {β : Type} {codes : List (Byte × β)} {sym : Byte} (h : sym ∉ codes.map Prod.fst) :
    codes.find? (fun x => x.1 = sym) = none := by
  rw [List.find?_eq_none]
  exact fun x hx e => h (List.mem_map.mpr ⟨x, hx, by simpa using e⟩)

theorem testBit_lsbFirst (c : List Bool) (k : Nat) : (lsbFirst c).testBit k = c.getD k false := by
  induction c generalizing k with
  | nil => simp [lsbFirst]
  | cons b rest ih =>
    cases k with
    | zero => cases b <;> simp [lsbFirst, Nat.testBit_zero, Nat.add_mod]
    | succ k =>
      rw [List.getD_cons_succ, ← ih, lsbFirst, Nat.testBit_succ]
      congr 1
      cases b <;> simp [Bool.toNat]; omega

/-- A code of at most 255 bits is read back from its length and its bits. -/
theorem code_readback (c : List Bool) (h : c.length ≤ 255) :
    (List.range (BitVec.ofNat 8 c.length).toNat).map (fun k => (BitVec.ofNat 255 (lsbFirst c)).getLsbD k) = c := by
  rw [BitVec.toNat_ofNat, Nat.mod_eq_of_lt (by omega)]
  refine List.ext_getElem (by simp) fun i h1 h2 => ?_
  simp only [List.getElem_map, List.getElem_range, BitVec.getLsbD_ofNat, testBit_lsbFirst]
  have : i < 255 := by omega
  simp [this, h2]

theorem codeOf_withCodes_mem {s : State} {codes : List (Byte × List Bool)} (hn : (codes.map Prod.fst).Nodup)
    {c : Byte × List Bool} (h : c ∈ codes) (hl : c.2.length ≤ 255) : (s.withCodes codes).codeOf c.1 = c.2 := by
  rw [State.codeOf, State.codeLenAt, State.codeBitsAt, State.withCodes_codeLen, State.withCodes_codeBits, codeLengths,
    codeBitStrings, get_foldl_set (fun p => BitVec.ofNat 8 p.length) codes hn,
    get_foldl_set (fun p => BitVec.ofNat 255 (lsbFirst p)) codes hn, find?_of_mem hn h]
  exact code_readback c.2 hl

theorem codeLenAt_withCodes_not_mem {s : State} {codes : List (Byte × List Bool)} (hn : (codes.map Prod.fst).Nodup)
    {sym : Byte} (h : sym ∉ codes.map Prod.fst) : (s.withCodes codes).codeLenAt sym.toNat = 0 := by
  rw [State.codeLenAt, State.withCodes_codeLen, codeLengths,
    get_foldl_set (fun p => BitVec.ofNat 8 p.length) codes hn, find?_of_not_mem h]
  rfl

theorem codeOf_withCodes_not_mem {s : State} {codes : List (Byte × List Bool)} (hn : (codes.map Prod.fst).Nodup)
    {sym : Byte} (h : sym ∉ codes.map Prod.fst) : (s.withCodes codes).codeOf sym = [] := by
  rw [State.codeOf, codeLenAt_withCodes_not_mem hn h]
  rfl

@[simp] theorem length_codeOf (s : State) (sym : Byte) : (s.codeOf sym).length = (s.codeLenAt sym.toNat).toNat := by
  simp [State.codeOf]

/-- A bit of a code, 0 beyond its end (R35, R85). -/
theorem bitAt_codeOf (s : State) (sym : Byte) (k : Nat) : bitAt (s.codeOf sym) k =
    (decide (k < (s.codeLenAt sym.toNat).toNat) && (s.codeBitsAt sym.toNat).getLsbD k) := by
  rw [bitAt, State.codeOf]
  by_cases h : k < (s.codeLenAt sym.toNat).toNat <;> simp [h, List.getD_eq_getElem?_getD]

/-- The bits of CODE_BITS from CODE_LEN on are 0 (R35). -/
theorem codeBits_above {s : State} {codes : List (Byte × List Bool)} (hn : (codes.map Prod.fst).Nodup)
    (hl : ∀ c ∈ codes, c.2.length ≤ 255) (sym : Byte) (k : Nat)
    (hk : ((s.withCodes codes).codeLenAt sym.toNat).toNat ≤ k) :
    ((s.withCodes codes).codeBitsAt sym.toNat).getLsbD k = false := by
  rw [State.codeBitsAt, State.withCodes_codeBits, codeBitStrings,
    get_foldl_set (fun p => BitVec.ofNat 255 (lsbFirst p)) codes hn]
  by_cases hm : sym ∈ codes.map Prod.fst
  · obtain ⟨c, hc, rfl⟩ := List.mem_map.mp hm
    have hlen := hl c hc
    rw [State.codeLenAt, State.withCodes_codeLen, codeLengths,
      get_foldl_set (fun p => BitVec.ofNat 8 p.length) codes hn, find?_of_mem hn hc] at hk
    rw [find?_of_mem hn hc]
    simp only [BitVec.toNat_ofNat] at hk
    rw [Nat.mod_eq_of_lt (by omega)] at hk
    simp only [BitVec.getLsbD_ofNat, testBit_lsbFirst]
    simp [List.getD_eq_getElem?_getD, List.getElem?_eq_none hk]
  · rw [find?_of_not_mem hm]
    simp [Table.get]

/-! ### BITCNT -/

theorem sum_range_indicator (b : Byte) (g : Nat → Nat) :
    ((List.range 256).map fun i => if BitVec.ofNat 8 i = b then g i else 0).sum = g b.toNat := by
  have h : ∀ n, ((List.range n).map fun i => if i = b.toNat then g i else 0).sum =
      if b.toNat < n then g b.toNat else 0 := by
    intro n
    induction n with
    | zero => simp
    | succ n ih =>
      rw [List.range_succ, List.map_append, List.sum_append, ih]
      by_cases h1 : n = b.toNat
      · simp [h1]
      · by_cases h2 : b.toNat < n
        · simp [h1, h2, Nat.lt_succ_of_lt h2]
        · simp [h1, h2]
          omega
  refine Eq.trans (congrArg List.sum (List.map_congr_left fun i hi => ?_)) ((h 256).trans (if_pos b.isLt))
  have hi : i < 256 := List.mem_range.mp hi
  have : BitVec.ofNat 8 i = b ↔ i = b.toNat := by
    constructor
    · rintro rfl
      simp [Nat.mod_eq_of_lt hi]
    · rintro rfl
      simp
  simp only [this]

/-- Adding up over the input is adding up over the symbols, each as often as it occurs (R129). -/
theorem sum_over_symbols (l : List Byte) (g : Nat → Nat) :
    ((List.range 256).map fun i => l.count (BitVec.ofNat 8 i) * g i).sum = (l.map fun b => g b.toNat).sum := by
  induction l with
  | nil =>
    refine List.sum_eq_zero fun x hx => ?_
    obtain ⟨i, -, rfl⟩ := List.mem_map.mp hx
    exact Nat.zero_mul _
  | cons b rest ih =>
    rw [List.map_cons, List.sum_cons, ← ih, ← sum_range_indicator b g, ← List.sum_map_add]
    refine congrArg List.sum (List.map_congr_left fun i _ => ?_)
    rw [List.count_cons]
    by_cases h : b = BitVec.ofNat 8 i
    · simp [h, Nat.add_mul, Nat.add_comm]
    · have h' : ¬ BitVec.ofNat 8 i = b := fun e => h e.symm
      simp [h, h']

theorem length_flatMap_codes (s : State) (l : List Byte) :
    (l.flatMap s.codeOf).length = (l.map fun b => (s.codeLenAt b.toNat).toNat).sum := by
  rw [List.length_flatMap]
  simp

/-- BITCNT is the exact number of payload bits (R129). -/
theorem toNat_payloadBits (s : State)
    (hf : ∀ sym : Byte, (s.freqAt sym.toNat).toNat = s.inputBytes.count sym) :
    (payloadBits s.freq s.codeLen).toNat = s.payload.length := by
  have e : ((List.range Config.symbols).map fun sym =>
      (Table.get 0 s.freq sym).toNat * (Table.get 0 s.codeLen sym).toNat).sum = s.payload.length := by
    rw [State.payload, length_flatMap_codes, ← sum_over_symbols s.inputBytes fun i => (s.codeLenAt i).toNat]
    refine congrArg List.sum (List.map_congr_left fun i hi => ?_)
    have hi : i < 256 := List.mem_range.mp hi
    have := hf (BitVec.ofNat 8 i)
    rw [BitVec.toNat_ofNat, Nat.mod_eq_of_lt hi] at this
    rw [← this]
    rfl
  have hb : s.payload.length ≤ s.inLen.toNat * 255 := by
    rw [State.payload, length_flatMap_codes, ← length_inputBytes]
    have : ∀ l : List Byte, (l.map fun b => (s.codeLenAt b.toNat).toNat).sum ≤ l.length * 255 := by
      intro l
      induction l with
      | nil => simp
      | cons b rest ih =>
        have := (s.codeLenAt b.toNat).isLt
        rw [List.map_cons, List.sum_cons, List.length_cons]
        omega
    exact this _
  have hi := s.inLen.isLt
  rw [payloadBits, e, BitVec.toNat_ofNat, Nat.mod_eq_of_lt (by omega)]

theorem inputBytes_withCodes (s : State) (codes : List (Byte × List Bool)) :
    (s.withCodes codes).inputBytes = s.inputBytes := rfl

/-- The code table GENCODES leaves is that of the tree (R35, R127 to R129). -/
theorem codesOk_withCodes {s : State} {t : CodeTree} (hn : t.symbols.Nodup)
    (hf : ∀ sym : Byte, (s.freqAt sym.toNat).toNat = s.inputBytes.count sym) : (s.withCodes t.codes).CodesOk t := by
  have hk : (t.codes.map Prod.fst).Nodup := by rwa [t.map_fst_codes]
  refine ⟨fun c hc => codeOf_withCodes_mem hk hc (CodeTree.code_length_le hn hc), fun sym hs => ?_, ?_⟩
  · exact codeOf_withCodes_not_mem hk (by rwa [t.map_fst_codes])
  · exact toNat_payloadBits (s.withCodes t.codes) hf

end Sys2Proof.Machine
end

