-- ==== Sys2Proof/Laws/Codec.lean ====
section
/-! SUPPORT. EMIT: the bytes of the tree, the length of the stream and the bytes read back from OUTBUF
(spec/44_codec_emit.md R132 to R138). -/

namespace Sys2Proof.Machine

/-! ### The tree part -/

/-- The bytes written from a node that stands for a tree are the bytes of the tree (R133). -/
theorem treeBytes_of_tree {arena : Table Node} {n : NodeId} {t : CodeTree} (h : TreeAt arena n t) (fuel : Nat)
    (hf : n.toNat + 1 < fuel) : treeBytes arena fuel n = some t.bytes := by
  induction h generalizing fuel with
  | leaf n h hl hr hn =>
    obtain ⟨m, rfl⟩ : ∃ m, fuel = m + 2 := ⟨fuel - 2, by omega⟩
    simp [treeBytes, hn, hl, hr, CodeTree.bytes]
  | pair n l r h hs hll hrl hl hr hn ihl ihr =>
    obtain ⟨m, rfl⟩ : ∃ m, fuel = m + 1 := ⟨fuel - 1, by omega⟩
    simp [treeBytes, hn, hs, ihl m (by omega), ihr m (by omega), CodeTree.bytes]

theorem TreeAt.ne_none {arena : Table Node} {n : NodeId} {t : CodeTree} (h : TreeAt arena n t) : n ≠ Config.noNode := by
  cases h <;> assumption

/-- The fuel of the serialisation is enough for every tree. -/
theorem treeBytes_root {s : State} {t : CodeTree} (h : TreeAt s.arena s.root t) :
    treeBytes s.arena walkFuel s.root = some t.bytes := by
  refine treeBytes_of_tree h _ ?_
  have h1 := s.root.isLt
  have h2 : s.root.toNat ≠ 511 := fun e => h.ne_none (BitVec.eq_of_toNat_eq e)
  simp only [walkFuel]
  omega

/-- The tree part is 6*NSYM - 2 bytes long (R134). -/
theorem CodeTree.length_bytes (t : CodeTree) : t.bytes.length + 2 = 6 * t.symbols.length := by
  induction t with
  | leaf sym => rfl
  | pair l r ihl ihr =>
    simp only [CodeTree.bytes, CodeTree.symbols, List.length_append, List.length_cons, List.length_nil]
    omega

theorem CodeTree.length_bytes_pos (t : CodeTree) : 0 < t.bytes.length := by
  have h1 := t.length_bytes
  have h2 := t.length_symbols_pos
  omega

/-! ### The stream -/

@[simp] theorem length_pack (bits : List Bool) : (pack bits).length = bytesFor bits.length := by simp [pack]

@[simp] theorem length_le64 (x : BitVec 64) : (le64 x).length = 8 := by simp [le64]

/-- The length of the stream (R137). -/
theorem length_stream (s : State) (tree : List Byte) :
    (s.stream tree).length = tree.length + 8 + bytesFor s.payload.length := by
  simp [State.stream, Nat.add_assoc]

@[simp] theorem inputBytes_emitted (s : State) (bytes : List Byte) : (s.emitted bytes).inputBytes = s.inputBytes := rfl

@[simp] theorem payload_emitted (s : State) (bytes : List Byte) : (s.emitted bytes).payload = s.payload := rfl

/-- EMIT leaves the stream in OUTBUF[0..OUT_LEN-1] (R138). -/
theorem outputBytes_emitted (s : State) {bytes : List Byte} (h : bytes.length < 2 ^ 32) :
    (s.emitted bytes).outputBytes = bytes := by
  rw [State.outputBytes, State.emitted_outbuf, State.emitted_outLen, BitVec.toNat_ofNat, Nat.mod_eq_of_lt h,
    Memory.take_writeList]

theorem toNat_outLen_emitted (s : State) {bytes : List Byte} (h : bytes.length < 2 ^ 32) :
    (s.emitted bytes).outLen.toNat = bytes.length := by
  rw [State.emitted_outLen, BitVec.toNat_ofNat, Nat.mod_eq_of_lt h]

end Sys2Proof.Machine
end

