-- ==== Sys2Proof/Laws/RefDecode.lean ====
section
/-! SUPPORT. The reference decoder on the streams EMIT writes: the tree, the bit count, the payload and the traversal
(spec/45_reference_decoder.md R142 to R153). -/

namespace Sys2Proof.Machine

/-! ### The tree -/

/-- The tree a decoder reads from the bytes of a coding tree. -/
def CodeTree.toRef : CodeTree → RefTree
  | .leaf sym => .node sym .null .null
  | .pair l r => .node 0 l.toRef r.toRef

theorem CodeTree.toRef_ne_null (t : CodeTree) : t.toRef ≠ .null := by cases t <;> simp [CodeTree.toRef]

@[simp] theorem CodeTree.isLeaf_toRef_leaf (sym : Byte) : (CodeTree.leaf sym).toRef.isLeaf = true := rfl

@[simp] theorem CodeTree.isLeaf_toRef_pair (l r : CodeTree) : (CodeTree.pair l r).toRef.isLeaf = false := by
  cases l <;> rfl

theorem decTree_cons (fuel : Nat) (tag : Byte) (rest : List Byte) : decTree (fuel + 1) (tag :: rest) =
    if tag = 0 then .ok (.null, rest)
    else if tag ≠ 1 then .error .corruptTree
    else
      match rest with
      | [] => .error .truncatedStream
      | sym :: rest =>
        match decTree fuel rest with
        | .error e => .error e
        | .ok (l, rest) =>
          match decTree fuel rest with
          | .error e => .error e
          | .ok (r, rest) => .ok (.node sym l r, rest) := rfl

/-- Decoding the bytes of a tree, followed by anything: the tree and what follows, or an end of the fuel. -/
theorem decTree_bytes_or (t : CodeTree) (rest : List Byte) (fuel : Nat) :
    decTree fuel (t.bytes ++ rest) = .ok (t.toRef, rest) ∨ decTree fuel (t.bytes ++ rest) = .error .truncatedStream := by
  induction t generalizing rest fuel with
  | leaf sym =>
    match fuel with
    | 0 => exact .inr rfl
    | 1 => exact .inr rfl
    | fuel + 2 => exact .inl rfl
  | pair l r ihl ihr =>
    match fuel with
    | 0 => exact .inr rfl
    | fuel + 1 =>
      have e : (CodeTree.pair l r).bytes ++ rest = 1 :: 0 :: (l.bytes ++ (r.bytes ++ rest)) := by simp [CodeTree.bytes]
      rw [e, decTree, if_neg (by decide), if_neg (by decide)]
      rcases ihl (r.bytes ++ rest) fuel with hl | hl
      · rcases ihr rest fuel with hr | hr
        · exact .inl (by simp only [hl, hr, CodeTree.toRef])
        · exact .inr (by simp only [hl, hr])
      · exact .inr (by simp only [hl])

/-- With fuel for its length, a tree is decoded (R142). -/
theorem decTree_bytes (t : CodeTree) (rest : List Byte) (fuel : Nat) (hf : t.bytes.length ≤ fuel) :
    decTree fuel (t.bytes ++ rest) = .ok (t.toRef, rest) := by
  induction t generalizing rest fuel with
  | leaf sym =>
    obtain ⟨m, rfl⟩ : ∃ m, fuel = m + 2 := ⟨fuel - 2, by simp [CodeTree.bytes] at hf; omega⟩
    rfl
  | pair l r ihl ihr =>
    simp only [CodeTree.bytes, List.length_append, List.length_cons, List.length_nil] at hf
    obtain ⟨m, rfl⟩ : ∃ m, fuel = m + 1 := ⟨fuel - 1, by omega⟩
    have e : (CodeTree.pair l r).bytes ++ rest = 1 :: 0 :: (l.bytes ++ (r.bytes ++ rest)) := by simp [CodeTree.bytes]
    rw [e, decTree, if_neg (by decide), if_neg (by decide)]
    simp only [ihl _ m (by omega), ihr _ m (by omega), CodeTree.toRef]

/-- A proper prefix of the bytes of a tree ends within the tree (R153). -/
theorem decTree_prefix (t : CodeTree) (p : List Byte) (hp : p <+: t.bytes) (hl : p.length < t.bytes.length) (fuel : Nat) :
    decTree fuel p = .error .truncatedStream := by
  induction t generalizing p fuel with
  | leaf sym =>
    obtain ⟨q, hq⟩ := hp
    match fuel with
    | 0 => rfl
    | fuel + 1 =>
      match p with
      | [] => rfl
      | [a] =>
        simp only [CodeTree.bytes, List.cons_append, List.cons.injEq] at hq
        rw [hq.1]
        rfl
      | [a, b] =>
        simp only [CodeTree.bytes, List.cons_append, List.cons.injEq] at hq
        rw [hq.1]
        cases fuel <;> rfl
      | [a, b, c] =>
        simp only [CodeTree.bytes, List.cons_append, List.cons.injEq] at hq
        obtain ⟨rfl, -, rfl, -⟩ := hq
        match fuel with
        | 0 => rfl
        | fuel + 1 => rfl
      | a :: b :: c :: d :: p => simp [CodeTree.bytes] at hl; omega
  | pair l r ihl ihr =>
    obtain ⟨q, hq⟩ := hp
    match fuel with
    | 0 => rfl
    | fuel + 1 =>
      have e : (CodeTree.pair l r).bytes = 1 :: 0 :: (l.bytes ++ r.bytes) := by simp [CodeTree.bytes]
      rw [e] at hq hl
      match p with
      | [] => rfl
      | [a] =>
        simp only [List.cons_append, List.cons.injEq] at hq
        rw [hq.1]
        rfl
      | a :: b :: p =>
        simp only [List.cons_append, List.cons.injEq] at hq
        obtain ⟨rfl, rfl, hq⟩ := hq
        simp only [List.length_cons, List.length_append] at hl
        rw [decTree, if_neg (by decide), if_neg (by decide)]
        rcases List.append_eq_append_iff.mp hq with ⟨m, hm, hm'⟩ | ⟨m, hm, hm'⟩
        · by_cases h0 : m = []
          · subst h0
            have hpl : p = l.bytes ++ [] := by simpa using hm.symm
            rcases decTree_bytes_or l [] fuel with h | h
            · rw [hpl, h]
              simp only [ihr [] (List.nil_prefix) r.length_bytes_pos fuel]
            · rw [hpl, h]
          · have : p.length < l.bytes.length := by
              have := List.length_pos_iff.mpr h0
              rw [hm, List.length_append]
              omega
            simp only [ihl p ⟨m, hm.symm⟩ this fuel]
        · rcases decTree_bytes_or l m fuel with h | h
          · rw [hm, h]
            have : m.length < r.bytes.length := by
              rw [hm, List.length_append] at hl
              omega
            simp only [ihr m ⟨q, hm'.symm⟩ this fuel]
          · rw [hm, h]

/-! ### The bit count and the payload -/

theorem lsbFirstBytes_ofNat (n k : Nat) (x : BitVec n) (off : Nat) :
    lsbFirstBytes ((List.range k).map fun i => x.extractLsb' (off + 8 * i) 8) = x.toNat / 2 ^ off % 2 ^ (8 * k) := by
  induction k generalizing off with
  | zero => simp [lsbFirstBytes, Nat.mod_one]
  | succ k ih =>
    have e : (List.range (k + 1)).map (fun i => x.extractLsb' (off + 8 * i) 8) =
        x.extractLsb' off 8 :: (List.range k).map fun i => x.extractLsb' (off + 8 + 8 * i) 8 := by
      simp only [List.range_succ_eq_map, List.map_cons, List.map_map, Function.comp_def]
      simp only [Nat.mul_zero, Nat.add_zero]
      congr 1
      refine List.map_congr_left fun i _ => ?_
      rw [show off + 8 * i.succ = off + 8 + 8 * i by omega]
    rw [e, lsbFirstBytes, ih, BitVec.extractLsb'_toNat, Nat.shiftRight_eq_div_pow, Nat.pow_add, ← Nat.div_div_eq_div_mul,
      show 8 * (k + 1) = 8 + 8 * k by omega, Nat.pow_add, Nat.mod_mul]

/-- The bit count is read back (R144). -/
theorem lsbFirstBytes_le64 (x : BitVec 64) : lsbFirstBytes (le64 x) = x.toNat := by
  have := lsbFirstBytes_ofNat 64 8 x 0
  simp only [Nat.zero_add, Nat.pow_zero, Nat.div_one] at this
  rw [le64, this]
  exact Nat.mod_eq_of_lt x.isLt

theorem msbFirst_append (l : List Bool) (b : Bool) : msbFirst (l ++ [b]) = 2 * msbFirst l + b.toNat := by
  simp [msbFirst]

theorem msbFirst_eq (l : List Bool) : msbFirst l = lsbFirst l.reverse := by
  induction l using List.reverseRecOn with
  | nil => rfl
  | append_singleton l b ih => rw [msbFirst_append, ih, List.reverse_append, List.reverse_singleton, List.singleton_append,
      lsbFirst, Nat.add_comm]

/-- Bit 7-i of a packed byte is payload bit 8j+i (R57, R136). -/
theorem getLsbD_packByte (bits : List Bool) (j i : Nat) (hi : i < 8) :
    (packByte bits j).getLsbD (7 - i) = bitAt bits (8 * j + i) := by
  rw [packByte, BitVec.getLsbD_ofNat, msbFirst_eq, testBit_lsbFirst]
  rcases (by omega : i = 0 ∨ i = 1 ∨ i = 2 ∨ i = 3 ∨ i = 4 ∨ i = 5 ∨ i = 6 ∨ i = 7) with
    rfl | rfl | rfl | rfl | rfl | rfl | rfl | rfl <;> rfl

/-- Expanding the packed payload gives the bits back (R146). -/
theorem getLsbD_codeWord (code : List Bool) (w j : Nat) (hj : j < 32) :
    (codeWord code w).getLsbD (31 - j) = bitAt code (32 * w + j) := by
  rw [codeWord, BitVec.getLsbD_ofNat, msbFirst_eq, testBit_lsbFirst]
  simp only [← List.map_reverse]
  rw [List.getD_eq_getElem?_getD, List.getElem?_map, List.getElem?_reverse (by simp; omega)]
  simp
  rw [List.getElem?_range (by omega)]
  simp
  rw [decide_eq_true (by omega), Bool.true_and, show 31 - (31 - j) = j by omega]

theorem expandBits_pack (bits : List Bool) : expandBits (pack bits) bits.length = bits := by
  refine List.ext_getElem (by simp [expandBits]) fun k h1 h2 => ?_
  have hk : k / 8 < bytesFor bits.length := by rw [bytesFor]; omega
  simp only [expandBits, List.getElem_map, List.getElem_range]
  have : (pack bits).getD (k / 8) 0 = packByte bits (k / 8) := by
    rw [List.getD_eq_getElem _ _ (by simpa using hk)]
    simp [pack]
  rw [this, getLsbD_packByte bits _ _ (Nat.mod_lt _ (by omega)), Nat.div_add_mod, bitAt,
    List.getD_eq_getElem _ _ h2]

/-! ### The traversal -/

/-- The leaves below a node with their paths from it. -/
def CodeTree.paths : CodeTree → List (Byte × List Bool)
  | .leaf sym => [(sym, [])]
  | .pair l r => (l.paths.map fun c => (c.1, false :: c.2)) ++ r.paths.map fun c => (c.1, true :: c.2)

theorem CodeTree.codesFrom_eq (t : CodeTree) (p : List Bool) :
    t.codesFrom p = t.paths.map fun c => (c.1, leafCode (p ++ c.2)) := by
  induction t generalizing p with
  | leaf sym => simp [CodeTree.codesFrom, CodeTree.paths]
  | pair l r ihl ihr => simp [CodeTree.codesFrom, CodeTree.paths, ihl, ihr, Function.comp_def]

theorem CodeTree.path_ne_nil {l r : CodeTree} {c : Byte × List Bool} (h : c ∈ (CodeTree.pair l r).paths) : c.2 ≠ [] := by
  simp only [CodeTree.paths, List.mem_append, List.mem_map] at h
  rcases h with ⟨a, -, rfl⟩ | ⟨a, -, rfl⟩ <;> simp

/-- The codes of a tree that is no lone leaf are the paths (R127). -/
theorem CodeTree.codes_pair (l r : CodeTree) : (CodeTree.pair l r).codes = (CodeTree.pair l r).paths := by
  rw [CodeTree.codes, CodeTree.codesFrom_eq]
  refine (List.map_congr_left fun c hc => ?_).trans (List.map_id _)
  rw [List.nil_append, leafCode_of_ne (CodeTree.path_ne_nil hc)]
  rfl

/-- Following a path to a leaf emits its symbol and starts again at the root (R147). -/
theorem traverse_path (root : RefTree) (t : CodeTree) {sym : Byte} {q : List Bool} (h : (sym, q) ∈ t.paths) (hq : q ≠ [])
    (rest : List Bool) (out : List Byte) :
    traverse root t.toRef (q ++ rest) out = traverse root root rest (out ++ [sym]) := by
  induction t generalizing q with
  | leaf s =>
    simp only [CodeTree.paths, List.mem_singleton, Prod.mk.injEq] at h
    exact absurd h.2 hq
  | pair l r ihl ihr =>
    have step : ∀ (b : Bool) (c : CodeTree) (q' : List Bool), (if b then r.toRef else l.toRef) = c.toRef →
        (sym, q') ∈ c.paths →
        (q' ≠ [] → traverse root c.toRef (q' ++ rest) out = traverse root root rest (out ++ [sym])) →
        traverse root (CodeTree.pair l r).toRef (b :: q' ++ rest) out = traverse root root rest (out ++ [sym]) := by
      intro b c q' hb hc ih
      rw [CodeTree.toRef, List.cons_append, traverse, hb]
      cases c with
      | leaf s =>
        simp only [CodeTree.paths, List.mem_singleton, Prod.mk.injEq] at hc
        simp [CodeTree.toRef, RefTree.isLeaf, hc.1, hc.2]
      | pair cl cr =>
        have := ih (CodeTree.path_ne_nil hc)
        have hleaf := CodeTree.isLeaf_toRef_pair cl cr
        simp only [CodeTree.toRef] at this hleaf ⊢
        rw [if_neg (by rw [hleaf]; decide), this]
    simp only [CodeTree.paths, List.mem_append, List.mem_map, Prod.mk.injEq] at h
    rcases h with ⟨⟨s, q'⟩, hc, rfl, rfl⟩ | ⟨⟨s, q'⟩, hc, rfl, rfl⟩
    · exact step false l q' rfl hc (ihl hc)
    · exact step true r q' rfl hc (ihr hc)

/-- Decoding the codes of a sequence of symbols gives the sequence (R147, R148). -/
theorem decodeBits_codes (t : CodeTree) (code : Byte → List Bool) (bytes : List Byte)
    (h : ∀ b ∈ bytes, (b, code b) ∈ t.codes) : decodeBits t.toRef (bytes.flatMap code) = .ok bytes := by
  cases t with
  | leaf s =>
    have go : ∀ out, traverseLeaf s (bytes.flatMap code) out = .ok (out ++ bytes) := by
      induction bytes with
      | nil => intro out; simp [traverseLeaf]
      | cons b rest ih =>
        intro out
        have hb := h b (by simp)
        simp only [CodeTree.codes, CodeTree.codesFrom, List.mem_singleton, Prod.mk.injEq] at hb
        rw [List.flatMap_cons, hb.2, hb.1]
        change traverseLeaf s (false :: (rest.flatMap code)) out = _
        rw [traverseLeaf, if_neg (by decide), ih (fun b hb => h b (by simp [hb]))]
        simp
    exact go []
  | pair l r =>
    rw [CodeTree.codes_pair] at h
    have go : ∀ out, traverse (CodeTree.pair l r).toRef (CodeTree.pair l r).toRef (bytes.flatMap code) out =
        .ok (out ++ bytes) := by
      induction bytes with
      | nil => intro out; simp [traverse, CodeTree.toRef]
      | cons b rest ih =>
        intro out
        have hb := h b (by simp)
        rw [List.flatMap_cons, traverse_path _ _ hb (CodeTree.path_ne_nil hb), ih (fun b hb => h b (by simp [hb]))]
        simp
    have hleaf := CodeTree.isLeaf_toRef_pair l r
    rw [CodeTree.toRef] at hleaf ⊢
    rw [decodeBits, if_neg (by rw [hleaf]; decide)]
    exact go []

end Sys2Proof.Machine
end

