-- ==== Sys2Proof/Laws/Congr.lean ====
section
/-! SUPPORT. Which fields of State each part of the invariant reads: a part that holds of a state holds of every state
with the same values in those fields. Where the fields are the same by definition, the equations are filled in. -/

namespace Sys2Proof.Machine

theorem State.MemoriesOk.congr {s t : State} (h : s.MemoriesOk) (h_inbuf : t.inbuf = s.inbuf := by rfl)
    (h_inLen : t.inLen = s.inLen := by rfl) (h_outbuf : t.outbuf = s.outbuf := by rfl)
    (h_outLen : t.outLen = s.outLen := by rfl) (h_freq : t.freq = s.freq := by rfl)
    (h_arena : t.arena = s.arena := by rfl) (h_heap : t.heap = s.heap := by rfl)
    (h_codeLen : t.codeLen = s.codeLen := by rfl)
    (h_codeBits : t.codeBits = s.codeBits := by rfl) : t.MemoriesOk := by
  cases s
  cases t
  simp only at h_inbuf h_inLen h_outbuf h_outLen h_freq h_arena h_heap h_codeLen h_codeBits
  subst h_inbuf h_inLen h_outbuf h_outLen h_freq h_arena h_heap h_codeLen h_codeBits
  exact ⟨h.inbuf, h.inRange, h.outbuf, h.outRange, h.freq, h.freqRange, h.arena, h.arenaRange, h.heap,
    h.heapRange, h.codeLen, h.codeLenRange, h.codeBits, h.codeBitsRange⟩

theorem State.BuffersOk.congr {s t : State} (h : s.BuffersOk) (h_inLen : t.inLen = s.inLen := by rfl)
    (h_params : t.params = s.params := by rfl) (h_outRd : t.outRd = s.outRd := by rfl)
    (h_outLen : t.outLen = s.outLen := by rfl) (h_phase : t.phase = s.phase := by rfl) : t.BuffersOk := by
  cases s
  cases t
  simp only at h_inLen h_params h_outRd h_outLen h_phase
  subst h_inLen h_params h_outRd h_outLen h_phase
  exact ⟨h.input, h.read, h.output, h.onlyDone⟩

theorem State.ErrorOk.congr {s t : State} (h : s.ErrorOk) (h_errCode : t.errCode = s.errCode := by rfl)
    (h_errSrc : t.errSrc = s.errSrc := by rfl) (h_errWord : t.errWord = s.errWord := by rfl)
    (h_pending : t.pending = s.pending := by rfl) : t.ErrorOk := by
  cases s
  cases t
  simp only at h_errCode h_errSrc h_errWord h_pending
  subst h_errCode h_errSrc h_errWord h_pending
  exact ⟨h.code, h.empty, h.pending⟩

theorem State.QueueOk.congr {s t : State} (h : s.QueueOk) (h_arena : t.arena = s.arena := by rfl)
    (h_heap : t.heap = s.heap := by rfl) (h_pqSize : t.pqSize = s.pqSize := by rfl)
    (h_nodeCount : t.nodeCount = s.nodeCount := by rfl) : t.QueueOk := by
  cases s
  cases t
  simp only at h_arena h_heap h_pqSize h_nodeCount
  subst h_arena h_heap h_pqSize h_nodeCount
  exact ⟨h.ordered, h.size, h.count, h.allocated, h.once⟩

theorem State.IdleOk.congr {s t : State} (h : s.IdleOk) (h_freq : t.freq = s.freq := by rfl)
    (h_nsym : t.nsym = s.nsym := by rfl) (h_root : t.root = s.root := by rfl) : t.IdleOk := by
  cases s
  cases t
  simp only at h_freq h_nsym h_root
  subst h_freq h_nsym h_root
  exact ⟨h.freq, h.nsym, h.root⟩

theorem State.BuiltOk.congr {s t : State} {c : CodeTree} (h : s.BuiltOk c) (h_inbuf : t.inbuf = s.inbuf := by rfl)
    (h_inLen : t.inLen = s.inLen := by rfl) (h_freq : t.freq = s.freq := by rfl)
    (h_nsym : t.nsym = s.nsym := by rfl) (h_nodeCount : t.nodeCount = s.nodeCount := by rfl)
    (h_root : t.root = s.root := by rfl) (h_pqSize : t.pqSize = s.pqSize := by rfl)
    (h_arena : t.arena = s.arena := by rfl) : t.BuiltOk c := by
  cases s
  cases t
  simp only at h_inbuf h_inLen h_freq h_nsym h_nodeCount h_root h_pqSize h_arena
  subst h_inbuf h_inLen h_freq h_nsym h_nodeCount h_root h_pqSize h_arena
  exact ⟨h.input, h.freq, h.nsym, h.nodeCount, h.root, h.queue, h.tree, h.symbols, h.participating⟩

theorem State.NoCodes.congr {s t : State} (h : s.NoCodes) (h_codeLen : t.codeLen = s.codeLen := by rfl)
    (h_codeBits : t.codeBits = s.codeBits := by rfl) (h_bitcnt : t.bitcnt = s.bitcnt := by rfl) : t.NoCodes := by
  cases s
  cases t
  simp only at h_codeLen h_codeBits h_bitcnt
  subst h_codeLen h_codeBits h_bitcnt
  exact ⟨h.codeLen, h.codeBits, h.bitcnt⟩

theorem State.CodesOk.congr {s t : State} {c : CodeTree} (h : s.CodesOk c) (h_inbuf : t.inbuf = s.inbuf := by rfl)
    (h_inLen : t.inLen = s.inLen := by rfl) (h_codeLen : t.codeLen = s.codeLen := by rfl)
    (h_codeBits : t.codeBits = s.codeBits := by rfl) (h_bitcnt : t.bitcnt = s.bitcnt := by rfl) : t.CodesOk c := by
  cases s
  cases t
  simp only at h_inbuf h_inLen h_codeLen h_codeBits h_bitcnt
  subst h_inbuf h_inLen h_codeLen h_codeBits h_bitcnt
  exact ⟨h.codes, h.others, h.bitcnt⟩

theorem State.NoOutput.congr {s t : State} (h : s.NoOutput) (h_outLen : t.outLen = s.outLen := by rfl)
    (h_treeLen : t.treeLen = s.treeLen := by rfl) : t.NoOutput := by
  cases s
  cases t
  simp only at h_outLen h_treeLen
  subst h_outLen h_treeLen
  exact ⟨h.outLen, h.treeLen⟩

theorem State.OutputOk.congr {s t : State} {c : CodeTree} (h : s.OutputOk c) (h_inbuf : t.inbuf = s.inbuf := by rfl)
    (h_inLen : t.inLen = s.inLen := by rfl) (h_outbuf : t.outbuf = s.outbuf := by rfl)
    (h_outLen : t.outLen = s.outLen := by rfl) (h_nsym : t.nsym = s.nsym := by rfl)
    (h_codeLen : t.codeLen = s.codeLen := by rfl) (h_codeBits : t.codeBits = s.codeBits := by rfl)
    (h_bitcnt : t.bitcnt = s.bitcnt := by rfl) (h_treeLen : t.treeLen = s.treeLen := by rfl) : t.OutputOk c := by
  cases s
  cases t
  simp only at h_inbuf h_inLen h_outbuf h_outLen h_nsym h_codeLen h_codeBits h_bitcnt h_treeLen
  subst h_inbuf h_inLen h_outbuf h_outLen h_nsym h_codeLen h_codeBits h_bitcnt h_treeLen
  exact ⟨h.stream, h.treeLen⟩

theorem State.RecordsOk.congr {s t : State} (h : s.RecordsOk) (h_arena : t.arena = s.arena := by rfl)
    (h_nodeCount : t.nodeCount = s.nodeCount := by rfl) : t.RecordsOk := by
  cases s
  cases t
  simp only at h_arena h_nodeCount
  subst h_arena h_nodeCount
  exact h

theorem State.PhaseOk.congr {s t : State} (h : s.PhaseOk) (h_phase : t.phase = s.phase := by rfl)
    (h_inbuf : t.inbuf = s.inbuf := by rfl) (h_inLen : t.inLen = s.inLen := by rfl)
    (h_outbuf : t.outbuf = s.outbuf := by rfl) (h_outLen : t.outLen = s.outLen := by rfl)
    (h_freq : t.freq = s.freq := by rfl) (h_nsym : t.nsym = s.nsym := by rfl)
    (h_arena : t.arena = s.arena := by rfl) (h_nodeCount : t.nodeCount = s.nodeCount := by rfl)
    (h_pqSize : t.pqSize = s.pqSize := by rfl) (h_root : t.root = s.root := by rfl)
    (h_codeLen : t.codeLen = s.codeLen := by rfl) (h_codeBits : t.codeBits = s.codeBits := by rfl)
    (h_bitcnt : t.bitcnt = s.bitcnt := by rfl) (h_treeLen : t.treeLen = s.treeLen := by rfl) : t.PhaseOk := by
  rw [State.PhaseOk] at h ⊢
  rw [h_phase]
  split <;> rename_i hp <;> simp only [hp] at h
  · exact ⟨h.1.congr h_freq h_nsym h_root, h.2.1.congr h_codeLen h_codeBits h_bitcnt,
      h.2.2.congr h_outLen h_treeLen⟩
  · obtain ⟨c, h1, h2, h3⟩ := h
    exact ⟨c, h1.congr h_inbuf h_inLen h_freq h_nsym h_nodeCount h_root h_pqSize h_arena,
      h2.congr h_codeLen h_codeBits h_bitcnt,
      h3.congr h_outLen h_treeLen⟩
  · obtain ⟨c, h1, h2, h3⟩ := h
    exact ⟨c, h1.congr h_inbuf h_inLen h_freq h_nsym h_nodeCount h_root h_pqSize h_arena,
      h2.congr h_inbuf h_inLen h_codeLen h_codeBits h_bitcnt,
      h3.congr h_outLen h_treeLen⟩
  · obtain ⟨c, h1, h2, h3⟩ := h
    exact ⟨c, h1.congr h_inbuf h_inLen h_freq h_nsym h_nodeCount h_root h_pqSize h_arena,
      h2.congr h_inbuf h_inLen h_codeLen h_codeBits h_bitcnt,
      h3.congr h_inbuf h_inLen h_outbuf h_outLen h_nsym h_codeLen h_codeBits h_bitcnt h_treeLen⟩

end Sys2Proof.Machine
end

