-- ==== Sys2Proof/Laws/Records.lean ====
section
/-! SUPPORT. The node records BUILD writes: the leaves in symbol order, then the merges (spec/42_tree_builder.md R118,
R119, spec/10_state.md R31). -/

namespace Sys2Proof.Machine

/-! ### The records BUILD writes -/

/-- Adding nodes leaves the allocated records alone, and the leaves come in the order of their symbols (R118). -/
theorem nodeAt_foldl_addLeaf (syms : List Nat) (s : State) (hc : s.nodeCount.toNat + syms.length ≤ 256) :
    (∀ n : NodeId, n.toNat < s.nodeCount.toNat → (syms.foldl addLeaf s).nodeAt n = s.nodeAt n) ∧
      ∀ (j : Nat) (hj : j < syms.length) (n : NodeId), n.toNat = s.nodeCount.toNat + j →
        (syms.foldl addLeaf s).nodeAt n = Node.ofLeaf (BitVec.ofNat 8 syms[j]) (s.freqAt syms[j]) := by
  have hcap := arenaCap_eq
  induction syms generalizing s with
  | nil => exact ⟨fun _ _ => rfl, fun j hj => by simp at hj⟩
  | cons x rest ih =>
    rw [List.length_cons] at hc
    have e2 : (addLeaf s x).nodeCount.toNat = s.nodeCount.toNat + 1 := toNat_addNode_nodeCount _ (by omega)
    obtain ⟨h1, h2⟩ := ih (addLeaf s x) (by omega)
    have hid := toNat_nextId (s := s) (by omega)
    refine ⟨fun n hn => ?_, fun j hj n hn => ?_⟩
    · rw [List.foldl_cons, h1 n (by omega), addLeaf, nodeAt_addNode, if_neg (ne_nextId (by omega) hn)]
    · rw [List.foldl_cons]
      cases j with
      | zero =>
        have hn' : n = s.nextId := BitVec.eq_of_toNat_eq (by omega)
        rw [h1 n (by omega), addLeaf, nodeAt_addNode, if_pos hn']
        rfl
      | succ j =>
        simp only [List.length_cons] at hj
        rw [h2 j (by omega) n (by omega), List.getElem_cons_succ]
        rfl

/-- A record of a merge: an internal node of two allocated nodes, with the sum of their frequencies (R119). -/
def IsPair (s : State) (n : NodeId) : Prop :=
  ∃ a b : NodeId, a.toNat < n.toNat ∧ b.toNat < n.toNat ∧
    s.nodeAt n = Node.ofPair ((s.nodeAt a).freq + (s.nodeAt b).freq) a b

theorem merge_records (fuel : Nat) (s : State) (h : s.QueueOk) (hf : s.pqSize.toNat ≤ fuel)
    (hc : s.nodeCount.toNat + s.pqSize.toNat ≤ 512) (hq : s.pqSize.toNat ≤ 256) :
    (∀ n : NodeId, n.toNat < s.nodeCount.toNat → (mergeLoop fuel s).nodeAt n = s.nodeAt n) ∧
      ∀ n : NodeId, s.nodeCount.toNat ≤ n.toNat → n.toNat < (mergeLoop fuel s).nodeCount.toNat →
        IsPair (mergeLoop fuel s) n := by
  have hcap := arenaCap_eq
  have hcap' := heapCap_eq
  induction fuel generalizing s with
  | zero => exact ⟨fun _ _ => rfl, fun n h1 h2 => by simp only [mergeLoop] at h2; omega⟩
  | succ fuel ih =>
    rw [mergeLoop]
    split <;> rename_i hp
    · obtain ⟨e1, e2⟩ := mergeStep_counts (s := s) (by omega) (by omega)
      have h0 : s.pqSize ≠ 0 := by bv_omega
      have d0 := toNat_dequeueRest_pqSize h0
      have h1 : (dequeueRest s).pqSize ≠ 0 := by
        intro e
        rw [e] at d0
        simp at d0
        omega
      have d1 := toNat_dequeueRest_pqSize h1
      have q1 := queueOk_dequeue h
      have q2 := queueOk_dequeue q1
      have hid : (dequeueRest (dequeueRest s)).nextId.toNat = s.nodeCount.toNat := by
        rw [toNat_nextId q2.count]
        simp
      have qm : (mergeStep s).QueueOk := queueOk_addNode _ q2 (by omega) (by simp; omega)
      obtain ⟨i1, i2⟩ := ih (mergeStep s) qm (by omega) (by omega) (by omega)
      have old : ∀ n : NodeId, n.toNat < s.nodeCount.toNat → (mergeStep s).nodeAt n = s.nodeAt n := by
        intro n hn
        simp only [mergeStep, nodeAt_addNode, nodeAt_dequeueRest]
        rw [if_neg fun e => by rw [e] at hn; omega]
      refine ⟨fun n hn => by rw [i1 n (by omega), old n hn], fun n hn hn' => ?_⟩
      by_cases hnew : n.toNat = s.nodeCount.toNat
      · have hn2 : n = (dequeueRest (dequeueRest s)).nextId := BitVec.eq_of_toNat_eq (by omega)
        have ha := h.allocated _ (dequeueTop_mem h0)
        have hb := q1.allocated _ (dequeueTop_mem h1)
        simp only [dequeueRest_nodeCount] at hb
        refine ⟨dequeueTop s, dequeueTop (dequeueRest s), by omega, by omega, ?_⟩
        rw [i1 n (by omega), i1 _ (by omega), i1 _ (by omega), old _ ha, old _ hb]
        simp only [mergeStep, nodeAt_addNode, nodeAt_dequeueRest]
        rw [if_pos hn2]
      · exact i2 n (by omega) hn'
    · exact ⟨fun _ _ => rfl, fun n h1 h2 => by omega⟩

/-- The records of a build (R118, R119). -/
theorem merged_records (s : State) :
    (∀ (j : Nat) (hj : j < (participants (countBytes s.inputBytes)).length) (n : NodeId), n.toNat = j →
      s.merged.nodeAt n = Node.ofLeaf (BitVec.ofNat 8 (participants (countBytes s.inputBytes))[j])
        (Table.get 0 (countBytes s.inputBytes) (participants (countBytes s.inputBytes))[j])) ∧
    ∀ n : NodeId, (participants (countBytes s.inputBytes)).length ≤ n.toNat → n.toNat < s.merged.nodeCount.toNat →
      IsPair s.merged n := by
  have hl := length_participants_le (countBytes s.inputBytes)
  obtain ⟨hq, hp, hc⟩ := withLeaves_induct (P := State.QueueOk) ⟨fun _ nd h h1 h2 => queueOk_addNode nd h h1 h2,
    fun _ h => queueOk_dequeue h⟩ s (queueOk_of_empty rfl (by simp))
  obtain ⟨m1, m2⟩ := merge_records _ s.counted.emptyQueue.withLeaves hq le_rfl (by omega) (by omega)
  obtain ⟨-, l2⟩ := nodeAt_foldl_addLeaf (participants (countBytes s.inputBytes)) s.counted.emptyQueue
    (by simpa using hl)
  refine ⟨fun j hj n hn => ?_, fun n h1 h2 => ?_⟩
  · refine (m1 n (by omega)).trans ?_
    exact l2 j hj n (by simpa using hn)
  · exact m2 n (by omega) h2

/-- Every record of a build is sound (R31). -/
theorem recordsOk_merged (s : State) : s.merged.RecordsOk := by
  obtain ⟨h1, h2⟩ := merged_records s
  intro n hn
  by_cases hl : n.toNat < (participants (countBytes s.inputBytes)).length
  · rw [h1 n.toNat hl n rfl]
    exact .inl ⟨rfl, rfl, rfl⟩
  · obtain ⟨a, b, ha, hb, e⟩ := h2 n (by omega) hn
    rw [e]
    exact .inr ⟨rfl, rfl, ha, hb⟩

end Sys2Proof.Machine
end

