-- ==== Sys2Proof/Laws/Inv.lean ====
section
/-! SUPPORT. Each operation of a step keeps the invariant (spec/10_state.md R24 to R40). -/

namespace Sys2Proof.Machine

/-! ### The reset state and the small updates -/

theorem inv_resetWith {p : Params} (h : p.Ok) : (State.resetWith p).Inv where
  params := h
  memories := by constructor <;> simp [State.resetWith, Table.WF, Memory.wf]
  buffers := by constructor <;> simp [State.resetWith]
  error := by constructor <;> simp [State.resetWith]
  queue := queueOk_of_empty rfl (by simp [State.resetWith])
  phase := ⟨⟨rfl, rfl, rfl⟩, ⟨rfl, rfl, rfl⟩, ⟨rfl, rfl⟩⟩
  records := fun n hn => by simp [State.resetWith] at hn

/-- What the invariant does not read: ARG, the RESULT registers, OVERRUN and the model's own fields. -/
theorem State.Inv.congr {s t : State} (h : s.Inv)
    (e : t = { s with
      arg := t.arg, result0 := t.result0, result1 := t.result1, result2 := t.result2, overrun := t.overrun
      agenda := t.agenda, reads := t.reads, draws := t.draws } := by rfl) : t.Inv := by
  rw [e]
  exact ⟨h.params, h.memories.congr, h.buffers.congr, h.error.congr, h.queue.congr, h.phase.congr, h.records.congr⟩

theorem inv_finish {s : State} (h : s.Inv) : s.finish.Inv :=
  ⟨h.params, h.memories.congr, h.buffers.congr, ⟨h.error.code, h.error.empty, fun _ => .inl rfl⟩, h.queue.congr,
    h.phase.congr, h.records.congr⟩

theorem inv_cleared {s : State} (h : s.Inv) : s.cleared.Inv := (inv_resetWith h.params).congr

/-- Which source raises which error (R155). -/
def ErrorKind.FromSource : ErrorKind → Bool → Prop
  | .inOverflow, src => src = true
  | .sequence, _ => True
  | _, src => src = false

theorem inv_raise {s : State} (h : s.Inv) (e : ErrorKind) (w : Word) {src : Bool} (hs : e.FromSource src)
    (hp : s.pending = none) : (s.raise e w src).Inv := by
  rw [State.raise]
  split
  · refine ⟨h.params, h.memories.congr, h.buffers.congr, ⟨?_, ?_, fun _ => .inl hp⟩, h.queue.congr, h.phase.congr, h.records.congr⟩
    · cases e <;> cases src <;> simp_all [ErrorKind.FromSource, ErrorKind.code]
    · cases e <;> simp [ErrorKind.code]
  · exact h

theorem finish_raise (s : State) (e : ErrorKind) (w : Word) (src : Bool) :
    (s.raise e w src).finish = s.finish.raise e w src := by
  by_cases h : s.errCode = 0
  · rw [State.raise, State.raise, if_pos h, if_pos (show s.finish.errCode = 0 from h)]
    rfl
  · rw [State.raise, State.raise, if_neg h, if_neg (show ¬ s.finish.errCode = 0 from h)]

theorem inv_raise_finish {s : State} (h : s.Inv) (e : ErrorKind) (w : Word) (hs : e.FromSource false) :
    (s.raise e w false).finish.Inv := by
  rw [finish_raise]
  exact inv_raise (inv_finish h) e w hs rfl

/-- Accepting a command (R98). -/
theorem inv_accept {s : State} (h : s.Inv) {w : Word} (hw : s.errCode ≠ 0 → w = 1) :
    ({ s with pending := some w } : State).Inv :=
  ⟨h.params, h.memories.congr, h.buffers.congr, ⟨h.error.code, h.error.empty, fun he => .inr (by simp [hw he])⟩,
    h.queue.congr, h.phase.congr, h.records.congr⟩

/-- A DATA_OUT pop (R96). -/
theorem inv_pop {s : State} (h : s.Inv) (hv : s.outRd.toNat < s.outLen.toNat) :
    ({ s with outRd := s.outRd + 1 } : State).Inv := by
  refine ⟨h.params, h.memories.congr, ⟨h.buffers.input, ?_, h.buffers.output, h.buffers.onlyDone⟩, h.error.congr,
    h.queue.congr, h.phase.congr, h.records.congr⟩
  change (s.outRd + 1).toNat ≤ s.outLen.toNat
  bv_omega

/-- A byte of input (R95). -/
theorem inv_appendInput {s : State} (h : s.Inv) (b : Byte) (hp : s.phase = .idle) (hl : s.inLen.toNat ≠ s.params.inCap) :
    (s.appendInput b).Inv := by
  have hi := h.buffers.input
  have hcap := h.params.2.1
  have e : (s.appendInput b).inLen.toNat = s.inLen.toNat + 1 := by
    rw [State.appendInput_inLen, BitVec.toNat_add]
    exact Nat.mod_eq_of_lt (by simp; omega)
  have m := h.memories
  refine ⟨h.params, ⟨Memory.wf_write m.inbuf _ _, fun c hc => ?_, m.outbuf, m.outRange, m.freq, m.freqRange, m.arena,
    m.arenaRange, m.heap, m.heapRange, m.codeLen, m.codeLenRange, m.codeBits, m.codeBitsRange⟩,
    ⟨?_, h.buffers.read, h.buffers.output, h.buffers.onlyDone⟩, h.error.congr, h.queue.congr, ?_, h.records.congr⟩
  · rw [e]
    rcases Memory.mem_write hc with hc | hc
    · omega
    · have := m.inRange c hc
      omega
  · rw [e]
    simp only [State.appendInput_params]
    omega
  · have := h.phase
    rw [State.PhaseOk] at this ⊢
    simp only [State.appendInput_phase, hp] at this ⊢
    exact ⟨this.1.congr, this.2.1.congr, this.2.2.congr⟩

/-! ### The queue and BUILD -/

/-- The arena and the heap are in canonical form and in range. -/
structure QueueForm (s : State) : Prop where
  arena : Table.WF Node.blank s.arena
  arenaRange : ∀ c ∈ s.arena, c.1 < Config.arenaCap
  heap : HeapForm Config.heapCap s.heap
  queue : s.QueueOk

theorem State.Inv.queueForm {s : State} (h : s.Inv) : QueueForm s :=
  ⟨h.memories.arena, h.memories.arenaRange, ⟨h.memories.heap, h.memories.heapRange⟩, h.queue⟩

theorem queueForm_addNode {s : State} (h : QueueForm s) (nd : Node) (hs : s.pqSize.toNat < Config.heapCap)
    (hc : s.nodeCount.toNat < Config.arenaCap) : QueueForm (addNode nd s) := by
  refine ⟨?_, fun c hc' => ?_, ?_, queueOk_addNode nd h.queue hs hc⟩
  · rw [addNode_arena]
    exact Table.wf_set h.arena _ _
  · rw [addNode_arena] at hc'
    rcases Table.mem_set hc' with ⟨rfl, -⟩ | ⟨-, hm⟩
    · rw [toNat_nextId h.queue.count]
      exact hc
    · exact h.arenaRange c hm
  · exact heapForm_enqueue (s := allocate nd s) _ hs h.heap

theorem queueForm_dequeue {s : State} (h : QueueForm s) : QueueForm (dequeueRest s) := by
  refine ⟨?_, ?_, heapForm_dequeue h.queue.size h.heap, queueOk_dequeue h.queue⟩
  · rw [dequeueRest_arena]
    exact h.arena
  · rw [dequeueRest_arena]
    exact h.arenaRange

theorem queueForm_closed : QueueClosed QueueForm := ⟨fun _ nd h hs hc => queueForm_addNode h nd hs hc,
  fun _ h => queueForm_dequeue h⟩

/-- A state with the invariant, its queue and arena changed. -/
theorem State.Inv.withQueue {s t : State} (h : s.Inv) (hq : QueueForm t) (hr : t.RecordsOk) (hp : s.phase = .idle)
    (e : SameButQueue s t) : t.Inv := by
  have m := h.memories
  rw [SameButQueue] at e
  have hm : t.MemoriesOk := by
    constructor <;> first | exact hq.arena | exact hq.arenaRange | exact hq.heap.1 | exact hq.heap.2 | (rw [e]; first
      | exact m.inbuf | exact m.inRange | exact m.outbuf | exact m.outRange | exact m.freq | exact m.freqRange
      | exact m.codeLen | exact m.codeLenRange | exact m.codeBits | exact m.codeBitsRange)
  have hph := h.phase
  refine ⟨by rw [e]; exact h.params, hm, ?_, ?_, hq.queue, ?_, hr⟩
  · rw [e]
    exact h.buffers.congr
  · rw [e]
    exact h.error.congr
  · rw [State.PhaseOk] at hph ⊢
    rw [e]
    simp only [hp] at hph ⊢
    exact ⟨hph.1.congr, hph.2.1.congr, hph.2.2.congr⟩

/-- PQ_RESET (R112). -/
theorem inv_emptyQueue {s : State} (h : s.Inv) (hp : s.phase = .idle) : s.emptyQueue.Inv := by
  have q := h.queueForm
  exact h.withQueue ⟨q.arena, q.arenaRange, q.heap, queueOk_of_empty rfl (by simp)⟩
    (fun n hn => by simp at hn) hp rfl

theorem recordsOk_addNode {s : State} (h : s.RecordsOk) (hc : s.nodeCount.toNat < Config.arenaCap) {nd : Node}
    (hn : nd.OkAt s.nextId) : (addNode nd s).RecordsOk := by
  intro n hlt
  rw [nodeAt_addNode]
  rw [toNat_addNode_nodeCount nd hc] at hlt
  split <;> rename_i e
  · rw [e]
    exact hn
  · refine h n ?_
    have := toNat_nextId (s := s) (by omega)
    have : n.toNat ≠ s.nextId.toNat := fun c => e (BitVec.eq_of_toNat_eq c)
    omega

theorem okAt_ofLeaf (sym : Byte) (freq : Word) (n : NodeId) : (Node.ofLeaf sym freq).OkAt n := .inl ⟨rfl, rfl, rfl⟩

/-- PQ_PUSH (R113). -/
theorem inv_push {s : State} (h : s.Inv) (hp : s.phase = .idle) (sym : Byte) (f : Word) (h1 : s.pqSize ≠ 256)
    (h2 : s.nodeCount ≠ 511) : (addNode (Node.ofLeaf sym f) s).Inv := by
  have hs := h.queue.size
  have hc := h.queue.count
  have hcap := arenaCap_eq
  have hcap' := heapCap_eq
  have hs' : s.pqSize.toNat ≠ 256 := fun e => h1 (BitVec.eq_of_toNat_eq e)
  have hc' : s.nodeCount.toNat ≠ 511 := fun e => h2 (BitVec.eq_of_toNat_eq e)
  exact h.withQueue (queueForm_addNode h.queueForm _ (by omega) (by omega))
    (recordsOk_addNode h.records (by omega) (okAt_ofLeaf _ _ _)) hp
    ((sameButQueue_closed s).add s _ rfl (by omega) (by omega))

/-- PQ_POP (R114). -/
theorem inv_dequeue {s : State} (h : s.Inv) (hp : s.phase = .idle) : (dequeueRest s).Inv :=
  h.withQueue (queueForm_dequeue h.queueForm)
    (h.records.congr (dequeueRest_arena s) (dequeueRest_nodeCount s)) hp ((sameButQueue_closed s).remove s rfl)

theorem wf_countBytes (bytes : List Byte) :
    Table.WF 0 (countBytes bytes) ∧ ∀ c ∈ countBytes bytes, c.1 < Config.symbols := by
  have go : ∀ (bytes : List Byte) (t : Table Word), (Table.WF 0 t ∧ ∀ c ∈ t, c.1 < Config.symbols) →
      Table.WF 0 (bytes.foldl countByte t) ∧ ∀ c ∈ bytes.foldl countByte t, c.1 < Config.symbols := by
    intro bytes
    induction bytes with
    | nil => exact fun t h => h
    | cons b rest ih =>
      intro t h
      refine ih _ ⟨Table.wf_set h.1 _ _, fun c hc => ?_⟩
      rcases Table.mem_set hc with ⟨rfl, -⟩ | ⟨-, hm⟩
      · exact b.isLt
      · exact h.2 c hm
  exact go bytes [] ⟨Table.wf_nil, by simp⟩

/-- Taking the root, seen from a state that differs in the queue and the arena only. -/
theorem rooted_of_same {s m : State} (h : SameButQueue s m) :
    m.rooted = { s with
      arena := m.arena
      nodeCount := m.nodeCount
      heap := (dequeueRest m).heap
      pqSize := (dequeueRest m).pqSize
      root := dequeueTop m
      phase := .built } := by
  have e := (sameButQueue_closed s).remove m h
  rw [State.rooted]
  rw [SameButQueue] at e
  rw [← dequeueRest_arena m, ← dequeueRest_nodeCount m]
  generalize dequeueRest m = d at *
  generalize dequeueTop m = r at *
  rw [e]

/-- The state BUILD leaves, seen from the state before it: the counts, the queue, the root and the phase are new. -/
theorem rooted_merged_eq (s : State) :
    s.merged.rooted = { s with
      freq := countBytes s.inputBytes
      nsym := BitVec.ofNat 9 (participants (countBytes s.inputBytes)).length
      arena := s.merged.arena
      nodeCount := s.merged.nodeCount
      heap := (dequeueRest s.merged).heap
      pqSize := (dequeueRest s.merged).pqSize
      root := dequeueTop s.merged
      phase := .built } := by
  rw [rooted_of_same (merged_frame s)]
  generalize s.merged = m
  rfl

/-- What BUILD establishes (R40, R116 to R122). -/
theorem builtOk_rooted {s : State} (h : s.inLen ≠ 0) : ∃ t, s.merged.rooted.BuiltOk t := by
  obtain ⟨t, h1, h2, h3, h4, -⟩ := merged_tree s h
  obtain ⟨-, hsz, hnc⟩ := merged_induct (P := fun _ => True) ⟨fun _ _ _ _ _ => trivial, fun _ _ => trivial⟩ s trivial
  have hl := length_participants_le (countBytes s.inputBytes)
  have hpos : 0 < (participants (countBytes s.inputBytes)).length := by
    rw [h1] at hsz
    simp at hsz
    omega
  have hn : s.merged.rooted.nsym.toNat = (participants (countBytes s.inputBytes)).length := by
    rw [rooted_merged_eq]
    simp only [BitVec.toNat_ofNat]
    omega
  refine ⟨t, ⟨?_, fun sym => ?_, ?_, ?_, ?_, ?_, ?_, ?_, fun sym => ?_⟩⟩
  · rw [rooted_merged_eq]
    exact h
  · rw [rooted_merged_eq]
    exact toNat_countBytes s sym
  · rw [hn, length_participants_countBytes, rooted_merged_eq]
    rfl
  · rw [hn, rooted_merged_eq]
    simp only
    omega
  · rw [rooted_merged_eq]
    exact h4
  · rw [rooted_merged_eq]
    simp only
    rw [dequeueRest_pqSize (by rw [h1]; decide), h1]
    rfl
  · rw [rooted_merged_eq]
    exact h2
  · exact h3.nodup_iff.mpr (nodup_symbolList _)
  · rw [h3.mem_iff, mem_symbolList_countBytes, rooted_merged_eq]
    rfl

theorem State.Inv.built {s : State} (h : s.Inv) (hc : s.NoCodes) (ho : s.NoOutput) {f : Table Word} {k : BitVec 9}
    {a : Table Node} {n : BitVec 10} {hp : Table NodeId} {q : BitVec 9} {r : NodeId} {t : CodeTree}
    (ht : ({ s with freq := f, nsym := k, arena := a, nodeCount := n, heap := hp, pqSize := q, root := r, phase := .built }
      : State).BuiltOk t) (hf : Table.WF 0 f ∧ ∀ c ∈ f, c.1 < Config.symbols)
    (hq : QueueForm { s with arena := a, nodeCount := n, heap := hp, pqSize := q })
    (hr : ({ s with arena := a, nodeCount := n } : State).RecordsOk) :
    ({ s with freq := f, nsym := k, arena := a, nodeCount := n, heap := hp, pqSize := q, root := r, phase := .built }
      : State).Inv := by
  have m := h.memories
  exact ⟨h.params, ⟨m.inbuf, m.inRange, m.outbuf, m.outRange, hf.1, hf.2, hq.arena, hq.arenaRange, hq.heap.1,
    hq.heap.2, m.codeLen, m.codeLenRange, m.codeBits, m.codeBitsRange⟩,
    ⟨h.buffers.input, h.buffers.read, h.buffers.output, fun h0 => absurd ho.outLen h0⟩, h.error.congr, hq.queue.congr,
    ⟨t, ht, hc.congr, ho.congr⟩, hr.congr⟩

theorem QueueForm.congr {s t : State} (h : QueueForm s) (h_arena : t.arena = s.arena := by rfl)
    (h_heap : t.heap = s.heap := by rfl) (h_pqSize : t.pqSize = s.pqSize := by rfl)
    (h_nodeCount : t.nodeCount = s.nodeCount := by rfl) : QueueForm t :=
  ⟨h_arena ▸ h.arena, h_arena ▸ h.arenaRange, h_heap ▸ h.heap, h.queue.congr h_arena h_heap h_pqSize h_nodeCount⟩

/-- BUILD keeps the invariant (R116). -/
theorem inv_rooted {s : State} (h : s.Inv) (hp : s.phase = .idle) (hl : s.inLen ≠ 0) : s.merged.rooted.Inv := by
  have m := h.memories
  have hq : QueueForm s.merged := (merged_induct queueForm_closed s
    ⟨m.arena, m.arenaRange, ⟨m.heap, m.heapRange⟩, queueOk_of_empty rfl (by simp)⟩).1
  have hq' := queueForm_dequeue hq
  have hph := h.phase
  rw [State.PhaseOk] at hph
  simp only [hp] at hph
  obtain ⟨t, ht⟩ := builtOk_rooted hl
  have ea := dequeueRest_arena s.merged
  have en := dequeueRest_nodeCount s.merged
  rw [rooted_merged_eq] at ht ⊢
  have hf := wf_countBytes s.inputBytes
  have hr := recordsOk_merged s
  generalize dequeueTop s.merged = r at *
  generalize dequeueRest s.merged = d at *
  generalize s.merged = mg at *
  generalize BitVec.ofNat 9 (participants (countBytes s.inputBytes)).length = k at *
  generalize countBytes s.inputBytes = f at *
  exact h.built hph.2.1 hph.2.2 ht hf (hq'.congr ea.symm rfl rfl en.symm) hr.congr

/-! ### GENCODES and EMIT -/

theorem wf_codeTable {α : Type} [DecidableEq α] {d : α} (g : List Bool → α) (codes : List (Byte × List Bool)) :
    Table.WF d (codes.foldl (fun t c => Table.set d t c.1.toNat (g c.2)) []) ∧
      ∀ c ∈ codes.foldl (fun t c => Table.set d t c.1.toNat (g c.2)) ([] : Table α), c.1 < Config.symbols := by
  have go : ∀ (codes : List (Byte × List Bool)) (t : Table α), (Table.WF d t ∧ ∀ c ∈ t, c.1 < Config.symbols) →
      Table.WF d (codes.foldl (fun t c => Table.set d t c.1.toNat (g c.2)) t) ∧
        ∀ c ∈ codes.foldl (fun t c => Table.set d t c.1.toNat (g c.2)) t, c.1 < Config.symbols := by
    intro codes
    induction codes with
    | nil => exact fun t h => h
    | cons b rest ih =>
      intro t h
      refine ih _ ⟨Table.wf_set h.1 _ _, fun c hc => ?_⟩
      rcases Table.mem_set hc with ⟨rfl, -⟩ | ⟨-, hm⟩
      · exact b.1.isLt
      · exact h.2 c hm
  exact go codes [] ⟨Table.wf_nil, by simp⟩

/-- GENCODES keeps the invariant (R126). -/
theorem inv_withCodes {s : State} (h : s.Inv) {t : CodeTree} (ht : s.BuiltOk t) (ho : s.NoOutput) :
    (s.withCodes t.codes).Inv := by
  have m := h.memories
  have h1 := wf_codeTable (d := (0 : Byte)) (fun p => BitVec.ofNat 8 p.length) t.codes
  have h2 := wf_codeTable (d := (0 : BitVec 255)) (fun p => BitVec.ofNat 255 (lsbFirst p)) t.codes
  refine ⟨h.params, ⟨m.inbuf, m.inRange, m.outbuf, m.outRange, m.freq, m.freqRange, m.arena, m.arenaRange, m.heap,
    m.heapRange, h1.1, h1.2, h2.1, h2.2⟩, ⟨h.buffers.input, h.buffers.read, h.buffers.output, fun h0 => absurd ho.outLen h0⟩,
    h.error.congr, h.queue.congr, ⟨t, ht.congr, codesOk_withCodes ht.symbols ht.freq, ho.congr⟩,
    h.records.congr⟩

theorem length_symbols {s : State} {t : CodeTree} (h : s.BuiltOk t) : t.symbols.length = s.nsym.toNat := by
  rw [h.nsym, ← List.toFinset_card_of_nodup h.symbols]
  congr 1
  ext b
  simp [h.participating]

theorem nsym_le {s : State} {t : CodeTree} (h : s.BuiltOk t) : s.nsym.toNat ≤ 256 := by
  rw [← length_symbols h]
  exact length_le_of_nodup_bytes h.symbols

theorem nsym_pos {s : State} {t : CodeTree} (h : s.BuiltOk t) : 0 < s.nsym.toNat := by
  rw [← length_symbols h]
  exact t.length_symbols_pos

theorem toNat_treeLen {s : State} {t : CodeTree} (h : s.BuiltOk t) (bytes : List Byte) :
    (s.emitted bytes).treeLen.toNat + 2 = 6 * s.nsym.toNat := by
  have h1 := t.length_symbols_pos
  rw [length_symbols h] at h1
  have h2 := s.nsym.isLt
  rw [State.emitted_treeLen]
  have h3 : (s.nsym.setWidth 32).toNat = s.nsym.toNat := by
    rw [BitVec.toNat_setWidth]
    exact Nat.mod_eq_of_lt (by omega)
  generalize s.nsym.setWidth 32 = w at h3 ⊢
  rw [← h3] at h1 h2 ⊢
  bv_omega

/-- EMIT keeps the invariant (R138). -/
theorem inv_emitted {s : State} (h : s.Inv) {t : CodeTree} (ht : s.BuiltOk t) (hc : s.CodesOk t) (ho : s.NoOutput)
    (hl : (s.stream t.bytes).length ≤ s.params.outCap) : (s.emitted (s.stream t.bytes)).Inv := by
  have m := h.memories
  have hcap := h.params.2.2.2.1
  have hlen := toNat_outLen_emitted s (bytes := s.stream t.bytes) (by omega)
  have hob : s.outbuf = [] := by
    have := m.outRange
    rw [ho.outLen] at this
    exact List.eq_nil_iff_forall_not_mem.mpr fun c hc => by simpa using this c hc
  refine ⟨h.params, ⟨m.inbuf, m.inRange, Memory.wf_writeList m.outbuf _ _, fun c hc => ?_, m.freq, m.freqRange, m.arena,
    m.arenaRange, m.heap, m.heapRange, m.codeLen, m.codeLenRange, m.codeBits, m.codeBitsRange⟩,
    ⟨h.buffers.input, by simp, by rw [hlen]; exact hl, fun _ => rfl⟩, h.error.congr, h.queue.congr,
    ⟨t, ht.congr, hc.congr, ⟨?_, toNat_treeLen ht _⟩⟩, h.records.congr⟩
  · rw [hlen]
    rcases Memory.mem_writeList hc with hc | hc
    · omega
    · simp [hob] at hc
  · rw [outputBytes_emitted s (by omega)]
    rfl

end Sys2Proof.Machine
end

