-- ==== Sys2Proof/Laws/Exec.lean ====
section
/-! SUPPORT. What the shared endings of an instruction can answer, what the stages of COMPRESS answer where the
invariant holds, and what a step can be (spec/40_host_access.md R90, R91, R99 to R102). -/

namespace Sys2Proof.Machine

variable {s t : State}

/-! ### The shared endings -/

/-- Everything the completion of a command word can answer with a next state. -/
theorem runCommand_next {i : Instr} {f : State → Performed} (h : runCommand i f s = .next t) :
    (allowedIn i s.phase = true ∧ ∃ u, f s = .done u ∧ t = u.finish) ∨
    (allowedIn i s.phase = true ∧ ∃ e u, f s = .raised e u ∧ t = (u.raise e (encodeWord i) false).finish) ∨
    (allowedIn i s.phase = false ∧ t = (s.raise .sequence (encodeWord i) false).finish) := by
  rw [runCommand] at h
  split at h <;> rename_i ha
  · cases hf : f s with
    | done u =>
      rw [hf] at h
      exact .inl ⟨ha, u, rfl, (Host.Outcome.next.inj h).symm⟩
    | raised e u =>
      rw [hf] at h
      exact .inr (.inl ⟨ha, e, u, rfl, (Host.Outcome.next.inj h).symm⟩)
    | endless =>
      rw [hf] at h
      cases h
  · exact .inr (.inr ⟨by simpa using ha, (Host.Outcome.next.inj h).symm⟩)

theorem runCommand_done {i : Instr} {f : State → Performed} (ha : allowedIn i s.phase = true) (hf : f s = .done t) :
    runCommand i f s = .next t.finish := by rw [runCommand, if_pos ha, hf, completion]

theorem runCommand_raised {i : Instr} {f : State → Performed} {e : ErrorKind} (ha : allowedIn i s.phase = true)
    (hf : f s = .raised e t) : runCommand i f s = .next (t.raise e (encodeWord i) false).finish := by
  rw [runCommand, if_pos ha, hf, completion]

theorem runCommand_sequence {i : Instr} {f : State → Performed} (ha : allowedIn i s.phase = false) :
    runCommand i f s = .next (s.raise .sequence (encodeWord i) false).finish := by
  rw [runCommand, if_neg (by simp [ha]), completion]

theorem err_of_ne (h : s.errCode ≠ 0) : s.err = true := by simpa [State.err] using h

theorem err_of_eq (h : s.errCode = 0) : s.err = false := by simpa [State.err] using h

/-- `t` differs from `s` only in what the host has seen and in the draws taken. -/
def Observed (s t : State) : Prop := t = { s with reads := t.reads, draws := t.draws }

theorem exactRead_next {v : Word} (h : exactRead v s = .next t) : Observed s t := by
  rw [← Host.Outcome.next.inj h]
  rfl

theorem guardedRead_next {v : Word} (h : guardedRead v s = .next t) : Observed s t := by
  rw [guardedRead] at h
  split at h <;> (rw [← Host.Outcome.next.inj h]; rfl)

theorem guardedRead_idle {v : Word} (h : s.busy = false) : guardedRead v s = .next (s.observe v) := by
  rw [guardedRead, if_neg (by simp [h])]

theorem guardedRead_busy {v : Word} (h : s.busy = true) : guardedRead v s = .next s.observeDraw := by
  rw [guardedRead, if_pos h]

theorem busy_eq_false : s.busy = false ↔ s.pending = none := by simp [State.busy]

theorem readGives_exact {i : Instr} {v w : Word} (h : exec i s = exactRead w s) (e : w = v) : ReadGives i v s := by
  rw [ReadGives, h, e]
  rfl

theorem readGives_guarded {i : Instr} {v w : Word} (h : exec i s = guardedRead w s) (hp : s.pending = none)
    (e : w = v) : ReadGives i v s := by
  rw [ReadGives, h, e, guardedRead_idle (busy_eq_false.mpr hp)]
  rfl

/-! ### The stages of COMPRESS -/

theorem performBuild_done (h : s.inLen ≠ 0) : performBuild s = .done s.merged.rooted := by
  rw [performBuild, if_neg h]

theorem performGencodes_done {c : CodeTree} (h : TreeAt s.arena s.root c) :
    performGencodes s = .done (s.withCodes c.codes) := by
  rw [performGencodes, walk_root h]

theorem performEmit_done {c : CodeTree} (h : TreeAt s.arena s.root c)
    (hl : (s.stream c.bytes).length ≤ s.params.outCap) : performEmit s = .done (s.emitted (s.stream c.bytes)) := by
  simp only [performEmit, treeBytes_root h]
  rw [if_neg (by omega)]

theorem performEmit_raised {c : CodeTree} (h : TreeAt s.arena s.root c)
    (hl : s.params.outCap < (s.stream c.bytes).length) : performEmit s = .raised .outOverflow s := by
  simp only [performEmit, treeBytes_root h]
  rw [if_pos hl]

/-- COMPRESS with input: BUILD and GENCODES run, and EMIT ends it (R139). -/
theorem performCompress_eq (h : s.inLen ≠ 0) : ∃ c, s.merged.rooted.BuiltOk c ∧
    performCompress s = performEmit (s.merged.rooted.withCodes c.codes) := by
  obtain ⟨c, hc⟩ := builtOk_rooted h
  refine ⟨c, hc, ?_⟩
  rw [performCompress, performBuild_done h, Performed.andThen, performGencodes_done hc.tree, Performed.andThen]

/-- BUILD with input, with the state it leaves as one name: the tree, and everything BUILD leaves unchanged (R116). -/
theorem exists_built (h : s.inLen ≠ 0) : ∃ (b : State) (c : CodeTree), performBuild s = .done b ∧ b.BuiltOk c ∧
    b = { s with
      freq := b.freq, nsym := b.nsym, arena := b.arena, nodeCount := b.nodeCount, heap := b.heap, pqSize := 0
      root := b.root, phase := .built } ∧
    performCompress s = performEmit (b.withCodes c.codes) := by
  obtain ⟨c, hc, e⟩ := performCompress_eq h
  refine ⟨_, c, performBuild_done h, hc, ?_, e⟩
  have hq := hc.queue
  rw [rooted_merged_eq] at hq ⊢
  generalize dequeueTop s.merged = r at *
  generalize dequeueRest s.merged = d at *
  generalize s.merged = m at *
  generalize BitVec.ofNat 9 (participants (countBytes s.inputBytes)).length = k at *
  generalize countBytes s.inputBytes = f at *
  change d.pqSize = 0 at hq
  generalize d.pqSize = q at *
  subst hq
  rfl

/-- What EMIT answers where the tree is sound. -/
theorem performEmit_cases {c : CodeTree} (h : TreeAt s.arena s.root c) :
    ((s.stream c.bytes).length ≤ s.params.outCap ∧ performEmit s = .done (s.emitted (s.stream c.bytes))) ∨
    (s.params.outCap < (s.stream c.bytes).length ∧ performEmit s = .raised .outOverflow s) := by
  by_cases hl : (s.stream c.bytes).length ≤ s.params.outCap
  · exact .inl ⟨hl, performEmit_done h hl⟩
  · exact .inr ⟨by omega, performEmit_raised h (by omega)⟩

/-! ### The invariant -/

theorem State.Inv.built_of_phase (h : s.Inv) (hp : s.phase = .built) : ∃ c, s.BuiltOk c ∧ s.NoCodes ∧ s.NoOutput := by
  have := h.phase
  rw [State.PhaseOk, hp] at this
  exact this

theorem State.Inv.coded_of_phase (h : s.Inv) (hp : s.phase = .coded) : ∃ c, s.BuiltOk c ∧ s.CodesOk c ∧ s.NoOutput := by
  have := h.phase
  rw [State.PhaseOk, hp] at this
  exact this

theorem State.Inv.done_of_phase (h : s.Inv) (hp : s.phase = .done) : ∃ c, s.BuiltOk c ∧ s.CodesOk c ∧ s.OutputOk c := by
  have := h.phase
  rw [State.PhaseOk, hp] at this
  exact this

theorem State.Inv.observed (h : s.Inv) (e : Observed s t) : t.Inv := by
  rw [Observed] at e
  rw [e]
  exact h.congr

theorem inv_performGencodes {u : State} (h : s.Inv) (hp : s.phase = .built) (hu : performGencodes s = .done u) : u.Inv := by
  obtain ⟨c, hc, -, ho⟩ := h.built_of_phase hp
  rw [performGencodes_done hc.tree] at hu
  cases hu
  exact inv_withCodes h hc ho

theorem inv_performEmit {u : State} (h : s.Inv) (hp : s.phase = .coded) (hu : performEmit s = .done u) : u.Inv := by
  obtain ⟨c, hc, hk, ho⟩ := h.coded_of_phase hp
  rcases performEmit_cases hc.tree with ⟨hl, e⟩ | ⟨-, e⟩ <;> rw [e] at hu <;> cases hu
  exact inv_emitted h hc hk ho hl

/-- How a command's semantics keeps the invariant: whether it completes or raises. -/
def KeepsInv (p : Performed) : Prop :=
  match p with
  | .done u => u.Inv
  | .raised e u => u.Inv ∧ e.FromSource false
  | .endless => False

theorem keepsInv_build (h : s.Inv) (hp : s.phase = .idle) : KeepsInv (performBuild s) := by
  by_cases hl : s.inLen = 0
  · rw [performBuild, if_pos hl]
    exact ⟨h, rfl⟩
  · rw [performBuild_done hl]
    exact inv_rooted h hp hl

theorem keepsInv_gencodes (h : s.Inv) (hp : s.phase = .built) : KeepsInv (performGencodes s) := by
  obtain ⟨c, hc, -, ho⟩ := h.built_of_phase hp
  rw [performGencodes_done hc.tree]
  exact inv_withCodes h hc ho

theorem keepsInv_emit (h : s.Inv) (hp : s.phase = .coded) : KeepsInv (performEmit s) := by
  obtain ⟨c, hc, hk, ho⟩ := h.coded_of_phase hp
  rcases performEmit_cases hc.tree with ⟨hl, e⟩ | ⟨-, e⟩ <;> rw [e]
  · exact inv_emitted h hc hk ho hl
  · exact ⟨h, rfl⟩

theorem keepsInv_compress (h : s.Inv) (hp : s.phase = .idle) : KeepsInv (performCompress s) := by
  by_cases hl : s.inLen = 0
  · rw [performCompress, performBuild, if_pos hl]
    exact ⟨h, rfl⟩
  · have hb := inv_rooted h hp hl
    obtain ⟨c, hc, e⟩ := performCompress_eq hl
    obtain ⟨-, -, -, ho⟩ := hb.built_of_phase rfl
    rw [e]
    exact keepsInv_emit (inv_withCodes hb hc ho) rfl

/-- A command keeps the invariant if its semantics does in the phases that allow it. -/
theorem inv_runCommand {i : Instr} {f : State → Performed} (h : s.Inv)
    (hf : allowedIn i s.phase = true → KeepsInv (f s)) (hn : runCommand i f s = .next t) : t.Inv := by
  rcases runCommand_next hn with ⟨ha, u, hu, rfl⟩ | ⟨ha, e, u, hu, rfl⟩ | ⟨-, rfl⟩
  · have := hf ha
    rw [hu] at this
    exact inv_finish this
  · have := hf ha
    rw [hu] at this
    exact inv_raise_finish this.1 e _ this.2
  · exact inv_raise_finish h .sequence _ trivial

/-- A command completes if its semantics ends. -/
theorem completes_runCommand {i : Instr} {f : State → Performed}
    (hf : allowedIn i s.phase = true → KeepsInv (f s)) : Completes (runCommand i f s) := by
  cases ha : allowedIn i s.phase with
  | false => exact ⟨_, runCommand_sequence ha⟩
  | true =>
    have := hf ha
    cases hp : f s with
    | done u => exact ⟨_, runCommand_done ha hp⟩
    | raised e u => exact ⟨_, runCommand_raised ha hp⟩
    | endless =>
      rw [hp] at this
      exact this.elim

theorem keepsInv_push (h : s.Inv) (hp : s.phase = .idle) (sym : Byte) : KeepsInv (performPush sym s) := by
  rw [performPush]
  split <;> rename_i hf
  · exact ⟨h, rfl⟩
  · exact (inv_push h hp _ _ (fun e => hf (.inl e)) (fun e => hf (.inr e))).congr

theorem keepsInv_pop (h : s.Inv) (hp : s.phase = .idle) : KeepsInv (performPop s) := by
  rw [performPop]
  split <;> exact (inv_dequeue h hp).congr

theorem keepsInv_readHeap (h : s.Inv) (slot : BitVec 9) : KeepsInv (performReadHeap slot s) := by
  rw [performReadHeap]
  split <;> exact h.congr

theorem keepsInv_readNode (h : s.Inv) (id : NodeId) : KeepsInv (performReadNode id s) := by
  rw [performReadNode]
  split <;> exact h.congr

/-- The semantics of each command word; an access has none, and none is used. -/
def semantics : Instr → State → Performed
  | .clear, s => .done s.cleared
  | .build, s => performBuild s
  | .gencodes, s => performGencodes s
  | .emit, s => performEmit s
  | .compress, s => performCompress s
  | .pqReset, s => .done s.emptyQueue
  | .pqPush sym, s => performPush sym s
  | .pqPop, s => performPop s
  | .readHeap slot, s => performReadHeap slot s
  | .readFreq sym, s => .done (s.reportFreq sym)
  | .readCode sym w, s => .done (s.reportCode sym w)
  | .readNode id, s => performReadNode id s
  | _, s => .done s

/-- Every command runs through the one completion. -/
theorem exec_command {i : Instr} {w : Word} (hi : encode i = .command w) (s : State) :
    exec i s = runCommand i (semantics i) s := by
  cases i <;> first | rfl | cases hi

theorem encodeWord_of_command {i : Instr} {w : Word} (hi : encode i = .command w) : encodeWord i = w := by
  rw [encodeWord, hi]

/-- A command whose semantics completes (R101). -/
theorem exec_done {i : Instr} {w : Word} (t : State) (hi : encode i = .command w) (ha : allowedIn i s.phase = true)
    (hf : semantics i s = .done t) : exec i s = .next t.finish := by
  rw [exec_command hi]
  exact runCommand_done ha hf

/-- A command whose semantics raises (R100, R101). -/
theorem exec_raised {i : Instr} {w : Word} (t : State) (e : ErrorKind) (hi : encode i = .command w)
    (ha : allowedIn i s.phase = true) (hf : semantics i s = .raised e t) :
    exec i s = .next (t.raise e w false).finish := by
  rw [exec_command hi, ← encodeWord_of_command hi]
  exact runCommand_raised ha hf

/-- A command in a phase that does not allow it (R102). -/
theorem endsInSequence {i : Instr} {w : Word} (hi : encode i = .command w) (h : allowedIn i s.phase = false) :
    EndsInSequence i w s := by
  rw [EndsInSequence, exec_command hi, runCommand_sequence h, encodeWord_of_command hi]
  rfl

theorem keepsInv_semantics {i : Instr} (h : s.Inv) (ha : allowedIn i s.phase = true) : KeepsInv (semantics i s) := by
  cases i <;> simp only [allowedIn, beq_iff_eq] at ha <;> first
    | exact h
    | exact inv_cleared h
    | exact keepsInv_build h ha
    | exact keepsInv_gencodes h ha
    | exact keepsInv_emit h ha
    | exact keepsInv_compress h ha
    | exact inv_emptyQueue h ha
    | exact keepsInv_push h ha _
    | exact keepsInv_pop h ha
    | exact keepsInv_readHeap h _
    | exact keepsInv_readNode h _
    | exact State.Inv.congr (t := s.reportFreq _) h
    | exact State.Inv.congr (t := s.reportCode _ _) h

/-- A command keeps the invariant (R99 to R101). -/
theorem inv_exec_command {i : Instr} (h : s.Inv) (hn : exec i s = .next t) {w : Word} (hi : encode i = .command w) :
    t.Inv := by
  rw [exec_command hi] at hn
  exact inv_runCommand h (keepsInv_semantics h) hn

/-- A command completes where the invariant holds. -/
theorem completes_command {i : Instr} {w : Word} (hi : encode i = .command w) (h : s.Inv) : Completes (exec i s) := by
  rw [exec_command hi]
  exact completes_runCommand (keepsInv_semantics h)

/-- The writes keep the invariant (R91). -/
theorem inv_execWrCmd (h : s.Inv) {v : Word} (hn : execWrCmd v s = .next t) : t.Inv := by
  rw [execWrCmd] at hn
  split at hn
  · rw [← Host.Outcome.next.inj hn]
    exact h.congr
  · split at hn <;> rename_i he <;> rw [← Host.Outcome.next.inj hn]
    · exact h
    · refine inv_accept h fun h0 => ?_
      by_contra hv
      exact he ⟨by simpa [State.err] using h0, hv⟩

theorem inv_execWrArg (h : s.Inv) {v : Word} (hn : execWrArg v s = .next t) : t.Inv := by
  rw [execWrArg] at hn
  split at hn <;> rw [← Host.Outcome.next.inj hn] <;> exact h.congr

theorem inv_execWrDataIn (h : s.Inv) {v : Word} (hn : execWrDataIn v s = .next t) : t.Inv := by
  rw [execWrDataIn] at hn
  split at hn <;> rename_i hb
  · rw [← Host.Outcome.next.inj hn]
    exact h.congr
  · have hp : s.pending = none := busy_eq_false.mp (by simpa using hb)
    split at hn
    · rw [← Host.Outcome.next.inj hn]
      exact h
    · split at hn <;> rename_i ha
      · rw [← Host.Outcome.next.inj hn]
        exact inv_raise h .sequence v trivial hp
      · split at hn <;> rename_i hl <;> rw [← Host.Outcome.next.inj hn]
        · exact inv_raise h .inOverflow v rfl hp
        · exact inv_appendInput h _ (by simpa [allowedIn] using ha) hl

theorem inv_execRdDataOut (h : s.Inv) (hn : execRdDataOut s = .next t) : t.Inv := by
  rw [execRdDataOut] at hn
  split at hn
  · rw [← Host.Outcome.next.inj hn]
    exact h.congr
  · split at hn <;> rename_i hv <;> rw [← Host.Outcome.next.inj hn]
    · exact (inv_pop h (by simpa [State.outValid, BitVec.ult] using hv)).congr
    · exact h.congr

/-- The accesses keep the invariant (R90, R91). -/
theorem inv_exec_access {i : Instr} (h : s.Inv) (hn : exec i s = .next t) (hi : ∀ w, encode i ≠ .command w) : t.Inv := by
  cases i <;> first
    | exact absurd rfl (hi _)
    | exact h.observed (exactRead_next hn)
    | exact h.observed (guardedRead_next hn)
    | exact inv_execWrCmd h hn
    | exact inv_execWrArg h hn
    | exact inv_execWrDataIn h hn
    | exact inv_execRdDataOut h hn
    | (rw [← Host.Outcome.next.inj hn]; exact h)

theorem completes_guardedRead (v : Word) (s : State) : Completes (guardedRead v s) := by
  rw [guardedRead]
  split <;> exact ⟨_, rfl⟩

theorem completes_execWrCmd (v : Word) (s : State) : Completes (execWrCmd v s) := by
  rw [execWrCmd]
  split
  · exact ⟨_, rfl⟩
  · split <;> exact ⟨_, rfl⟩

theorem completes_execWrArg (v : Word) (s : State) : Completes (execWrArg v s) := by
  rw [execWrArg]
  split <;> exact ⟨_, rfl⟩

theorem completes_execWrDataIn (v : Word) (s : State) : Completes (execWrDataIn v s) := by
  rw [execWrDataIn]
  split
  · exact ⟨_, rfl⟩
  · split
    · exact ⟨_, rfl⟩
    · split
      · exact ⟨_, rfl⟩
      · split <;> exact ⟨_, rfl⟩

theorem completes_execRdDataOut (s : State) : Completes (execRdDataOut s) := by
  rw [execRdDataOut]
  split
  · exact ⟨_, rfl⟩
  · split <;> exact ⟨_, rfl⟩

/-- An access completes in every state (R90, R91). -/
theorem completes_access {i : Instr} (hi : ∀ w, encode i ≠ .command w) : Completes (exec i s) := by
  cases i <;> first
    | exact absurd rfl (hi _)
    | exact ⟨_, rfl⟩
    | exact completes_guardedRead _ _
    | exact completes_execWrCmd _ _
    | exact completes_execWrArg _ _
    | exact completes_execWrDataIn _ _
    | exact completes_execRdDataOut _

/-! ### A step -/

/-- Everything a step that goes on can be: the engine's completion step of a valid or an invalid word, a reset, or an
access. -/
theorem step_cases (h : step s = .next t) :
    (s.engineNext = true ∧ ∃ w, s.pending = some w ∧
      ((∃ i, decodeCommand w = .ok i ∧ exec i s = .next t) ∨
        (∃ e, decodeCommand w = .error e) ∧ t = (s.raise .badCommand w false).finish)) ∨
    (s.engineNext = false ∧ ∃ p rest, s.agenda = p :: rest ∧
      ((p.event = .reset ∧ t = ({ s with agenda := rest } : State).cleared) ∨
        ∃ a c i, p.event = .access a ∧ accessCode s.params a = .ok c ∧ decode c = .ok i ∧
          exec i { s with agenda := rest } = .next t)) := by
  rw [step, State.fetch] at h
  cases he : s.engineNext with
  | true =>
    rw [he, if_pos rfl, fetchCommand] at h
    refine .inl ⟨rfl, ?_⟩
    cases hp : s.pending with
    | none => simp [hp] at h
    | some w =>
      refine ⟨w, rfl, ?_⟩
      simp only [hp] at h
      cases hd : decodeCommand w with
      | ok i =>
        simp only [hd] at h
        exact .inl ⟨i, rfl, h⟩
      | error e =>
        simp only [hd] at h
        exact .inr ⟨⟨e, rfl⟩, (Host.Outcome.next.inj h).symm⟩
  | false =>
    rw [he, if_neg (by decide)] at h
    refine .inr ⟨rfl, ?_⟩
    cases ha : s.agenda with
    | nil => simp [ha] at h
    | cons p rest =>
      refine ⟨p, rest, rfl, ?_⟩
      simp only [ha] at h
      cases hv : p.event with
      | reset =>
        simp only [hv] at h
        exact .inl ⟨rfl, (Host.Outcome.next.inj h).symm⟩
      | access a =>
        simp only [hv, fetchAccess] at h
        cases hc : accessCode s.params a with
        | error r => simp [hc] at h
        | ok c =>
          simp only [hc] at h
          cases hd : decode c with
          | error e => simp [hd] at h
          | ok i =>
            simp only [hd] at h
            exact .inr ⟨a, c, i, rfl, hc, hd, h⟩

/-- An access is never decoded as a command. -/
theorem encode_of_access {c : Code} {i : Instr} (hc : decode c = .ok i) (hn : ∀ w, c ≠ .command w) :
    ∀ w, encode i ≠ .command w := by
  intro w
  cases c with
  | command v => exact absurd rfl (hn v)
  | read off =>
    simp only [decode, decodeRead] at hc
    split at hc <;> first | (cases hc; simp [encode]) | (split at hc <;> cases hc; simp [encode])
  | write off v =>
    simp only [decode, decodeWrite] at hc
    split at hc <;> first | (cases hc; simp [encode]) | (split at hc <;> cases hc; simp [encode])

theorem accessCode_ne_command {p : Params} {a : Access} {c : Code} (h : accessCode p a = .ok c) : ∀ w, c ≠ .command w := by
  intro w e
  rw [accessCode] at h
  split at h
  · cases h
  · split at h
    · cases h
    · split at h <;> (cases h; cases e)

theorem engineNext_eq_true {w : Word} (hp : s.pending = some w)
    (ha : s.agenda = [] ∨ ∃ p rest, s.agenda = p :: rest ∧ p.engineFirst = true) : s.engineNext = true := by
  rcases ha with ha | ⟨p, rest, ha, hf⟩ <;> simp [State.engineNext, State.busy, *]

theorem engineNext_eq_false {p : Planned} {rest : List Planned} (ha : s.agenda = p :: rest)
    (hb : s.busy = false ∨ p.engineFirst = false) : s.engineNext = false := by
  rcases hb with hb | hb <;> simp [State.engineNext, ha, hb]

/-- The access at an aligned register offset is the access of that register (R12, R46 to R48). -/
theorem accessCode_busAccess (p : Params) {off : Offset} (k : AccessKind) (h : off.Aligned) :
    accessCode p (busAccess p off k) = .ok (match k with | .read => .read off | .write v => .write off v) := by
  have hlt := off.isLt
  rw [accessCode, if_neg (by simp [busAccess, Config.window]; omega), if_neg (by simp [busAccess, h])]
  cases k <;> simp [busAccess]

/-- Only aligned offsets decode. -/
theorem aligned_of_decodeRead {off : Offset} {i : Instr} (h : decode (.read off) = .ok i) : off.Aligned := by
  simp only [decode, decodeRead] at h
  split at h <;> first | omega | (split at h <;> rename_i hh <;> first | exact hh.1 | cases h)

theorem aligned_of_decodeWrite {off : Offset} {v : Word} {i : Instr} (h : decode (.write off v) = .ok i) :
    off.Aligned := by
  simp only [decode, decodeWrite] at h
  split at h <;> first | omega | (split at h <;> rename_i hh <;> first | exact hh | cases h)

end Sys2Proof.Machine
end

