-- ==== Sys2Proof/Laws/Agree.lean ====
section
/-! SUPPORT. Nothing that diagnostics left in the queue or the arena reaches a build: two states that agree on what is
allocated and queued go on agreeing (spec/42_tree_builder.md R116, spec/44_codec_emit.md R140). -/

namespace Sys2Proof.Machine

/-! ### The sift loops -/

/-- Slots 1 to `n` hold the same nodes with the same keys. -/
def SlotsAgree (a a' : Table Node) (h h' : Table NodeId) (n : Nat) : Prop :=
  ∀ i, 1 ≤ i → i ≤ n → Table.get 0 h i = Table.get 0 h' i ∧ heapKey a h i = heapKey a' h' i

theorem SlotsAgree.swap {a a' : Table Node} {h h' : Table NodeId} {n : Nat} (e : SlotsAgree a a' h h' n) {i j : Nat}
    (h1 : 1 ≤ i) (h2 : i ≤ n) (h3 : 1 ≤ j) (h4 : j ≤ n) :
    SlotsAgree a a' (heapSwap h i j) (heapSwap h' i j) n := by
  intro k hk hkn
  have : 1 ≤ swapSlot i j k ∧ swapSlot i j k ≤ n := by
    rw [swapSlot]
    split_ifs <;> omega
  rw [get_heapSwap_slot, get_heapSwap_slot, heapKey_heapSwap, heapKey_heapSwap]
  exact e _ this.1 this.2

theorem SlotsAgree.siftUp {a a' : Table Node} {n : Nat} (fuel : Nat) {h h' : Table NodeId} {i : Nat}
    (e : SlotsAgree a a' h h' n) (h1 : 1 ≤ i) (h2 : i ≤ n) :
    SlotsAgree a a' (siftUp a fuel h i) (siftUp a' fuel h' i) n := by
  induction fuel generalizing h h' i with
  | zero => exact e
  | succ fuel ih =>
    rw [Machine.siftUp, Machine.siftUp]
    by_cases hi : 1 < i
    · rw [(e i h1 h2).2, (e (i / 2) (by omega) (by omega)).2]
      split
      · exact ih (e.swap h1 h2 (by omega) (by omega)) (by omega) (by omega)
      · exact e
    · rw [if_neg (fun c => hi c.1), if_neg (fun c => hi c.1)]
      exact e

theorem SlotsAgree.smallerChild {a a' : Table Node} {n size : Nat} {h h' : Table NodeId} {i : Nat}
    (e : SlotsAgree a a' h h' n) (hs : size ≤ n) (h1 : 1 ≤ i) :
    smallerChild a size h i = smallerChild a' size h' i := by
  rw [Machine.smallerChild, Machine.smallerChild]
  by_cases hc : 2 * i + 1 ≤ size
  · rw [(e (2 * i + 1) (by omega) (by omega)).2, (e (2 * i) (by omega) (by omega)).2]
  · rw [if_neg (fun c => hc c.1), if_neg (fun c => hc c.1)]

theorem SlotsAgree.siftDown {a a' : Table Node} {n size : Nat} (hs : size ≤ n) (fuel : Nat) {h h' : Table NodeId} {i : Nat}
    (e : SlotsAgree a a' h h' n) (h1 : 1 ≤ i) :
    SlotsAgree a a' (siftDown a size fuel h i) (siftDown a' size fuel h' i) n := by
  induction fuel generalizing h h' i with
  | zero => exact e
  | succ fuel ih =>
    rw [Machine.siftDown, Machine.siftDown]
    split <;> rename_i hsz
    · exact e
    · obtain ⟨hc, hle, -⟩ := smallerChild_cases a size h i hsz
      rw [← e.smallerChild hs h1]
      generalize Machine.smallerChild a size h i = c at *
      rw [(e c (by omega) (by omega)).2, (e i h1 (by omega)).2]
      split
      · exact ih (e.swap h1 (by omega) (by omega) (by omega)) (by omega)
      · exact e

/-! ### The queue of two states -/

/-- Two states agree on the allocated nodes and the queue. -/
structure QueueAgree (s s' : State) : Prop where
  ok : s.QueueOk
  count : s.nodeCount = s'.nodeCount
  size : s.pqSize = s'.pqSize
  freq : s.freq = s'.freq
  nodes : ∀ n : NodeId, n.toNat < s.nodeCount.toNat → s.nodeAt n = s'.nodeAt n
  slots : ∀ i, 1 ≤ i → i ≤ s.pqSize.toNat → s.heapAt i = s'.heapAt i

theorem QueueAgree.slotsAgree {s s' : State} (h : QueueAgree s s') :
    SlotsAgree s.arena s'.arena s.heap s'.heap s.pqSize.toNat := by
  intro i h1 h2
  have hs := h.slots i h1 h2
  refine ⟨hs, ?_⟩
  have hm : s.heapAt i ∈ s.queueIds := queueIds_eq_slots s ▸ mem_slots.mpr ⟨i, h1, h2, rfl⟩
  have := h.nodes _ (h.ok.allocated _ hm)
  change (s.nodeAt (s.heapAt i)).freq = (s'.nodeAt (s'.heapAt i)).freq
  rw [← hs, this]

theorem QueueAgree.addNode {s s' : State} (h : QueueAgree s s') (nd : Node) (hs : s.pqSize.toNat < Config.heapCap)
    (hc : s.nodeCount.toNat < Config.arenaCap) : QueueAgree (addNode nd s) (addNode nd s') := by
  have hcap := arenaCap_eq
  have hcap' := heapCap_eq
  have hid : s.nextId = s'.nextId := by rw [State.nextId, h.count, State.nextId]
  have hnodes : ∀ n : NodeId, n.toNat < s.nodeCount.toNat + 1 →
      (Machine.addNode nd s).nodeAt n = (Machine.addNode nd s').nodeAt n := by
    intro n hn
    rw [nodeAt_addNode, nodeAt_addNode, ← hid]
    by_cases e : n = s.nextId
    · rw [if_pos e, if_pos e]
    · rw [if_neg e, if_neg e]
      refine h.nodes n ?_
      have := toNat_nextId h.ok.count
      have : n.toNat ≠ s.nextId.toNat := fun c => e (BitVec.eq_of_toNat_eq c)
      omega
  refine ⟨queueOk_addNode nd h.ok hs hc, ?_, ?_, h.freq, fun n hn => hnodes n ?_, fun i h1 h2 => ?_⟩
  · simp [h.count]
  · simp [h.size]
  · rwa [toNat_addNode_nodeCount nd hc] at hn
  · have e1 : (allocate nd s).pqSize = s.pqSize := rfl
    rw [addNode_pqSize, pqSize_add_one (by omega)] at h2
    have base : SlotsAgree (allocate nd s).arena (allocate nd s').arena
        (Table.set 0 s.heap (s.pqSize.toNat + 1) s.nextId) (Table.set 0 s'.heap (s.pqSize.toNat + 1) s.nextId)
        (s.pqSize.toNat + 1) := by
      intro k hk hkn
      have hget : Table.get 0 (Table.set 0 s.heap (s.pqSize.toNat + 1) s.nextId) k =
          Table.get 0 (Table.set 0 s'.heap (s.pqSize.toNat + 1) s.nextId) k := by
        rw [Table.get_set, Table.get_set]
        split
        · rfl
        · exact h.slots k hk (by omega)
      refine ⟨hget, ?_⟩
      rw [heapKey, heapKey, ← hget]
      refine congrArg Node.freq (hnodes _ ?_)
      rw [Table.get_set]
      split
      · rw [toNat_nextId h.ok.count]
        omega
      · have hm : s.heapAt k ∈ s.queueIds := queueIds_eq_slots s ▸ mem_slots.mpr ⟨k, hk, by omega, rfl⟩
        have := h.ok.allocated _ hm
        simp only [State.heapAt] at this
        omega
    have := (base.siftUp (s.pqSize.toNat + 1) (i := s.pqSize.toNat + 1) (by omega) le_rfl i h1 h2).1
    rw [State.heapAt, State.heapAt, Machine.addNode, Machine.addNode, enqueue_heap, enqueue_heap, allocate_pqSize,
      allocate_pqSize, allocate_heap, allocate_heap, ← hid, ← h.size, pqSize_add_one (by omega)]
    exact this

theorem QueueAgree.dequeueTop {s s' : State} (h : QueueAgree s s') : dequeueTop s = dequeueTop s' := by
  rw [Machine.dequeueTop, Machine.dequeueTop, ← h.size]
  split <;> rename_i h0
  · rfl
  · exact h.slots 1 le_rfl (by bv_omega)

theorem QueueAgree.dequeueRest {s s' : State} (h : QueueAgree s s') : QueueAgree (dequeueRest s) (dequeueRest s') := by
  by_cases h0 : s.pqSize = 0
  · rw [dequeueRest_empty h0, dequeueRest_empty (h.size ▸ h0)]
    exact h
  · have h0' : s'.pqSize ≠ 0 := h.size ▸ h0
    refine ⟨queueOk_dequeue h.ok, by simpa using h.count, ?_, by simpa using h.freq, fun n hn => ?_, fun i h1 h2 => ?_⟩
    · rw [dequeueRest_pqSize h0, dequeueRest_pqSize h0', h.size]
    · rw [nodeAt_dequeueRest, nodeAt_dequeueRest]
      exact h.nodes n (by simpa using hn)
    · rw [toNat_dequeueRest_pqSize h0] at h2
      have hlast : s.heapAt s.pqSize.toNat = s'.heapAt s'.pqSize.toNat := by
        rw [← h.size]
        exact h.slots _ (by omega) le_rfl
      have base : SlotsAgree s.arena s'.arena (Table.set 0 s.heap 1 (s.heapAt s.pqSize.toNat))
          (Table.set 0 s'.heap 1 (s'.heapAt s'.pqSize.toNat)) (s.pqSize.toNat - 1) := by
        intro k hk hkn
        have hm : s.heapAt s.pqSize.toNat ∈ s.queueIds :=
          queueIds_eq_slots s ▸ mem_slots.mpr ⟨s.pqSize.toNat, by omega, le_rfl, rfl⟩
        rw [heapKey, heapKey, Table.get_set, Table.get_set, ← hlast]
        split
        · exact ⟨rfl, congrArg Node.freq (h.nodes _ (h.ok.allocated _ hm))⟩
        · exact h.slotsAgree k hk (by omega)
      by_cases h1' : s.pqSize = 1
      · rw [h1'] at h2
        simp at h2
        omega
      · have := (base.siftDown (size := s.pqSize.toNat - 1) le_rfl (s.pqSize.toNat - 1) (i := 1) le_rfl i h1 h2).1
        simp only [State.heapAt, Machine.dequeueRest, if_neg h0, if_neg h0', if_neg h1', if_neg (h.size ▸ h1')]
        rw [← h.size, pqSize_sub_one h0]
        rw [← h.size] at this
        exact this

/-- BUILD's work depends on the input bytes alone, up to what is no longer allocated or queued (R116, R140). -/
theorem merged_agree {s s' : State} (h : s.inputBytes = s'.inputBytes) : QueueAgree s.merged s'.merged := by
  have hcap := arenaCap_eq
  have hcap' := heapCap_eq
  have hl := length_participants_le (countBytes s.inputBytes)
  have h0 : QueueAgree s.counted.emptyQueue s'.counted.emptyQueue :=
    ⟨queueOk_of_empty rfl (by simp), rfl, rfl, by simp [h], fun n hn => by simp at hn, fun i h1 h2 => by
      simp at h2
      omega⟩
  have hleaves : ∀ (syms : List Nat) (a a' : State), QueueAgree a a' → a.pqSize.toNat + syms.length ≤ 256 →
      a.nodeCount.toNat + syms.length ≤ 256 → QueueAgree (syms.foldl addLeaf a) (syms.foldl addLeaf a') := by
    intro syms
    induction syms with
    | nil => exact fun a a' h _ _ => h
    | cons x rest ih =>
      intro a a' hq h1 h2
      rw [List.length_cons] at h1 h2
      have e1 : (addLeaf a x).pqSize.toNat = a.pqSize.toNat + 1 := by
        rw [addLeaf, addNode_pqSize, pqSize_add_one (by omega)]
      have e2 : (addLeaf a x).nodeCount.toNat = a.nodeCount.toNat + 1 := toNat_addNode_nodeCount _ (by omega)
      refine ih _ _ ?_ (by omega) (by omega)
      have : a'.freqAt x = a.freqAt x := by rw [State.freqAt, ← hq.freq, State.freqAt]
      rw [addLeaf, addLeaf, this]
      exact hq.addNode _ (by omega) (by omega)
  have h1 : QueueAgree s.counted.emptyQueue.withLeaves s'.counted.emptyQueue.withLeaves := by
    rw [State.withLeaves, State.withLeaves]
    simp only [State.emptyQueue_freq, State.counted_freq]
    rw [← h]
    exact hleaves _ _ _ h0 (by simpa using hl) (by simpa using hl)
  have hmerge : ∀ a a', QueueAgree a a' → 2 ≤ a.pqSize.toNat → a.nodeCount.toNat < Config.arenaCap →
      a.pqSize.toNat ≤ 256 → QueueAgree (mergeStep a) (mergeStep a') := by
    intro a a' hq hp hc hs
    have e0 : a.pqSize ≠ 0 := by bv_omega
    have e1 := toNat_dequeueRest_pqSize e0
    have e2 : (dequeueRest a).pqSize ≠ 0 := by
      intro e
      rw [e] at e1
      simp at e1
      omega
    have e3 := toNat_dequeueRest_pqSize e2
    have q1 := hq.dequeueRest
    have q2 := q1.dequeueRest
    have na := hq.nodes _ (hq.ok.allocated _ (dequeueTop_mem e0))
    have nb := q1.nodes _ (q1.ok.allocated _ (dequeueTop_mem e2))
    simp only [mergeStep, nodeAt_dequeueRest] at nb ⊢
    rw [← hq.dequeueTop, ← q1.dequeueTop, na, nb]
    exact q2.addNode _ (by omega) (by simpa using hc)
  have hloop : ∀ (fuel : Nat) (a a' : State), QueueAgree a a' → a.pqSize.toNat ≤ fuel →
      a.nodeCount.toNat + a.pqSize.toNat ≤ 512 → a.pqSize.toNat ≤ 256 →
      QueueAgree (mergeLoop fuel a) (mergeLoop fuel a') := by
    intro fuel
    induction fuel with
    | zero => exact fun a a' h _ _ _ => h
    | succ fuel ih =>
      intro a a' hq hf hc hs
      rw [mergeLoop, mergeLoop, ← hq.size]
      split <;> rename_i hp
      · obtain ⟨e1, e2⟩ := mergeStep_counts (s := a) (by omega) (by omega)
        exact ih _ _ (hmerge a a' hq (by omega) (by omega) hs) (by omega) (by omega) (by omega)
      · exact hq
  have hwl := withLeaves_induct (P := fun _ => True) ⟨fun _ _ _ _ _ => trivial, fun _ _ => trivial⟩ s trivial
  rw [State.merged, State.merged, ← h1.size]
  exact hloop _ _ _ h1 le_rfl (by omega) (by omega)

/-- A tree of allocated nodes is the same tree in a state that agrees. -/
theorem TreeAt.agree {s s' : State} (h : QueueAgree s s') {n : NodeId} {c : CodeTree} (ht : TreeAt s.arena n c)
    (hn : n.toNat < s.nodeCount.toNat) : TreeAt s'.arena n c := by
  induction ht with
  | leaf n h1 h2 h3 h4 =>
    have e : Table.get Node.blank s.arena n.toNat = Table.get Node.blank s'.arena n.toNat := h.nodes n hn
    rw [e] at h1 h2 h3 ⊢
    exact TreeAt.leaf n h1 h2 h3 h4
  | pair n l r h1 h2 h3 h4 _ _ h5 ihl ihr =>
    have e : Table.get Node.blank s.arena n.toNat = Table.get Node.blank s'.arena n.toNat := h.nodes n hn
    have hl := ihl (by omega)
    have hr := ihr (by omega)
    rw [e] at h1 h2 h3 h4 hl hr
    exact TreeAt.pair n l r h1 h2 h3 h4 hl hr h5

/-- The tree BUILD makes depends on the input bytes alone. -/
theorem built_tree_agree {s s' : State} (h : s.inputBytes = s'.inputBytes) {c c' : CodeTree}
    (hc : s.merged.rooted.BuiltOk c) (hc' : s'.merged.rooted.BuiltOk c') : c = c' := by
  have q := merged_agree h
  have t := hc.tree
  have t' := hc'.tree
  have hr := hc.root
  rw [rooted_merged_eq] at t t' hr
  simp only at t t' hr
  rw [← q.dequeueTop] at t'
  exact (t.agree q (by omega)).unique t'

end Sys2Proof.Machine
end

