-- ==== Sys2Proof/Laws/Frame.lean ====
section
/-! SUPPORT. What a command's semantics leaves unchanged, whether it completes or raises (spec/40_host_access.md R100). -/

namespace Sys2Proof.Machine

variable {s t u : State}

/-- `u` differs from `s` only in what a command other than CLEAR may write. -/
def EngineWrites (s u : State) : Prop := u = { s with
  result0 := u.result0, result1 := u.result1, result2 := u.result2, phase := u.phase, outbuf := u.outbuf
  outLen := u.outLen, outRd := u.outRd, freq := u.freq, nsym := u.nsym, arena := u.arena, nodeCount := u.nodeCount
  heap := u.heap, pqSize := u.pqSize, root := u.root, codeLen := u.codeLen, codeBits := u.codeBits, bitcnt := u.bitcnt
  treeLen := u.treeLen }

theorem EngineWrites.trans (h : EngineWrites s t) (h' : EngineWrites t u) : EngineWrites s u := by
  rw [EngineWrites] at *
  rw [h']
  rw [h]

theorem engineWrites_of_queue (h : SameButQueue s t) : EngineWrites s t := by
  rw [SameButQueue] at h
  rw [EngineWrites]
  rw [h]

theorem engineWrites_dequeueRest (s : State) : EngineWrites s (dequeueRest s) :=
  engineWrites_of_queue ((sameButQueue_closed s).remove s rfl)

theorem engineWrites_build (h : performBuild s = .done u) : EngineWrites s u := by
  by_cases h0 : s.inLen = 0
  · rw [performBuild, if_pos h0] at h
    cases h
  · obtain ⟨b, c, hpb, -, hbe, -⟩ := exists_built h0
    rw [hpb] at h
    cases h
    rw [EngineWrites]
    rw [hbe]

theorem engineWrites_emit (h : performEmit s = .done u) : EngineWrites s u := by
  rw [performEmit] at h
  split at h
  · cases h
  · split at h <;> cases h
    rfl

/-- The semantics of a command other than CLEAR writes what EngineWrites says (R100). -/
theorem engineWrites_done {i : Instr} (hi : i ≠ .clear) (h : semantics i s = .done u) : EngineWrites s u := by
  cases i <;> try (cases h; rfl)
  · exact absurd rfl hi
  · exact engineWrites_build h
  · change performGencodes s = _ at h
    rw [performGencodes] at h
    split at h <;> cases h
    rfl
  · exact engineWrites_emit h
  · change performCompress s = _ at h
    by_cases h0 : s.inLen = 0
    · rw [performCompress, performBuild, if_pos h0] at h
      cases h
    · obtain ⟨b, c, hpb, -, -, e⟩ := exists_built h0
      rw [e] at h
      exact ((engineWrites_build hpb).trans (show EngineWrites b (b.withCodes c.codes) from rfl)).trans
        (engineWrites_emit h)
  · simp only [semantics, performPush] at h
    split at h <;> cases h
    rfl
  · simp only [semantics, performPop] at h
    split at h <;> cases h <;> exact (engineWrites_dequeueRest s).trans rfl
  · simp only [semantics, performReadHeap] at h
    split at h <;> (cases h; rfl)
  · simp only [semantics, performReadNode] at h
    split at h <;> (cases h; rfl)

/-- A command other than COMPRESS that raises has written nothing (R100). -/
theorem raised_unchanged {i : Instr} {e : ErrorKind} (hi : i ≠ .compress) (h : semantics i s = .raised e u) :
    u = s := by
  cases i <;> first | (exfalso; exact hi rfl) | cases h | skip
  · change performBuild s = _ at h
    rw [performBuild] at h
    split at h <;> cases h
    rfl
  · change performGencodes s = _ at h
    rw [performGencodes] at h
    split at h <;> cases h
  · change performEmit s = _ at h
    rw [performEmit] at h
    split at h
    · cases h
    · split at h <;> cases h
      rfl
  · simp only [semantics, performPush] at h
    split at h <;> cases h
    rfl
  · simp only [semantics, performPop] at h
    split at h <;> cases h
  · simp only [semantics, performReadHeap] at h
    split at h <;> cases h
  · simp only [semantics, performReadNode] at h
    split at h <;> cases h

/-- COMPRESS raises without input, or in its last stage (R139). -/
theorem compress_raised {e : ErrorKind} (h : performCompress s = .raised e u) :
    (s.inLen = 0 ∧ e = .emptyInput ∧ u = s) ∨ (s.inLen ≠ 0 ∧ e = .outOverflow ∧
      ∃ (b : State) (c : CodeTree), performBuild s = .done b ∧ b.BuiltOk c ∧ u = b.withCodes c.codes) := by
  by_cases h0 : s.inLen = 0
  · rw [performCompress, performBuild, if_pos h0] at h
    cases h
    exact .inl ⟨h0, rfl, rfl⟩
  · obtain ⟨b, c, hpb, hb, -, e'⟩ := exists_built h0
    rw [e'] at h
    have hb' : (b.withCodes c.codes).BuiltOk c := hb.congr
    rcases performEmit_cases hb'.tree with ⟨-, e3⟩ | ⟨-, e3⟩ <;> rw [e3] at h <;> cases h
    exact .inr ⟨h0, rfl, b, c, hpb, hb, rfl⟩

theorem engineWrites_raised {i : Instr} {e : ErrorKind} (h : semantics i s = .raised e u) : EngineWrites s u := by
  by_cases hc : i = .compress
  · subst hc
    rcases compress_raised (show performCompress s = _ from h) with ⟨-, -, rfl⟩ | ⟨-, -, b, c, hpb, -, rfl⟩
    · rfl
    · exact (engineWrites_build hpb).trans rfl
  · rw [raised_unchanged hc h]
    rfl

theorem raise_of_no_error (h : s.errCode = 0) (e : ErrorKind) (w : Word) (src : Bool) :
    s.raise e w src = { s with errCode := e.code, errSrc := src, errWord := w } := by rw [State.raise, if_pos h]

theorem raise_of_error (h : s.errCode ≠ 0) (e : ErrorKind) (w : Word) (src : Bool) : s.raise e w src = s := by
  rw [State.raise, if_neg h]

theorem raise_errCode_ne (s : State) (e : ErrorKind) (w : Word) (src : Bool) : (s.raise e w src).errCode ≠ 0 := by
  rw [State.raise]
  split
  · cases e <;> simp [ErrorKind.code]
  · assumption

/-- A command's semantics leaves the error record alone (R22). -/
theorem EngineWrites.errorRecord (h : EngineWrites s u) :
    u.errCode = s.errCode ∧ u.errSrc = s.errSrc ∧ u.errWord = s.errWord := by
  rw [EngineWrites] at h
  rw [h]
  exact ⟨rfl, rfl, rfl⟩

/-- All that `raise` can do to the error record: keep it, or record the first error (R156). -/
theorem raise_errorRecord (s : State) (e : ErrorKind) (w : Word) (src : Bool) :
    ((s.raise e w src).errCode = s.errCode ∧ (s.raise e w src).errSrc = s.errSrc ∧
        (s.raise e w src).errWord = s.errWord) ∨
      (s.errCode = 0 ∧ (s.raise e w src).errCode ≠ 0 ∧ (s.raise e w src).errSrc = src ∧
        (s.raise e w src).errWord = w) := by
  by_cases h : s.errCode = 0
  · refine .inr ⟨h, raise_errCode_ne s e w src, ?_, ?_⟩ <;> rw [raise_of_no_error h]
  · rw [raise_of_error h]
    exact .inl ⟨rfl, rfl, rfl⟩

/-! ### Slots of the heap that a queue operation does not reach -/

theorem get_siftUp_other (arena : Table Node) (fuel : Nat) (heap : Table NodeId) {i n k : Nat} (h1 : 1 ≤ i)
    (h2 : i ≤ n) (hk : k = 0 ∨ n < k) : Table.get 0 (siftUp arena fuel heap i) k = Table.get 0 heap k := by
  induction fuel generalizing heap i with
  | zero => rfl
  | succ m ih =>
    rw [siftUp]
    split
    · rw [ih _ (by omega) (by omega), get_heapSwap, if_neg (by omega), if_neg (by omega)]
    · rfl

theorem get_siftDown_other (arena : Table Node) (size fuel : Nat) (heap : Table NodeId) {i k : Nat} (h1 : 1 ≤ i)
    (hk : k = 0 ∨ size < k) : Table.get 0 (siftDown arena size fuel heap i) k = Table.get 0 heap k := by
  induction fuel generalizing heap i with
  | zero => rfl
  | succ m ih =>
    rw [siftDown]
    split
    · rfl
    · rename_i hh
      have := smallerChild_cases arena size heap i hh
      split
      · rw [ih _ (by omega), get_heapSwap, if_neg (by omega), if_neg (by omega)]
      · rfl

theorem heapAt_enqueue_other (n : NodeId) (s : State) {k : Nat} (h : s.pqSize.toNat < 511)
    (hk : k = 0 ∨ s.pqSize.toNat + 1 < k) : (enqueue n s).heapAt k = s.heapAt k := by
  rw [State.heapAt, enqueue_heap, pqSize_add_one h, get_siftUp_other _ _ _ (by omega) le_rfl hk,
    Table.get_set_other _ _ (by omega), State.heapAt]

theorem heapAt_dequeueRest_other (s : State) {k : Nat} (hk : k = 0 ∨ s.pqSize.toNat < k) :
    (dequeueRest s).heapAt k = s.heapAt k := by
  by_cases h : s.pqSize = 0
  · rw [dequeueRest_empty h]
  · rw [dequeueRest, if_neg h]
    split
    · rfl
    · have e := pqSize_sub_one h
      have : s.pqSize.toNat ≠ 0 := fun h' => h (BitVec.eq_of_toNat_eq h')
      simp only [State.heapAt]
      rw [get_siftDown_other _ _ _ _ le_rfl (by omega), Table.get_set_other _ _ (by omega)]

theorem exec_build (hp : s.phase = .idle) (h0 : s.inLen ≠ 0) : exec .build s = .next s.merged.rooted.finish :=
  exec_done (w := 2) _ (by decide) (by simp [allowedIn, hp]) (performBuild_done h0)

end Sys2Proof.Machine
end

