-- ==== Sys2Proof/Laws/Paths.lean ====
section
/-! SUPPORT. The codes of a tree as paths: prefix-freeness, the Kraft equality and the bounds on the length of the
stream (spec/43_code_generator.md R130, spec/44_codec_emit.md R137). -/

namespace Sys2Proof.Machine

/-- No path to a leaf is a prefix of the path to another leaf. -/
theorem CodeTree.path_prefix {t : CodeTree} {c c' : Byte × List Bool} (h : c ∈ t.paths) (h' : c' ∈ t.paths)
    (hp : c.2 <+: c'.2) : c = c' := by
  induction t generalizing c c' with
  | leaf sym =>
    simp only [CodeTree.paths, List.mem_singleton] at h h'
    rw [h, h']
  | pair l r ihl ihr =>
    simp only [CodeTree.paths, List.mem_append, List.mem_map] at h h'
    rcases h with ⟨d, hd, rfl⟩ | ⟨d, hd, rfl⟩ <;> rcases h' with ⟨d', hd', rfl⟩ | ⟨d', hd', rfl⟩ <;>
      simp only [List.cons_prefix_cons] at hp
    · rw [ihl hd hd' hp.2]
    · exact absurd hp.1 (by decide)
    · exact absurd hp.1 (by decide)
    · rw [ihr hd hd' hp.2]

/-- No code is a prefix of the code of another symbol (R130). -/
theorem CodeTree.code_prefix {t : CodeTree} {c c' : Byte × List Bool} (h : c ∈ t.codes) (h' : c' ∈ t.codes)
    (hp : c.2 <+: c'.2) : c = c' := by
  cases t with
  | leaf sym =>
    simp only [CodeTree.codes, CodeTree.codesFrom, List.mem_singleton] at h h'
    rw [h, h']
  | pair l r =>
    rw [CodeTree.codes_pair] at h h'
    exact CodeTree.path_prefix h h' hp

/-- Each path is shorter than the number of leaves. -/
theorem CodeTree.path_length {t : CodeTree} {c : Byte × List Bool} (h : c ∈ t.paths) :
    c.2.length + 1 ≤ t.symbols.length := by
  induction t generalizing c with
  | leaf sym =>
    simp only [CodeTree.paths, List.mem_singleton] at h
    simp [h, CodeTree.symbols]
  | pair l r ihl ihr =>
    have hl := l.length_symbols_pos
    have hr := r.length_symbols_pos
    simp only [CodeTree.symbols, List.length_append]
    simp only [CodeTree.paths, List.mem_append, List.mem_map] at h
    rcases h with ⟨d, hd, rfl⟩ | ⟨d, hd, rfl⟩
    · have := ihl hd
      simp only [List.length_cons]
      omega
    · have := ihr hd
      simp only [List.length_cons]
      omega

/-- The Kraft equality below a node at depth `N - m` (R130). -/
theorem CodeTree.kraft_paths (t : CodeTree) (m : Nat) (hm : t.symbols.length ≤ m + 1) :
    (t.paths.map fun c => 2 ^ (m - c.2.length)).sum = 2 ^ m := by
  induction t generalizing m with
  | leaf sym => simp [CodeTree.paths]
  | pair l r ihl ihr =>
    have hl := l.length_symbols_pos
    have hr := r.length_symbols_pos
    simp only [CodeTree.symbols, List.length_append] at hm
    obtain ⟨k, rfl⟩ : ∃ k, m = k + 1 := ⟨m - 1, by omega⟩
    simp only [CodeTree.paths, List.map_append, List.map_map, List.sum_append, Function.comp_def, List.length_cons,
      Nat.add_sub_add_right]
    rw [ihl k (by omega), ihr k (by omega), Nat.pow_succ, Nat.mul_two]

/-- The payload is at most 255 bits for each input byte (R129, R137). -/
theorem length_payload_le {s : State} : s.payload.length ≤ 255 * s.inLen.toNat := by
  rw [State.payload, length_flatMap_codes, ← length_inputBytes]
  induction s.inputBytes with
  | nil => simp
  | cons b rest ih =>
    have := (s.codeLenAt b.toNat).isLt
    rw [List.map_cons, List.sum_cons, List.length_cons]
    omega

/-- The payload has a bit at least for each input byte. -/
theorem length_payload_ge {s : State} {t : CodeTree} (h : s.BuiltOk t) (hc : s.CodesOk t) :
    s.inLen.toNat ≤ s.payload.length := by
  rw [State.payload, ← length_inputBytes]
  have hpos : ∀ b ∈ s.inputBytes, 1 ≤ (s.codeOf b).length := by
    intro b hb
    have hb : b ∈ t.codes.map Prod.fst := by
      rw [t.map_fst_codes]
      exact (h.participating b).mpr hb
    obtain ⟨c, hm, rfl⟩ := List.mem_map.mp hb
    rw [hc.codes c hm]
    exact CodeTree.code_pos hm
  generalize s.inputBytes = l at hpos ⊢
  induction l with
  | nil => simp
  | cons b rest ih =>
    have h1 := hpos b (by simp)
    have h2 := ih fun b hb => hpos b (by simp [hb])
    rw [List.flatMap_cons, List.length_append, List.length_cons]
    omega

end Sys2Proof.Machine
end

