-- ==== Sys2Proof/Laws/PerInstr.lean ====
section
/-! SUPPORT. Statements about every instruction as syntax, one lemma for each constructor. -/

namespace Sys2Proof.Laws.Encodable

/-- Decoding the code of a well-formed instruction gives the instruction (R75 to R78, R89 to R91). -/
def Statement (i : Instr) : Prop := i.WellFormed → decode (encode i) = .ok i

theorem nop : Statement .nop := fun _ => rfl

theorem clear : Statement .clear := fun _ => rfl

theorem build : Statement .build := fun _ => rfl

theorem gencodes : Statement .gencodes := fun _ => rfl

theorem emit : Statement .emit := fun _ => rfl

theorem compress : Statement .compress := fun _ => rfl

theorem pqReset : Statement .pqReset := fun _ => rfl

theorem pqPush (sym : Byte) : Statement (.pqPush sym) := fun _ => by
  simp [encode, decode, decodeCommand]

theorem pqPop : Statement .pqPop := fun _ => rfl

theorem readHeap (slot : BitVec 9) : Statement (.readHeap slot) := fun _ => by
  simp [encode, decode, decodeCommand]

theorem readFreq (sym : Byte) : Statement (.readFreq sym) := fun _ => by
  simp [encode, decode, decodeCommand]

theorem readCode (sym : Byte) (w : BitVec 3) : Statement (.readCode sym w) := fun _ => by
  simp [encode, decode, decodeCommand]

theorem readNode (id : NodeId) : Statement (.readNode id) := fun _ => by
  simp [encode, decode, decodeCommand]

theorem wrCmd (v : Word) : Statement (.wrCmd v) := fun _ => rfl

theorem wrArg (v : Word) : Statement (.wrArg v) := fun _ => rfl

theorem wrDataIn (v : Word) : Statement (.wrDataIn v) := fun _ => rfl

theorem rdId : Statement .rdId := fun _ => rfl

theorem rdStatus : Statement .rdStatus := fun _ => rfl

theorem rdInCap : Statement .rdInCap := fun _ => rfl

theorem rdOutCap : Statement .rdOutCap := fun _ => rfl

theorem rdDataOut : Statement .rdDataOut := fun _ => rfl

theorem rdError : Statement .rdError := fun _ => rfl

theorem rdErrWord : Statement .rdErrWord := fun _ => rfl

theorem rdArg : Statement .rdArg := fun _ => rfl

theorem rdInLen : Statement .rdInLen := fun _ => rfl

theorem rdOutLen : Statement .rdOutLen := fun _ => rfl

theorem rdOutAvail : Statement .rdOutAvail := fun _ => rfl

theorem rdNsym : Statement .rdNsym := fun _ => rfl

theorem rdRoot : Statement .rdRoot := fun _ => rfl

theorem rdNodeCount : Statement .rdNodeCount := fun _ => rfl

theorem rdPqSize : Statement .rdPqSize := fun _ => rfl

theorem rdBitcntLo : Statement .rdBitcntLo := fun _ => rfl

theorem rdBitcntHi : Statement .rdBitcntHi := fun _ => rfl

theorem rdTreeLen : Statement .rdTreeLen := fun _ => rfl

theorem rdResult0 : Statement .rdResult0 := fun _ => rfl

theorem rdResult1 : Statement .rdResult1 := fun _ => rfl

theorem rdResult2 : Statement .rdResult2 := fun _ => rfl

theorem rdCmd : Statement .rdCmd := fun _ => rfl

theorem rdDataIn : Statement .rdDataIn := fun _ => rfl

theorem wrOther (off : Offset) (v : Word) : Statement (.wrOther off v) := by
  rintro ⟨ha, hw⟩
  simp only [encode, decode, decodeWrite]
  split
  · exact absurd (.inl (BitVec.eq_of_toNat_eq (by assumption))) hw
  · exact absurd (.inr (.inl (BitVec.eq_of_toNat_eq (by assumption)))) hw
  · exact absurd (.inr (.inr (BitVec.eq_of_toNat_eq (by assumption)))) hw
  · rw [if_pos ha]

theorem rdReserved (off : Offset) : Statement (.rdReserved off) := by
  rintro ⟨ha, hr⟩
  simp only [encode, decode, decodeRead]
  split <;> first | (rename_i h; rw [Offset.Reserved, h] at hr; omega) | rw [if_pos ⟨ha, hr⟩]

end Sys2Proof.Laws.Encodable
end

