-- ==== Sys2Proof/Machine/HostProgram.lean ====
section
/-! DEFINITION. The host notation (spec/30_encoding.md R86 to R89) and the run of a host program beside the block
(spec/70_reset_and_hazards.md R174, R175, R184). The host is not part of HUFFENC: `step` knows nothing of this file. -/

namespace Sys2Proof.Machine

/-- The comparison of a condition (R87). -/
inductive HostTest where
  | eq
  | ne
  | lt
  deriving DecidableEq, Repr

/-- A condition over the host variables (R87): always true (`IF 1`), or a comparison of the bits
`var[lo + width - 1 : lo]` with a number. -/
inductive HostCond where
  | always
  | compare (var lo width : Nat) (test : HostTest) (value : Nat)
  deriving DecidableEq, Repr

/-- A statement of the host notation (R87). Labels, variables and the one buffer are numbered, not named. -/
inductive HostStmt where
  /-- `<label>:` -/
  | label (l : Nat)
  /-- `WR <REG>, <imm32>` -/
  | wr (off : Offset) (v : Word)
  /-- `RD <REG> -> <var>` -/
  | rd (off : Offset) (var : Nat)
  /-- `IF <cond> GOTO <label>` -/
  | ifGoto (c : HostCond) (l : Nat)
  /-- `append var.BYTE to host buffer buf`, in the expansion of DRAIN (R88). -/
  | append (var : Nat)
  deriving DecidableEq, Repr

/-- `CMD <mnemonic operands>` (R88). -/
def hostCmd (i : Instr) : List HostStmt := [.wr 0x04 (encodeWord i)]

/-- `WAIT`, with the fresh label `l` and variable `t` (R88, R175). -/
def hostWait (l t : Nat) : List HostStmt := [.label l, .rd 0x08 t, .ifGoto (.compare t 0 1 .eq 1) l]

/-- `RUN <mnemonic operands>` (R88). -/
def hostRun (i : Instr) (l t : Nat) : List HostStmt := hostCmd i ++ hostWait l t

/-- `FEED b0, b1, ...` (R88). -/
def hostFeed (bytes : List Byte) : List HostStmt := bytes.map fun b => .wr 0x18 (b.setWidth 32)

/-- `GOTO L` (R88). -/
def hostGoto (l : Nat) : List HostStmt := [.ifGoto .always l]

/-- `DRAIN -> buf`, with the fresh labels `ld`, `le` and variable `t` (R88). -/
def hostDrain (ld le t : Nat) : List HostStmt :=
  [.label ld, .rd 0x1C t, .ifGoto (.compare t 8 1 .eq 0) le, .append t] ++ hostGoto ld ++ [.label le]

/-- A host program beside the block. -/
structure Rig where
  prog : List HostStmt
  /-- The index of the next statement. -/
  pos : Nat
  /-- The host variables; one not yet assigned reads 0. -/
  vars : Table Word
  /-- The host buffer DRAIN fills. -/
  buffer : List Byte
  device : State
  deriving DecidableEq, Repr

/-- The value of a host variable. -/
def Rig.var (r : Rig) (v : Nat) : Word := Table.get 0 r.vars v

/-- The statement position after the label `l`; the end of the program if there is none. -/
def labelPos (l : Nat) : List HostStmt → Nat
  | [] => 0
  | .label k :: rest => if k = l then 1 else labelPos l rest + 1
  | _ :: rest => labelPos l rest + 1

/-- Whether a condition holds. -/
def Rig.holds (r : Rig) : HostCond → Bool
  | .always => true
  | .compare v lo width test value =>
    let x := ((r.var v).toNat / 2 ^ lo) % 2 ^ width
    match test with
    | .eq => x == value
    | .ne => x != value
    | .lt => x < value

/-- The block after one access of the host, which the engine does not precede. -/
def State.hostAccess (s : State) (off : Offset) (kind : AccessKind) : Host.Outcome State Fault Refusal :=
  step (State.placeAccess { s with agenda := [] } off kind)

/-- The rig after the block has taken a step. -/
def Rig.withDevice (r : Rig) : Host.Outcome State Fault Refusal → Option Rig
  | .next t => some { r with device := t }
  | .fault _ => none
  | .refused _ => none

/-- One statement of the host program (R87). `none` is a stop. -/
def Rig.hostStep (r : Rig) : Option Rig :=
  match r.prog[r.pos]? with
  | none => none
  | some (.label _) => some { r with pos := r.pos + 1 }
  | some (.wr off v) => ({ r with pos := r.pos + 1 } : Rig).withDevice (r.device.hostAccess off (.write v))
  | some (.rd off v) =>
    match ({ r with pos := r.pos + 1 } : Rig).withDevice (r.device.hostAccess off .read) with
    | none => none
    | some r' => some { r' with vars := Table.set 0 r'.vars v (r'.device.reads.getLastD 0) }
  | some (.ifGoto c l) => some { r with pos := if r.holds c then labelPos l r.prog else r.pos + 1 }
  | some (.append v) => some { r with pos := r.pos + 1, buffer := r.buffer ++ [(r.var v).setWidth 8] }

/-- The engine's completion step beside the host program, enabled while BUSY = 1 (R101). -/
def Rig.engineStep (r : Rig) : Option Rig :=
  if r.device.busy then r.withDevice (step { r.device with agenda := [] }) else none

/-- The run is over (R184): the host program has executed its last statement and no command is pending. -/
def Rig.over (r : Rig) : Bool := decide (r.prog.length ≤ r.pos) && !r.device.busy

/-- A run under a schedule: true is a step of the engine, false a statement of the host. An agent that cannot step
lets its turn pass. -/
def Rig.run : List Bool → Rig → Rig
  | [], r => r
  | engine :: rest, r => Rig.run rest ((if engine then r.engineStep else r.hostStep).getD r)

/-- The host program at its start, beside a block in state `s`. -/
def Rig.start (prog : List HostStmt) (s : State) : Rig where
  prog := prog
  pos := 0
  vars := []
  buffer := []
  device := s

/-- The host sequence that renders `compress(raw_bytes, output_path)` (R174). Label 9 is `failed`, variable 0 is e; the
place of `failed`, at the end, is the model's. -/
def compressProgram (bytes : List Byte) : List HostStmt :=
  hostRun .clear 0 1 ++ hostFeed bytes ++ hostRun .compress 2 1 ++
    [.rd 0x0C 0, .ifGoto (.compare 0 0 4 .ne 0) 9] ++ hostDrain 3 4 1 ++ hostRun .clear 5 1 ++ [.label 9]

end Sys2Proof.Machine
end

