-- ==== Sys2Proof/Tests/Slice0.lean ====
section
/-! SUPPORT. Tests against words and values written out in spec/, and for each obligation with hypotheses a state and
operands that meet them. Expected values: spec/30_encoding.md R75 to R89 and spec/95_test_vectors.md, as each test
says. -/

namespace Sys2Proof.Tests

open Sys2Proof Sys2Proof.Machine

set_option Elab.async false

/-! ### Small states -/

/-- IN_CAP = 8, OUT_CAP = 64, REG_BASE = 0x100. -/
def small : Params where
  inCap := 8
  outCap := 64
  regBase := 0x100

/-- OUT_CAP = 24, one byte short of the stream of "aabbc" (V-EMIT-10). -/
def tight : Params where
  inCap := 8
  outCap := 24
  regBase := 0x100

/-- "aabbc" (E-1). -/
def aabbc : List Byte := [0x61, 0x61, 0x62, 0x62, 0x63]

/-- The stream of "aabbc" (V-EMIT-1). -/
def aabbcStream : List Byte :=
  [0x01, 0x00, 0x01, 0x62, 0x00, 0x00, 0x01, 0x00, 0x01, 0x63, 0x00, 0x00, 0x01, 0x61, 0x00, 0x00] ++
  [0x08, 0x00, 0x00, 0x00, 0x00, 0x00, 0x00, 0x00, 0xF2]

/-- Fresh with these bytes of input. -/
def fed (p : Params) (bytes : List Byte) : State := bytes.foldl State.appendInput (State.resetWith p)

/-- The state after an instruction; the state itself where it stops. -/
def after (i : Instr) (s : State) : State :=
  match exec i s with
  | .next t => t
  | _ => s

/-- A queue of these keys, with symbols counted from `sym`. -/
def pushed (sym : Nat) : List Word → State → State
  | [], s => s
  | k :: rest, s => pushed (sym + 1) rest (after (.pqPush (BitVec.ofNat 8 sym)) { s with arg := k })

/-- `s` with one event to come. -/
def facing (first : Bool) (e : Event) (s : State) : State := { s with agenda := [{ engineFirst := first, event := e }] }

/-- `s` with a pending command and nothing to come. -/
def pendingWith (w : Word) (s : State) : State := { s with pending := some w }

/-- The five pushes of V-PQ-1. -/
def queued : State := pushed 0x10 [5, 3, 3, 1, 3] (fed small [])

def builtState : State := after .build (fed small aabbc)
def codedState : State := after .gencodes builtState
def doneState : State := after .emit codedState

/-- "aaaa", one symbol (E-2). -/
def oneSymbol : State := after .gencodes (after .build (fed small [0x61, 0x61, 0x61, 0x61]))

def tightCoded : State := after .gencodes (after .build (fed tight aabbc))

/-! ### Decoding: a word for each constructor, written out from R75, R77 and R67 -/

/-- The eight command words without an operand (R77). -/
theorem test_decode_plain_commands :
    decode (.command 0x00000000) = .ok .nop ∧ decode (.command 0x00000001) = .ok .clear ∧
    decode (.command 0x00000002) = .ok .build ∧ decode (.command 0x00000003) = .ok .gencodes ∧
    decode (.command 0x00000004) = .ok .emit ∧ decode (.command 0x00000005) = .ok .compress ∧
    decode (.command 0x00000010) = .ok .pqReset ∧ decode (.command 0x00000012) = .ok .pqPop := by decide

/-- RSV, B, A and OPC bit by bit: PQ_PUSH 0x61, READ_FREQ 0x61, READ_CODE 0x61 3, READ_HEAP 257, READ_NODE 300 (R75,
R76, R77). -/
theorem test_decode_operand_commands :
    decode (.command 0b00000000000000000110000100010001#32) = .ok (.pqPush 0x61) ∧
    decode (.command 0b00000000000000000110000100100000#32) = .ok (.readFreq 0x61) ∧
    decode (.command 0b00000000000000110110000100100001#32) = .ok (.readCode 0x61 3) ∧
    decode (.command 0b00000001000000010000000000010011#32) = .ok (.readHeap 257) ∧
    decode (.command 0b00000001001011000000000000100010#32) = .ok (.readNode 300) := by decide

/-- The invalid words of V-ERR-1. -/
theorem test_decode_invalid_commands :
    [0x00000006#32, 0x000000FF#32, 0x80000000#32, 0x02000013#32, 0x00080021#32, 0x00010011#32, 0x00000112#32,
      0x00000103#32].all fun w => decode (.command w) = .error .badCommand := by decide

/-- The reads, by offset (R67). -/
theorem test_decode_reads :
    decode (.read 0x00) = .ok .rdId ∧ decode (.read 0x04) = .ok .rdCmd ∧ decode (.read 0x08) = .ok .rdStatus ∧
    decode (.read 0x0C) = .ok .rdError ∧ decode (.read 0x10) = .ok .rdErrWord ∧ decode (.read 0x14) = .ok .rdArg ∧
    decode (.read 0x18) = .ok .rdDataIn ∧ decode (.read 0x1C) = .ok .rdDataOut ∧ decode (.read 0x20) = .ok .rdInLen ∧
    decode (.read 0x24) = .ok .rdOutLen ∧ decode (.read 0x28) = .ok .rdOutAvail ∧
    decode (.read 0x2C) = .ok .rdInCap ∧ decode (.read 0x30) = .ok .rdOutCap ∧ decode (.read 0x34) = .ok .rdNsym ∧
    decode (.read 0x38) = .ok .rdRoot ∧ decode (.read 0x3C) = .ok .rdNodeCount ∧
    decode (.read 0x40) = .ok .rdPqSize ∧ decode (.read 0x44) = .ok .rdBitcntLo ∧
    decode (.read 0x48) = .ok .rdBitcntHi ∧ decode (.read 0x4C) = .ok .rdTreeLen ∧
    decode (.read 0x50) = .ok .rdResult0 ∧ decode (.read 0x54) = .ok .rdResult1 ∧
    decode (.read 0x58) = .ok .rdResult2 ∧ decode (.read 0x5C) = .ok (.rdReserved 0x5C) ∧
    decode (.read 0xFC) = .ok (.rdReserved 0xFC) ∧ decode (.read 0xFD) = .error .misaligned := by decide

/-- The writes, by offset (R91). -/
theorem test_decode_writes :
    decode (.write 0x04 7) = .ok (.wrCmd 7) ∧ decode (.write 0x14 7) = .ok (.wrArg 7) ∧
    decode (.write 0x18 7) = .ok (.wrDataIn 7) ∧ decode (.write 0x00 7) = .ok (.wrOther 0x00 7) ∧
    decode (.write 0x80 7) = .ok (.wrOther 0x80 7) ∧ decode (.write 0x05 7) = .error .misaligned := by decide

/-- The opcode table's own numbering: 32 bits for a command, 8 for an offset. -/
theorem test_decodeTableWord : decodeTableWord 32 0x00040022 = some (.readNode 4) ∧
    decodeTableWord 8 0x38 = some .rdRoot ∧ decodeTableWord 8 0x14 = some (.wrArg 0) ∧ decodeTableWord 8 0x02 = none := by
  decide

/-- The very next step after `withFetchWord` runs the instruction. -/
theorem test_withFetchWord : step (State.reset.withFetchWord 32 0x00000012) =
      exec .pqPop (State.reset.place (.command 0x12)) ∧
    step (State.reset.withFetchWord 8 0x38) = exec .rdRoot State.reset := ⟨rfl, rfl⟩

/-! ### WellFormed refuses -/

/-- An ignored write may not stand at an offset that has a write of its own. -/
theorem test_wellFormed_refuses_writable : ¬ (Instr.wrOther 0x04 0).WellFormed ∧ ¬ (Instr.wrOther 0x14 0).WellFormed ∧
    ¬ (Instr.wrOther 0x18 0).WellFormed := by decide

/-- An ignored write stands at an aligned offset. -/
theorem test_wellFormed_refuses_misaligned_write : ¬ (Instr.wrOther 0x02 0).WellFormed := by decide

/-- A reserved read stands at an aligned offset. -/
theorem test_wellFormed_refuses_misaligned_read : ¬ (Instr.rdReserved 0x5D).WellFormed := by decide

/-- A reserved read stands at a reserved offset. -/
theorem test_wellFormed_refuses_unreserved : ¬ (Instr.rdReserved 0x58).WellFormed := by decide

/-! ### The priority queue (spec/95 section 3.2) -/

/-- V-PQ-1: the heap after the five pushes, and the report of the last. -/
theorem test_pqPush_ties : queued.queueIds = [3, 1, 2, 0, 4] ∧ queued.result0 = 0xC053FFFF ∧ queued.result1 = 3 ∧
    queued.result2 = 4 ∧ queued.nodeCount = 5 := by decide +kernel

/-- V-PQ-1: the first pop. -/
theorem test_pqPop_left_wins_ties : (after .pqPop queued).queueIds = [4, 1, 2, 0] ∧
    (after .pqPop queued).result0 = 0xC04FFFFF ∧ (after .pqPop queued).result2 = 3 := by decide +kernel

/-- V-PQ-5: a slot with a left child alone. -/
theorem test_pqPop_lone_left_child :
    (after .pqPop (after .pqPop (pushed 0 [1, 5, 2, 3] (fed small [])))).queueIds = [3, 1] := by decide +kernel

/-- V-PQ-1: slot 4, and slot 6 beyond the queue. -/
theorem test_readHeap : (after (.readHeap 4) queued).result0 = 0xC043FFFF ∧ (after (.readHeap 4) queued).result1 = 5 ∧
    (after (.readHeap 6) queued).result2 = 0x1FF := by decide +kernel

/-- V-PQ-8: PQ_RESET keeps the RESULT registers. -/
theorem test_pqReset : (after .pqReset queued).pqSize = 0 ∧ (after .pqReset queued).nodeCount = 0 ∧
    (after .pqReset queued).result0 = 0xC053FFFF := by decide +kernel

/-! ### The tree, the codes and the stream (spec/95 sections 3.3 to 3.6) -/

/-- V-BUILD-1. -/
theorem test_build : builtState.root = 4 ∧ builtState.nsym = 3 ∧ builtState.nodeCount = 5 ∧ builtState.pqSize = 0 ∧
    builtState.phase = .built := by decide +kernel

/-- V-BUILD-1: the reports of nodes 2, 4 and 5. -/
theorem test_readNode : (after (.readNode 2) builtState).result0 = 0xC18FFFFF ∧
    (after (.readNode 4) builtState).result0 = 0x80000601 ∧ (after (.readNode 4) builtState).result1 = 5 ∧
    (after (.readNode 5) builtState).result2 = 0x1FF := by decide +kernel

/-- V-BUILD-1. -/
theorem test_readFreq : (after (.readFreq 0x62) builtState).result0 = 2 ∧
    (after (.readFreq 0x64) builtState).result0 = 0 := by decide +kernel

/-- V-GEN-1. -/
theorem test_gencodes : codedState.codeOf 0x61 = [true, true] ∧ codedState.codeOf 0x62 = [false] ∧
    codedState.codeOf 0x63 = [true, false] ∧ codedState.bitcnt = 8 := by decide +kernel

/-- V-GEN-2: the one-bit code of a lone symbol. -/
theorem test_gencodes_one_symbol : oneSymbol.codeOf 0x61 = [false] ∧ oneSymbol.bitcnt = 4 := by decide +kernel

/-- V-GEN-1. -/
theorem test_readCode : (after (.readCode 0x61 0) codedState).result0 = 2 ∧
    (after (.readCode 0x61 0) codedState).result1 = 0xC0000000 ∧
    (after (.readCode 0x61 1) codedState).result1 = 0 := by decide +kernel

/-- V-EMIT-1. -/
theorem test_emit : doneState.outputBytes = aabbcStream ∧ doneState.treeLen = 16 := by decide +kernel

/-- V-EMIT-10: one byte of room too few. -/
theorem test_emit_overflow : (after .emit tightCoded).errCode = 8 ∧ (after .emit tightCoded).errWord = 4 ∧
    (after .emit tightCoded).outLen = 0 := by decide +kernel

/-- V-BUS-5: 00 FF FF. -/
theorem test_compress : (after .compress (fed small [0x00, 0xFF, 0xFF])).outputBytes =
    [0x01, 0x00, 0x01, 0x00, 0x00, 0x00, 0x01, 0xFF, 0x00, 0x00, 0x03, 0, 0, 0, 0, 0, 0, 0, 0x60] := by decide +kernel

/-- V-COMP-4: the stages that completed keep their effects. -/
theorem test_compress_overflow : (after .compress (fed tight aabbc)).errCode = 8 ∧
    (after .compress (fed tight aabbc)).errWord = 5 ∧ (after .compress (fed tight aabbc)).phase = .coded ∧
    (after .compress (fed tight aabbc)).bitcnt = 8 := by decide +kernel

/-- V-DEC-1, V-DEC-7 and V-DEC-6. -/
theorem test_refDecode : refDecode aabbcStream = .ok aabbc ∧
    refDecode (0x02 :: aabbcStream.drop 1) = .error .corruptTree ∧
    refDecode (aabbcStream.take 24) = .error .truncatedStream := by decide +kernel

/-! ### Errors and accesses (spec/95 sections 3.1 and 3.7) -/

/-- V-GEN-7: SEQUENCE and its record. -/
theorem test_gencodes_sequence : (after .gencodes State.reset).errCode = 6 ∧ (after .gencodes State.reset).errWord = 3 ∧
    (after .gencodes State.reset).statusWord = 0x02 := by decide

/-- V-ERR-2. -/
theorem test_build_empty_input : (after .build State.reset).errorWord = 0x00000001 ∧
    (after .build State.reset).errWord = 2 := by decide

/-- R103. -/
theorem test_nop : after .nop (pendingWith 0 State.reset) = State.reset := by decide

/-- V-BUS-9: CLEAR after a session. -/
theorem test_clear : after .clear (pendingWith 1 doneState) = State.resetWith small := by decide +kernel

/-- V-BUS-6, steps 1 and 4. -/
theorem test_wrCmd : (after (.wrCmd 0) State.reset).pending = some 0 ∧
    (after (.wrCmd 2) (pendingWith 0 State.reset)).overrun = true ∧
    (after (.wrCmd 2) (pendingWith 0 State.reset)).pending = some 0 := by decide

/-- V-BUS-3, and V-BUS-6 step 2. -/
theorem test_wrArg : (after (.wrArg 5) State.reset).arg = 5 ∧ (after (.wrArg 7) (pendingWith 0 State.reset)).arg = 0 := by
  decide

/-- V-BUS-4. -/
theorem test_wrDataIn : (after (.wrDataIn 0xFFFFFF61) State.reset).inputBytes = [0x61] ∧
    (after (.wrDataIn 0xFFFFFF61) State.reset).errCode = 0 := by decide

/-- V-ERR-4: the record holds the whole word. -/
theorem test_wrDataIn_sequence : (after (.wrDataIn 0x12345678) builtState).errorWord = 0x00000106 ∧
    (after (.wrDataIn 0x12345678) builtState).errWord = 0x12345678 := by decide +kernel

/-- V-BUS-2. -/
theorem test_wrOther : after (.wrOther 0x5C 9) State.reset = State.reset := by decide

/-- V-BUS-1. -/
theorem test_reads_after_reset : (after .rdId State.reset).reads = [0x48554631] ∧
    (after .rdStatus State.reset).reads = [0] ∧ (after .rdInCap State.reset).reads = [0x00100000] ∧
    (after .rdOutCap State.reset).reads = [0x00100000] ∧ (after .rdRoot State.reset).reads = [0x1FF] ∧
    (after .rdCmd State.reset).reads = [0] ∧ (after .rdDataIn State.reset).reads = [0] ∧
    (after (.rdReserved 0x80) State.reset).reads = [0] := by decide

/-- V-EMIT-1: the first DATA_OUT read, and R97's registers in PHASE DONE. -/
theorem test_reads_when_done : (after .rdDataOut doneState).reads = [0x00000101] ∧
    (after .rdDataOut doneState).outRd = 1 ∧ (after .rdOutLen doneState).reads = [25] ∧
    (after .rdOutAvail (after .rdDataOut doneState)).reads = [0x00000101, 24] ∧
    (after .rdTreeLen doneState).reads = [16] ∧ (after .rdBitcntLo doneState).reads = [8] ∧
    (after .rdBitcntHi doneState).reads = [0] ∧ (after .rdNsym doneState).reads = [3] ∧
    (after .rdNodeCount doneState).reads = [5] ∧ (after .rdPqSize doneState).reads = [0] ∧
    (after .rdInLen doneState).reads = [5] ∧ (after .rdStatus doneState).reads = [0x38] := by decide +kernel

/-- V-PQ-1 and V-ERR-7: the reads of ARG, the RESULT registers, ERROR and ERR_WORD. -/
theorem test_reads_of_records : (after .rdArg queued).reads = [3] ∧ (after .rdResult0 queued).reads = [0xC053FFFF] ∧
    (after .rdResult1 queued).reads = [3] ∧ (after .rdResult2 queued).reads = [4] ∧
    (after .rdError (after .build State.reset)).reads = [1] ∧
    (after .rdErrWord (after .build State.reset)).reads = [2] := by decide +kernel

/-- V-BUS-6, steps 5 and 6: a read while BUSY = 1. -/
theorem test_reads_while_busy :
    after .rdInLen (pendingWith 0 State.reset) = { pendingWith 0 State.reset with reads := [Config.draw32 0], draws := 1 } ∧
    (after .rdStatus (pendingWith 0 State.reset)).reads = [1] := ⟨rfl, by decide⟩

/-- R51 and R46: refused accesses. -/
theorem test_refused_accesses :
    step (facing false (.access { addr := 0x102, bytes := 4, kind := .read }) (fed small [])) =
      .refused .unsupportedAccess ∧
    step (facing false (.access { addr := 0x100, bytes := 2, kind := .read }) (fed small [])) =
      .refused .unsupportedAccess ∧
    step (facing false (.access { addr := 0x200, bytes := 4, kind := .read }) (fed small [])) =
      .refused .outsideWindow :=
  ⟨rfl, rfl, rfl⟩

/-! ### Invariants of the small states -/

theorem inv_small : (fed small []).Inv := inv_resetWith (by decide)

theorem inv_aabbc : (fed small aabbc).Inv := by
  have h1 := inv_appendInput inv_small 0x61 rfl (by decide)
  have h2 := inv_appendInput h1 0x61 rfl (by decide)
  have h3 := inv_appendInput h2 0x62 rfl (by decide)
  have h4 := inv_appendInput h3 0x62 rfl (by decide)
  exact inv_appendInput h4 0x63 rfl (by decide)

theorem inv_aaaa : (fed small [0x61, 0x61, 0x61, 0x61]).Inv := by
  have h1 := inv_appendInput inv_small 0x61 rfl (by decide)
  have h2 := inv_appendInput h1 0x61 rfl (by decide)
  have h3 := inv_appendInput h2 0x61 rfl (by decide)
  exact inv_appendInput h3 0x61 rfl (by decide)

theorem inv_tight : (fed tight aabbc).Inv := by
  have h0 : (fed tight []).Inv := inv_resetWith (by decide)
  have h1 := inv_appendInput h0 0x61 rfl (by decide)
  have h2 := inv_appendInput h1 0x61 rfl (by decide)
  have h3 := inv_appendInput h2 0x62 rfl (by decide)
  have h4 := inv_appendInput h3 0x62 rfl (by decide)
  exact inv_appendInput h4 0x63 rfl (by decide)

theorem inv_after {i : Instr} {w : Word} {s : State} (hi : encode i = .command w) (h : s.Inv) : (after i s).Inv := by
  unfold after
  split
  · rename_i t e
    exact inv_exec_command h e hi
  · exact h

theorem inv_arg {s : State} (h : s.Inv) (k : Word) : ({ s with arg := k } : State).Inv := h.congr

theorem inv_built : builtState.Inv := inv_after (w := 2) (by decide) inv_aabbc

theorem inv_coded : codedState.Inv := inv_after (w := 3) (by decide) inv_built

theorem inv_done : doneState.Inv := inv_after (w := 4) (by decide) inv_coded

theorem inv_oneSymbol : oneSymbol.Inv := inv_after (w := 3) (by decide) (inv_after (w := 2) (by decide) inv_aaaa)

theorem inv_tightCoded : tightCoded.Inv := inv_after (w := 3) (by decide) (inv_after (w := 2) (by decide) inv_tight)

theorem inv_queued : queued.Inv := by
  have go : ∀ (ks : List Word) (sym : Nat) (s : State), s.Inv → (pushed sym ks s).Inv := by
    intro ks
    induction ks with
    | nil => exact fun _ s h => h
    | cons k rest ih => exact fun sym s h => ih _ _ (inv_after rfl (inv_arg h k))
  exact go _ _ _ inv_small

theorem phase_built : builtState.phase = .built := by decide +kernel

theorem phase_coded : codedState.phase = .coded := by decide +kernel

theorem phase_done : doneState.phase = .done := by decide +kernel

theorem phase_oneSymbol : oneSymbol.phase = .coded := by decide +kernel

theorem phase_tightCoded : tightCoded.phase = .coded := by decide +kernel

theorem completes_after {i : Instr} {w : Word} {s : State} (hi : encode i = .command w) (h : s.Inv) :
    exec i s = .next (after i s) := by
  obtain ⟨t, e⟩ := completes_command hi h
  rw [e, after, e]

/-! ### Witnesses: for each obligation with hypotheses, what meets them -/

theorem witness_ResetStateMeetsTheInvariant : ∃ p : Params, p.Ok := ⟨small, by decide⟩

theorem witness_ResetEventReturnsEveryElement :
    (∃ (s : State) (first : Bool) (rest : List Planned), s.agenda = { engineFirst := first, event := .reset } :: rest ∧
      first = false ∧ s.busy = true) ∧
    ∃ (s : State) (first : Bool) (rest : List Planned), s.agenda = { engineFirst := first, event := .reset } :: rest ∧
      s.busy = false ∧ first = true :=
  ⟨⟨facing false .reset (pendingWith 2 (fed small [])), false, [], rfl, rfl, rfl⟩,
    ⟨facing true .reset (fed small []), true, [], rfl, rfl, rfl⟩⟩

/-- The four clauses, the last on both sides of the window. -/
theorem witness_StepRunsTheDecodedInstruction :
    (∃ (s : State) (off : Offset) (first : Bool) (rest : List Planned) (i : Instr),
      s.agenda = { engineFirst := first, event := .access (busAccess s.params off .read) } :: rest ∧
      (s.busy = false ∨ first = false) ∧ decode (.read off) = .ok i) ∧
    (∃ (s : State) (off : Offset) (v : Word) (first : Bool) (rest : List Planned) (i : Instr),
      s.agenda = { engineFirst := first, event := .access (busAccess s.params off (.write v)) } :: rest ∧
      (s.busy = false ∨ first = false) ∧ decode (.write off v) = .ok i) ∧
    (∃ (s : State) (w : Word) (i : Instr), s.pending = some w ∧
      (s.agenda = [] ∨ ∃ p rest, s.agenda = p :: rest ∧ p.engineFirst = true) ∧ decodeCommand w = .ok i) ∧
    (∃ (s : State) (a : Access) (first : Bool) (rest : List Planned),
      s.agenda = { engineFirst := first, event := .access a } :: rest ∧ (s.busy = false ∨ first = false) ∧
      a.addr < s.params.regBase) ∧
    ∃ (s : State) (a : Access) (first : Bool) (rest : List Planned),
      s.agenda = { engineFirst := first, event := .access a } :: rest ∧ (s.busy = false ∨ first = false) ∧
      s.params.regBase + 256 ≤ a.addr :=
  ⟨⟨(fed small []).placeAccess 0xFC .read, 0xFC, false, [], .rdReserved 0xFC, rfl, .inr rfl, rfl⟩,
    ⟨(fed small []).placeAccess 0x04 (.write 2), 0x04, 2, false, [], .wrCmd 2, rfl, .inr rfl, rfl⟩,
    ⟨pendingWith 3 (fed small []), 3, .gencodes, rfl, .inl rfl, rfl⟩,
    ⟨facing true (.access { addr := 0xFF, bytes := 4, kind := .read }) (fed small []), _, _, _, rfl, .inl rfl, by decide⟩,
    ⟨facing true (.access { addr := 0x200, bytes := 4, kind := .read }) (fed small []), _, _, _, rfl, .inl rfl,
      by decide⟩⟩

/-- At the last byte of the window, and with a width of 2. -/
theorem witness_UnsupportedAccessIsRefused :
    (∃ (s : State) (a : Access) (first : Bool) (rest : List Planned),
      s.agenda = { engineFirst := first, event := .access a } :: rest ∧ (s.busy = false ∨ first = false) ∧
      s.params.regBase ≤ a.addr ∧ a.addr < s.params.regBase + 256 ∧ a.bytes ≠ 4) ∧
    ∃ (s : State) (a : Access) (first : Bool) (rest : List Planned),
      s.agenda = { engineFirst := first, event := .access a } :: rest ∧ (s.busy = false ∨ first = false) ∧
      s.params.regBase ≤ a.addr ∧ a.addr < s.params.regBase + 256 ∧ (a.addr - s.params.regBase) % 4 ≠ 0 :=
  ⟨⟨facing false (.access { addr := 0x100, bytes := 2, kind := .read }) (fed small []), _, _, _, rfl, .inl rfl,
      by decide, by decide, by decide⟩,
    ⟨facing false (.access { addr := 0x1FF, bytes := 4, kind := .read }) (fed small []), _, _, _, rfl, .inl rfl,
      by decide, by decide, by decide⟩⟩

theorem witness_OnlyTheDeclaredStopsOccur : ∃ s : State, s.Inv ∧ s.engineNext = true :=
  ⟨pendingWith 2 (fed small aabbc), inv_accept inv_aabbc fun h => absurd rfl h, rfl⟩

theorem witness_DecodingInvertsEncoding : ∃ i : Instr, i.WellFormed := ⟨.wrOther 0xFC 1, by decide⟩

theorem witness_EncodingInvertsDecoding : ∃ (c : Code) (i : Instr), decode c = .ok i :=
  ⟨.command 0x0007FF21, .readCode 0xFF 7, by decide⟩

theorem witness_ValidWordsFitOneTableRow : ∃ (w : Word), ∃ r ∈ commandRows, ∃ r' ∈ commandRows,
    r.fits w = true ∧ r'.fits w = true :=
  ⟨0x01FF0013, ⟨0xFE00FFFF, 0x13⟩, by decide, ⟨0xFE00FFFF, 0x13⟩, by decide, by decide, by decide⟩

/-- The first clause, and the second: each range of opcodes at both of its ends, and each kind of nonzero field. -/
theorem witness_IllegalWordsRaiseBadCommand :
    (∃ (s : State) (w : Word), s.pending = some w ∧
      (s.agenda = [] ∨ ∃ p rest, s.agenda = p :: rest ∧ p.engineFirst = true) ∧ ∀ r ∈ commandRows, r.fits w = false) ∧
    [0x06#32, 0x0F#32, 0x14#32, 0x1F#32, 0x23#32, 0xFF#32, 0x02000000#32, 0x80000000#32, 0x00010012#32, 0x00000100#32,
      0x01000011#32, 0x00010020#32, 0x00000113#32, 0x00008022#32, 0x00080021#32].all fun w =>
      (0x06 ≤ (opcOf w).toNat ∧ (opcOf w).toNat ≤ 0x0F) ∨ (0x14 ≤ (opcOf w).toNat ∧ (opcOf w).toNat ≤ 0x1F) ∨
        0x23 ≤ (opcOf w).toNat ∨ rsvOf w ≠ 0 ∨
        (opcOf w ∈ [0x00#8, 0x01#8, 0x02#8, 0x03#8, 0x04#8, 0x05#8, 0x10#8, 0x12#8] ∧ (symOf w ≠ 0 ∨ idxOf w ≠ 0)) ∨
        (opcOf w ∈ [0x11#8, 0x20#8] ∧ idxOf w ≠ 0) ∨ (opcOf w ∈ [0x13#8, 0x22#8] ∧ symOf w ≠ 0) ∨
        (opcOf w = 0x21#8 ∧ idxHighOf w ≠ 0) :=
  ⟨⟨pendingWith 0x00010011 (fed small []), 0x00010011, rfl, .inl rfl, by decide⟩, by decide⟩

/-- A state with an error recorded and no command pending: NopChangesNothing, ClearReturnsEveryElement,
RecordedErrorBlocksAllButClear and FirstErrorStaysUntilClearOrReset. -/
theorem witness_error_recorded : ∃ s t : State, s.pending = none ∧ s.errCode ≠ 0 ∧ s.outRd.toNat = s.outLen.toNat ∧
    step (facing false .reset s) = .next t := ⟨after .build (fed small []), _, rfl, by decide, by decide, rfl⟩

theorem witness_RecordedErrorBlocksAllButClear : ∃ s : State, s.errCode ≠ 0 ∧ s.pending = none ∧
    s.outRd.toNat < s.outLen.toNat := ⟨doneState.raise .sequence 2 false, by decide +kernel, by decide +kernel, by decide +kernel⟩

theorem witness_FirstErrorStaysUntilClearOrReset : ∃ s t : State, s.errCode ≠ 0 ∧ step s = .next t :=
  ⟨pendingWith 1 (after .build (fed small [])), _, by decide, rfl⟩

/-- The phases: the queue commands, BUILD and COMPRESS in a phase other than IDLE; GENCODES and EMIT in IDLE. -/
theorem witness_PhasesAllowOperationsAsTabled :
    (∃ s : State, s.phase ≠ .idle ∧ s.pending = none ∧ s.errCode = 0) ∧
    (∃ s : State, s.phase ≠ .built ∧ s.phase ≠ .coded) ∧
    ∃ (i : Instr) (s t : State), exec i s = .next t ∧ s.errCode = 0 ∧ t.errCode = 6 :=
  ⟨⟨doneState, by decide +kernel, by decide +kernel, by decide +kernel⟩, ⟨fed small [], by decide, by decide⟩,
    ⟨.emit, fed small [], after .emit (fed small []), completes_after (w := 4) (by decide) inv_small, rfl, by decide⟩⟩

/-- The premises of OnlyWord, for each of the seven words it is stated of. -/
theorem witness_OnlyWord : [0x01#32, 0x02#32, 0x03#32, 0x04#32, 0x05#32, 0x10#32, 0x12#32].all fun w =>
    opcOf (w + 0x100) = opcOf w ∧ w + 0x100 ≠ w := by decide

theorem witness_PqResetEmptiesQueueAndArena : (∃ s : State, s.phase = .idle ∧ s.pqSize ≠ 0) ∧
    ∃ s : State, s.phase ≠ .idle :=
  ⟨⟨queued, by decide +kernel, by decide +kernel⟩, ⟨builtState, by decide +kernel⟩⟩

/-- A full heap, a full arena, and room. -/
theorem witness_PqPushAllocatesAndEnqueuesALeaf :
    (∃ s : State, s.phase ≠ .idle) ∧ (∃ s : State, s.phase = .idle ∧ s.pqSize = 256) ∧
    (∃ s : State, s.phase = .idle ∧ s.nodeCount = 511) ∧
    (∃ (s : State) (sym : Byte) (n : NodeId) (leaf : Node), s.phase = .idle ∧ s.pqSize ≠ 256 ∧ s.nodeCount ≠ 511 ∧
      n = s.nodeCount.setWidth 9 ∧ leaf = { leaf := true, sym := sym, freq := s.arg, left := 0x1FF, right := 0x1FF }) ∧
    ∃ v : Word, opcOf v = 0x11 ∧ (idxOf v ≠ 0 ∨ rsvOf v ≠ 0) :=
  ⟨⟨builtState, by decide +kernel⟩, ⟨{ fed small [] with pqSize := 256 }, rfl, rfl⟩,
    ⟨{ fed small [] with nodeCount := 511 }, rfl, rfl⟩,
    ⟨queued, 0x15, 5, Node.ofLeaf 0x15 3, by decide +kernel, by decide +kernel, by decide +kernel, by decide +kernel,
      by decide +kernel⟩, ⟨0x00010011, by decide, by decide⟩⟩

/-- Queues of no, one and five nodes, and the starts of the two loops. -/
theorem witness_QueueLoopsFollowTheirComparisons : (∃ s : State, s.pqSize = 0) ∧ (∃ s : State, s.pqSize = 1) ∧
    (∃ s : State, s.pqSize ≠ 0 ∧ s.pqSize ≠ 1) ∧ (∃ i fuel : Nat, i ≤ fuel) ∧
    ∃ i size fuel : Nat, 1 ≤ i ∧ size ≤ fuel :=
  ⟨⟨fed small [], rfl⟩, ⟨pushed 0 [1] (fed small []), by decide +kernel⟩, ⟨queued, by decide +kernel, by decide +kernel⟩,
    ⟨5, 5, le_rfl⟩, ⟨1, 5, 5, by decide, le_rfl⟩⟩

theorem witness_PqPopDequeuesAndReports : (∃ s : State, s.phase ≠ .idle) ∧
    (∃ s : State, s.phase = .idle ∧ dequeueTop s = 0x1FF) ∧ ∃ s : State, s.phase = .idle ∧ dequeueTop s ≠ 0x1FF :=
  ⟨⟨builtState, by decide +kernel⟩, ⟨fed small [], rfl, rfl⟩, ⟨queued, by decide +kernel, by decide +kernel⟩⟩

theorem witness_PqPopTakesTheLeastFrequency : ∃ s : State, s.QueueOk ∧ s.phase = .idle ∧ s.pqSize ≠ 0 :=
  ⟨queued, inv_queued.queue, by decide +kernel, by decide +kernel⟩

theorem witness_HeapOrderHoldsAfterEveryStep : ∃ s t : State, s.QueueOk ∧ step s = .next t :=
  ⟨pendingWith 0x12 queued, after .pqPop (pendingWith 0x12 queued), (inv_accept inv_queued fun h => absurd (by decide +kernel) h).queue,
    completes_after (i := .pqPop) (w := 0x12) (by decide) (inv_accept inv_queued fun h => absurd (by decide +kernel) h)⟩

/-- The first and the last slot in use, slot 0 and the slot after the last. -/
theorem witness_ReadHeapReportsTheSlot : ∃ s : State,
    (1 ≤ (1#9).toNat ∧ (1#9).toNat ≤ s.pqSize.toNat) ∧ (1 ≤ (5#9).toNat ∧ (5#9).toNat ≤ s.pqSize.toNat) ∧
    (0#9).toNat = 0 ∧ s.pqSize.toNat < (6#9).toNat := ⟨queued, by decide +kernel⟩

/-- Words with an unused field set: READ_HEAP, READ_FREQ, READ_CODE and READ_NODE. -/
theorem witness_unused_fields : (∃ v : Word, opcOf v = 0x13 ∧ (symOf v ≠ 0 ∨ rsvOf v ≠ 0)) ∧
    (∃ v : Word, opcOf v = 0x20 ∧ (idxOf v ≠ 0 ∨ rsvOf v ≠ 0)) ∧
    (∃ v : Word, opcOf v = 0x21 ∧ (idxHighOf v ≠ 0 ∨ rsvOf v ≠ 0)) ∧
    ∃ v : Word, opcOf v = 0x22 ∧ (symOf v ≠ 0 ∨ rsvOf v ≠ 0) :=
  ⟨⟨0x00000113, by decide, by decide⟩, ⟨0x01000020, by decide, by decide⟩, ⟨0x00080021, by decide, by decide⟩,
    ⟨0x80000022, by decide, by decide⟩⟩

/-- The last node allocated and the first one not. -/
theorem witness_ReadNodeReportsTheRecord : ∃ s : State, (4#9).toNat < s.nodeCount.toNat ∧
    s.nodeCount.toNat ≤ (5#9).toNat := ⟨builtState, by decide +kernel⟩

/-- A leaf and an internal node. -/
theorem witness_NodeReportsHaveTheirLayout : ∃ s : State, s.RecordsOk ∧
    ((0#9).toNat < s.nodeCount.toNat ∧ (s.reportNode 0).result0.getLsbD 30 = true) ∧
    ((3#9).toNat < s.nodeCount.toNat ∧ (s.reportNode 3).result0.getLsbD 30 = false) :=
  ⟨builtState, inv_built.records, by decide +kernel, by decide +kernel⟩

/-- BUILD in a phase other than IDLE, without input, and with input. -/
theorem witness_BuildCountsTheInputAndCompletes : (∃ s : State, s.phase ≠ .idle) ∧
    (∃ s : State, s.phase = .idle ∧ s.inLen = 0) ∧ ∃ s : State, s.phase = .idle ∧ s.inLen ≠ 0 :=
  ⟨⟨builtState, by decide +kernel⟩, ⟨fed small [], rfl, rfl⟩, ⟨fed small aabbc, rfl, by decide⟩⟩

/-- BuildWritesLeavesThenMerges, BuildLeavesOtherEntriesUnchanged and BuildMakesOneTreeOfTheSymbols: a leaf (b is the
second symbol), an internal node, and the first record that BUILD does not write. -/
theorem witness_builds : ∃ s t : State, s.phase = .idle ∧ s.inLen ≠ 0 ∧ exec .build s = .next t ∧
    t.freqAt (0x62#8).toNat ≠ 0 ∧
    (1#9).toNat = ((List.range (0x62#8).toNat).filter fun i => t.freqAt i != 0).length ∧
    (t.nsym.toNat ≤ (3#9).toNat ∧ (3#9).toNat < t.nodeCount.toNat) ∧ t.nodeCount.toNat ≤ (5#9).toNat ∧ t.nsym.toNat < 4 :=
  ⟨fed small aabbc, builtState, rfl, by decide, completes_after (w := 2) (by decide) inv_aabbc, by decide +kernel,
    by decide +kernel, by decide +kernel, by decide +kernel, by decide +kernel⟩

/-- One symbol, for the last clause of BuildMakesOneTreeOfTheSymbols. -/
theorem witness_build_one_symbol : ∃ s t : State, s.phase = .idle ∧ s.inLen ≠ 0 ∧ exec .build s = .next t ∧ t.nsym = 1 :=
  ⟨fed small [0x61, 0x61, 0x61, 0x61], after .build (fed small [0x61, 0x61, 0x61, 0x61]), rfl, by decide,
    completes_after (w := 2) (by decide) inv_aaaa, by decide +kernel⟩

theorem witness_MergeJoinsTheTwoLeastNodes : ∃ s : State, s.QueueOk ∧ 2 ≤ s.pqSize.toNat ∧ s.nodeCount.toNat < 511 ∧
    s.pqSize.toNat ≤ 256 ∧ s.nodeCount.toNat + s.pqSize.toNat ≤ 512 :=
  ⟨queued, inv_queued.queue, by decide +kernel, by decide +kernel, by decide +kernel, by decide +kernel⟩

/-- One state is fresh; the other has nodes left in the queue and the arena. -/
theorem witness_BuildDependsOnTheInputAlone : ∃ s s' t t' : State, s.phase = .idle ∧ s'.phase = .idle ∧ s.inLen ≠ 0 ∧
    s.inputBytes = s'.inputBytes ∧ exec .build s = .next t ∧ exec .build s' = .next t' ∧ s.nodeCount ≠ s'.nodeCount := by
  refine ⟨fed small [0x61], queued.appendInput 0x61, _, _, rfl, by decide +kernel, by decide, by decide +kernel,
    completes_after (w := 2) (by decide) (inv_appendInput inv_small 0x61 rfl (by decide)),
    completes_after (w := 2) (by decide) (inv_appendInput inv_queued 0x61 (by decide +kernel) (by decide +kernel)),
    by decide +kernel⟩

theorem witness_GencodesRecordsTheLeafPaths : (∃ s : State, s.phase ≠ .built) ∧
    ∃ (s : State) (c : CodeTree), s.phase = .built ∧ s.BuiltOk c := by
  obtain ⟨c, h, -⟩ := inv_built.built_of_phase phase_built
  exact ⟨⟨fed small [], by decide⟩, builtState, c, phase_built, h⟩

/-- Three symbols in PHASE CODED and in PHASE DONE, and one symbol. -/
theorem witness_CodeTableIsPrefixFreeAndFull : (∃ s : State, s.Inv ∧ s.phase = .coded ∧ 2 ≤ s.nsym.toNat) ∧
    (∃ s : State, s.Inv ∧ s.phase = .done) ∧ (∃ s : State, s.Inv ∧ s.phase = .coded ∧ s.nsym = 1) ∧
    (0x61#8 ∈ codedState.inputBytes ∧ 0x62#8 ∈ codedState.inputBytes) :=
  ⟨⟨codedState, inv_coded, phase_coded, by decide +kernel⟩, ⟨doneState, inv_done, phase_done⟩,
    ⟨oneSymbol, inv_oneSymbol, phase_oneSymbol, by decide +kernel⟩, by decide +kernel⟩

/-- A stream that fits and a stream one byte too long. -/
theorem witness_EmitWritesTheStreamOrNothing :
    (∃ (s : State) (c : CodeTree) (stream : List Byte), s.params.Ok ∧ s.phase = .coded ∧ s.BuiltOk c ∧ s.CodesOk c ∧
      stream = c.bytes ++ le64 s.bitcnt ++ pack (s.inputBytes.flatMap s.codeOf) ∧
      stream.length ≤ s.params.outCap) ∧
    ∃ (s : State) (c : CodeTree) (stream : List Byte), s.params.Ok ∧ s.phase = .coded ∧ s.BuiltOk c ∧ s.CodesOk c ∧
      stream = c.bytes ++ le64 s.bitcnt ++ pack (s.inputBytes.flatMap s.codeOf) ∧ s.params.outCap < stream.length := by
  have len : ∀ (s : State) (c : CodeTree), s.BuiltOk c → s.CodesOk c →
      (c.bytes ++ le64 s.bitcnt ++ pack (s.inputBytes.flatMap s.codeOf)).length + 2 =
        6 * s.nsym.toNat + 8 + (s.bitcnt.toNat + 7) / 8 := by
    intro s c h1 h2
    have h3 := c.length_bytes
    have h4 := h2.bitcnt
    rw [length_symbols h1] at h3
    rw [State.payload] at h4
    simp only [List.length_append, length_le64, length_pack, bytesFor, ← h4]
    omega
  obtain ⟨c, h1, h2, -⟩ := inv_coded.coded_of_phase phase_coded
  obtain ⟨c', h1', h2', -⟩ := inv_tightCoded.coded_of_phase phase_tightCoded
  have l := len _ _ h1 h2
  have l' := len _ _ h1' h2'
  refine ⟨⟨codedState, c, _, inv_coded.params, phase_coded, h1, h2, rfl, ?_⟩,
    ⟨tightCoded, c', _, inv_tightCoded.params, phase_tightCoded, h1', h2', rfl, ?_⟩⟩
  · have e1 : codedState.nsym.toNat = 3 := by decide +kernel
    have e2 : codedState.bitcnt.toNat = 8 := by decide +kernel
    have e3 : codedState.params.outCap = 64 := by decide +kernel
    rw [e1, e2] at l
    omega
  · have e1 : tightCoded.nsym.toNat = 3 := by decide +kernel
    have e2 : tightCoded.bitcnt.toNat = 8 := by decide +kernel
    have e3 : tightCoded.params.outCap = 24 := by decide +kernel
    rw [e1, e2] at l'
    omega

/-- StreamLengthAndItsBounds, StreamByteAndBitOrder and TruncatedStreamsAreRejected. -/
theorem witness_done : ∃ s : State, s.Inv ∧ s.phase = .done ∧
    (∃ p : List Byte, p <+: s.outputBytes ∧ p ≠ s.outputBytes) ∧ 0 < (s.bitcnt.toNat + 7) / 8 :=
  ⟨doneState, inv_done, phase_done, ⟨[], by simp, by decide +kernel⟩, by decide +kernel⟩

/-- OUT_CAP at its bound for IN_CAP = 8 is 1797. -/
theorem witness_AmpleOutputBufferNeverOverflows :
    (∃ s : State, s.Inv ∧ 1542 + (255 * s.params.inCap + 7) / 8 ≤ s.params.outCap ∧ s.phase = .idle ∧ s.inLen ≠ 0) ∧
    ∃ s : State, s.Inv ∧ 1542 + (255 * s.params.inCap + 7) / 8 ≤ s.params.outCap ∧ s.phase = .coded := by
  have h : (fed { inCap := 8, outCap := 1797, regBase := 0 } [0x61]).Inv :=
    inv_appendInput (inv_resetWith (by decide)) 0x61 rfl (by decide)
  have h' := inv_after (i := .gencodes) (w := 3) (by decide) (inv_after (i := .build) (w := 2) (by decide) h)
  exact ⟨⟨_, h, by decide, rfl, by decide⟩, ⟨_, h', by decide +kernel, by decide +kernel⟩⟩

/-- COMPRESS in a phase other than IDLE, without input, and with input. -/
theorem witness_CompressRunsTheThreeStages : (∃ s : State, s.phase ≠ .idle) ∧
    (∃ s : State, s.phase = .idle ∧ s.inLen = 0) ∧ ∃ s : State, s.phase = .idle ∧ s.inLen ≠ 0 :=
  ⟨⟨doneState, by decide +kernel⟩, ⟨fed small [], rfl, rfl⟩, ⟨fed tight aabbc, rfl, by decide⟩⟩

theorem witness_CompressedOutputDecodesToTheInput : ∃ s t : State, s.params.Ok ∧ exec .compress s = .next t ∧
    t.errCode = 0 :=
  ⟨fed small aabbc, after .compress (fed small aabbc), by decide,
    completes_after (w := 5) (by decide) inv_aabbc, by decide +kernel⟩

/-- The two states differ in OUT_CAP. -/
theorem witness_OutputDependsOnTheInputAlone : ∃ s s' t t' : State, s.params.Ok ∧ s'.params.Ok ∧
    s.inputBytes = s'.inputBytes ∧ exec .compress s = .next t ∧ exec .compress s' = .next t' ∧ t.errCode = 0 ∧
    t'.errCode = 0 ∧ s.params ≠ s'.params := by
  have h : (fed tight [0x61]).Inv := inv_appendInput (inv_resetWith (by decide)) 0x61 rfl (by decide)
  exact ⟨fed small [0x61], fed tight [0x61], _, _, by decide, by decide, by decide,
    completes_after (w := 5) (by decide) (inv_appendInput inv_small 0x61 rfl (by decide)),
    completes_after (w := 5) (by decide) h, by decide +kernel, by decide +kernel, by decide⟩

theorem witness_DecoderIgnoresTrailingBytes : (∃ file out : List Byte, refDecode file = .ok out) ∧
    ∃ tag : Byte, tag ≠ 1 := ⟨⟨aabbcStream, aabbc, by decide +kernel⟩, ⟨2, by decide⟩⟩

/-- A command that raises, and COMPRESS raising in its last stage. -/
theorem witness_CommandErrorsChangeNothingElse :
    (∃ (i : Instr) (w : Word) (s t : State), encode i = .command w ∧ s.errCode = 0 ∧ exec i s = .next t ∧
      t.errCode ≠ 0 ∧ i ≠ .compress) ∧
    ∃ (w : Word) (s t : State), encode .compress = .command w ∧ s.errCode = 0 ∧ exec .compress s = .next t ∧
      t.errCode = 8 :=
  ⟨⟨.build, 2, fed small [], _, by decide, rfl, completes_after (w := 2) (by decide) inv_small, by decide, by decide⟩,
    ⟨5, fed tight aabbc, _, by decide, rfl, completes_after (w := 5) (by decide) inv_tight, by decide +kernel⟩⟩

/-- NopChangesNothing, WrCmdAcceptsOrDropsTheWord and WrArgWritesOrSetsOverrun: BUSY = 1, an error recorded, and
neither. -/
theorem witness_writes : (∃ s : State, s.pending ≠ none) ∧
    (∃ (s : State) (w : Word), s.pending = none ∧ s.errCode ≠ 0 ∧ w ≠ 0x00000001) ∧
    ∃ (s : State) (w : Word), s.pending = none ∧ (s.errCode = 0 ∨ w = 0x00000001) :=
  ⟨⟨pendingWith 0 (fed small []), by decide⟩, ⟨after .build (fed small []), 2, rfl, by decide, by decide⟩,
    ⟨fed small [], 2, rfl, .inl rfl⟩⟩

/-- Each clause; the capacity is reached exactly, and one byte short of it there is room. -/
theorem witness_WrDataInAppendsTheLowByte : (∃ s : State, s.pending ≠ none) ∧
    (∃ s : State, s.pending = none ∧ s.errCode ≠ 0) ∧
    (∃ s : State, s.pending = none ∧ s.errCode = 0 ∧ s.phase ≠ .idle) ∧
    (∃ s : State, s.pending = none ∧ s.errCode = 0 ∧ s.phase = .idle ∧ s.inLen.toNat = s.params.inCap) ∧
    ∃ s : State, s.pending = none ∧ s.errCode = 0 ∧ s.phase = .idle ∧ s.inLen.toNat + 1 = s.params.inCap ∧
      s.params.Ok :=
  ⟨⟨pendingWith 0 (fed small []), by decide⟩, ⟨after .build (fed small []), rfl, by decide⟩,
    ⟨builtState, by decide +kernel, by decide +kernel, by decide +kernel⟩,
    ⟨fed small [1, 2, 3, 4, 5, 6, 7, 8], rfl, rfl, rfl, by decide⟩,
    ⟨fed small [1, 2, 3, 4, 5, 6, 7], rfl, rfl, rfl, by decide, by decide⟩⟩

/-- The first and the last offset without a write of its own. -/
theorem witness_WritesDispatchOnTheOffset : ∀ off ∈ [0x00#8, 0xFC#8],
    Offset.Aligned off ∧ off ≠ 0x04 ∧ off ≠ 0x14 ∧ off ≠ 0x18 := by decide

theorem witness_ReadsWhileBusyGiveAnyValue : ∃ s : State, s.pending ≠ none := ⟨pendingWith 0 (fed small []), by decide⟩

/-- The first and the last reserved offset, and BUSY = 0: ReadsDispatchOnTheOffset and RegistersReadTheirContent. -/
theorem witness_ReadsDispatchOnTheOffset : (∀ off ∈ [0x5C#8, 0xFC#8], Offset.Aligned off ∧ 0x5C ≤ off.toNat) ∧
    ∃ s : State, s.pending = none := ⟨by decide, ⟨fed small [], rfl⟩⟩

/-- Output left, with one byte, and no output. -/
theorem witness_DataOutPopsOneByte : (∃ s : State, s.pending = none ∧ s.outRd.toNat + 1 = s.outLen.toNat) ∧
    ∃ s : State, s.pending = none ∧ s.outLen.toNat ≤ s.outRd.toNat :=
  ⟨⟨{ doneState with outRd := 24 }, by decide +kernel, by decide +kernel⟩, ⟨fed small [], rfl, by decide⟩⟩

/-- A command that completes, a command that raises, and a DATA_IN write that raises. -/
theorem witness_EachElementHasItsWriters : (∃ (i : Instr) (s t : State), exec i s = .next t ∧ i ≠ .clear ∧
      t.errCode = s.errCode) ∧
    (∃ (i : Instr) (s t : State), exec i s = .next t ∧ i ≠ .clear ∧ s.errCode = 0 ∧ t.errCode = 1 ∧
      t.errSrc = false ∧ t.errWord = 2) ∧
    ∃ (i : Instr) (s t : State), exec i s = .next t ∧ i ≠ .clear ∧ s.errCode = 0 ∧ t.errCode = 7 ∧ t.errSrc = true ∧
      t.errWord = 0xFFFFFF61 :=
  ⟨⟨.build, fed small aabbc, builtState, completes_after (w := 2) (by decide) inv_aabbc, by decide, by decide +kernel⟩,
    ⟨.build, fed small [], after .build (fed small []), completes_after (w := 2) (by decide) inv_small, by decide, rfl,
      by decide, by decide, by decide⟩,
    ⟨.wrDataIn 0xFFFFFF61, fed small [1, 2, 3, 4, 5, 6, 7, 8],
      (fed small [1, 2, 3, 4, 5, 6, 7, 8]).raise .inOverflow 0xFFFFFF61 true, rfl, by decide, rfl, rfl, rfl, rfl⟩⟩

/-- PhaseMovesForwardAndInputFreezes and EveryStepKeepsTheInvariant: EMIT in PHASE CODED. -/
theorem witness_steps : ∃ s t : State, s.Inv ∧ s.phase ≠ .idle ∧ step s = .next t ∧ t.phase = .done := by
  have h : (pendingWith 4 codedState).Inv := inv_accept inv_coded fun he => absurd (by decide +kernel) he
  refine ⟨pendingWith 4 codedState, after .emit (pendingWith 4 codedState), h, by decide +kernel, ?_, by decide +kernel⟩
  have e : (pendingWith 4 codedState).agenda = [] := by decide +kernel
  rw [step, State.fetch, if_pos (engineNext_eq_true (w := 4) rfl (.inl e)), fetchCommand]
  exact completes_after (w := 4) (by decide) h

end Sys2Proof.Tests
end

section
/-! SUPPORT. Proofs of the statements of spec/00_scope.md: which instruction a step runs (R5, R12), and an output buffer
that is never too small (R8). -/

namespace Sys2Proof.Proofs.Scope

open Sys2Proof Sys2Proof.Machine

variable {s s' : State} {a : Access} {c : Code} {i : Instr}

/-! ### The instruction a step runs -/

theorem step_of_run (h : s.fetch = .run i s') : step s = exec i s' := by rw [step, h]

theorem step_of_refused {r : Refusal} (h : s.fetch = .refused r) : step s = .refused r := by rw [step, h]

/-- An access that is next, with the engine's step not before it, is what is fetched (R60). -/
theorem fetch_of_access {first : Bool} {rest : List Planned}
    (ha : s.agenda = { engineFirst := first, event := .access a } :: rest) (hb : s.busy = false ∨ first = false) :
    s.fetch = fetchAccess a { s with agenda := rest } := by
  simp [State.fetch, engineNext_eq_false ha hb, ha]

/-- A pending command whose turn it is is what is fetched (R101). -/
theorem fetch_of_command (he : s.engineNext = true) : s.fetch = fetchCommand s := by rw [State.fetch, if_pos he]

theorem fetchAccess_run (hc : accessCode s.params a = .ok c) (hd : decode c = .ok i) : fetchAccess a s = .run i s := by
  simp only [fetchAccess, hc, hd]

theorem fetchAccess_refused {r : Refusal} (hc : accessCode s.params a = .error r) : fetchAccess a s = .refused r := by
  simp only [fetchAccess, hc]

theorem fetchCommand_run {w : Word} (hp : s.pending = some w) (hd : decodeCommand w = .ok i) :
    fetchCommand s = .run i s := by
  simp only [fetchCommand, hp, hd]

theorem accessCode_outside {p : Params} (h : a.addr < p.regBase ∨ p.regBase + Config.window ≤ a.addr) :
    accessCode p a = .error .outsideWindow := by rw [accessCode, if_pos h]

/-- A read of the window runs the instruction of its offset (R12, R90). -/
theorem fetchAccess_read {off : Offset} (hd : decode (.read off) = .ok i) :
    fetchAccess (busAccess s.params off .read) s = .run i s :=
  fetchAccess_run (accessCode_busAccess _ _ (aligned_of_decodeRead hd)) hd

/-- A write of the window runs the instruction of its offset and value (R12, R91). -/
theorem fetchAccess_write {off : Offset} {v : Word} (hd : decode (.write off v) = .ok i) :
    fetchAccess (busAccess s.params off (.write v)) s = .run i s :=
  fetchAccess_run (accessCode_busAccess _ _ (aligned_of_decodeWrite hd)) hd

/-! ### The length of the stream against OUT_CAP -/

/-- The tree part has at most 1534 bytes: a leaf for each of the 256 symbols (R134, R137). -/
theorem length_treePart_le {t : CodeTree} (h : s.BuiltOk t) : t.bytes.length ≤ 1534 := by
  have hlen := t.length_bytes
  have hsyms := length_le_of_nodup_bytes h.symbols
  omega

/-- The upper bound of R137 on the stream, before EMIT has written it. -/
theorem length_stream_le {t : CodeTree} (h : s.BuiltOk t) :
    (s.stream t.bytes).length ≤ 1542 + (255 * s.inLen.toNat + 7) / 8 := by
  have htree := length_treePart_le h
  have hpayload := length_payload_le (s := s)
  rw [length_stream, bytesFor]
  omega

/-- OUT_CAP is at least the bound of R8. -/
def AmpleOutput (p : Params) : Prop := 1542 + (255 * p.inCap + 7) / 8 ≤ p.outCap

/-- With an ample OUT_CAP the semantics of EMIT writes the stream (R8, R138). -/
theorem performEmit_ample {t : CodeTree} (h : s.BuiltOk t) (hin : s.inLen.toNat ≤ s.params.inCap)
    (hout : AmpleOutput s.params) : performEmit s = .done (s.emitted (s.stream t.bytes)) := by
  have hlen := length_stream_le h
  rw [AmpleOutput] at hout
  exact performEmit_done h.tree (by omega)

/-- With an ample OUT_CAP the semantics of COMPRESS reaches DONE and leaves the error record (R8, R139). -/
theorem performCompress_ample (hl : s.inLen ≠ 0) (hin : s.inLen.toNat ≤ s.params.inCap)
    (hout : AmpleOutput s.params) :
    ∃ u, performCompress s = .done u ∧ u.phase = .done ∧ u.errCode = s.errCode := by
  obtain ⟨b, t, -, hb, hframe, hcompress⟩ := exists_built hl
  have hlen : b.inLen = s.inLen := by rw [hframe]
  have hparams : b.params = s.params := by rw [hframe]
  have herr : b.errCode = s.errCode := by rw [hframe]
  have hcoded : (b.withCodes t.codes).BuiltOk t := hb.congr
  refine ⟨_, hcompress.trans (performEmit_ample hcoded ?_ ?_), rfl, herr⟩
  · simpa [hlen, hparams] using hin
  · simpa [hparams] using hout

end Sys2Proof.Proofs.Scope

namespace Sys2Proof.Proofs

open Sys2Proof.Machine Scope

/-- Settles O37: by R137 the stream of any tree and code table is no longer than the bound of R8 on OUT_CAP. -/
theorem ampleOutputBufferNeverOverflows : Obligations.AmpleOutputBufferNeverOverflows := by
  intro s h hout
  refine ⟨fun hp => ?_, fun hp hl => ?_⟩
  · obtain ⟨t, hb, -, -⟩ := h.coded_of_phase hp
    have hemit := performEmit_ample hb h.buffers.input hout
    exact ⟨_, exec_done _ rfl (by rw [hp]; rfl) hemit, rfl, rfl⟩
  · obtain ⟨u, hu, hdone, herr⟩ := performCompress_ample hl h.buffers.input hout
    exact ⟨_, exec_done u rfl (by rw [hp]; rfl) hu, hdone, herr⟩

/-- Settles O5: an access of the window is at an aligned offset whenever it decodes, so the fetch answers the decoded
instruction; the pending word and an access outside the window go through the fetch alone. -/
theorem stepRunsTheDecodedInstruction : Obligations.StepRunsTheDecodedInstruction := by
  refine ⟨fun s off first rest i ha hb hd => ?_, fun s off v first rest i ha hb hd => ?_,
    fun s w i hp ha hd => ?_, fun s a first rest ha hb hout => ?_⟩
  · exact step_of_run ((fetch_of_access ha hb).trans (fetchAccess_read (s := { s with agenda := rest }) hd))
  · exact step_of_run ((fetch_of_access ha hb).trans (fetchAccess_write (s := { s with agenda := rest }) hd))
  · exact step_of_run ((fetch_of_command (engineNext_eq_true hp ha)).trans (fetchCommand_run hp hd))
  · exact step_of_refused ((fetch_of_access ha hb).trans (fetchAccess_refused (accessCode_outside hout)))

end Sys2Proof.Proofs
end

section
/-! SUPPORT. Proofs of the statements of spec/10_state.md: the reset values (R14, R41), which instruction may write which
element (R15 to R37), and what every step keeps (R20, R22, R33, R40, R64). -/

namespace Sys2Proof.Proofs.StateElements

open Sys2Proof Sys2Proof.Machine

variable {s t u : State} {i : Instr} {w : Word}

/-! ### One step, up to the agenda -/

/-- Whatever a step does, it does on `s` with some of its agenda: it runs an instruction, rejects an invalid word, or
resets (R5, R13). -/
theorem exec_of_step (h : step s = .next t) : ∃ rest : List Planned,
    (∃ i, exec i { s with agenda := rest } = .next t) ∨
    (∃ w, t = (({ s with agenda := rest } : State).raise .badCommand w false).finish) ∨
    t = ({ s with agenda := rest } : State).cleared := by
  obtain ⟨-, w, -, ⟨i, -, hn⟩ | ⟨-, rfl⟩⟩ | ⟨-, -, rest, -, ⟨-, rfl⟩ | ⟨-, -, i, -, -, -, hn⟩⟩ := step_cases h
  · exact ⟨s.agenda, .inl ⟨i, hn⟩⟩
  · exact ⟨s.agenda, .inr (.inl ⟨w, rfl⟩)⟩
  · exact ⟨rest, .inr (.inr rfl)⟩
  · exact ⟨rest, .inl ⟨i, hn⟩⟩

/-- A step is a reset, by its event or by CLEAR, or it runs another instruction or rejects a word (R104, R170). -/
theorem reset_or_exec_of_step (h : step s = .next t) : t.IsResetOf s ∨ ∃ rest : List Planned,
    (∃ i, i ≠ .clear ∧ exec i { s with agenda := rest } = .next t) ∨
    ∃ w, t = (({ s with agenda := rest } : State).raise .badCommand w false).finish := by
  obtain ⟨rest, ⟨i, hn⟩ | hw | rfl⟩ := exec_of_step h
  · by_cases hc : i = .clear
    · subst hc
      cases hn
      exact .inl rfl
    · exact .inr ⟨rest, .inl ⟨i, hc, hn⟩⟩
  · exact .inr ⟨rest, .inr hw⟩
  · exact .inl rfl

/-- Running any instruction keeps the invariant. -/
theorem inv_exec (h : s.Inv) (hn : exec i s = .next t) : t.Inv := by
  by_cases hi : ∃ w, encode i = .command w
  · exact inv_exec_command h hn hi.choose_spec
  · exact inv_exec_access h hn (not_exists.mp hi)

/-! ### What an access writes -/

theorem pending_ne_none_of_busy (h : s.busy = true) : s.pending ≠ none := by
  simpa [State.busy, Option.isSome_iff_ne_none] using h

/-- A CMD write is dropped, with the flag or without, or it makes its word pending (R98). -/
theorem execWrCmd_next (h : execWrCmd w s = .next t) :
    (s.pending ≠ none ∧ t = s.dropWrite) ∨ t = s ∨ (s.pending = none ∧ t = { s with pending := some w }) := by
  rw [execWrCmd] at h
  split at h
  next hb => exact .inl ⟨pending_ne_none_of_busy hb, (Host.Outcome.next.inj h).symm⟩
  next hb =>
    split at h
    · exact .inr (.inl (Host.Outcome.next.inj h).symm)
    · exact .inr (.inr ⟨busy_eq_false.mp (by simpa using hb), (Host.Outcome.next.inj h).symm⟩)

/-- An ARG write is dropped with the flag, or it writes ARG (R94). -/
theorem execWrArg_next (h : execWrArg w s = .next t) :
    (s.pending ≠ none ∧ t = s.dropWrite) ∨ t = { s with arg := w } := by
  rw [execWrArg] at h
  split at h
  next hb => exact .inl ⟨pending_ne_none_of_busy hb, (Host.Outcome.next.inj h).symm⟩
  next => exact .inr (Host.Outcome.next.inj h).symm

/-- A DATA_IN write is dropped, with the flag or without, raises, or appends in IDLE (R95). -/
theorem execWrDataIn_next (h : execWrDataIn w s = .next t) :
    (s.pending ≠ none ∧ t = s.dropWrite) ∨ t = s ∨ (∃ e, t = s.raise e w true) ∨
      (s.phase = .idle ∧ t = s.appendInput (w.setWidth 8)) := by
  rw [execWrDataIn] at h
  split at h
  next hb => exact .inl ⟨pending_ne_none_of_busy hb, (Host.Outcome.next.inj h).symm⟩
  next =>
    split at h
    · exact .inr (.inl (Host.Outcome.next.inj h).symm)
    · split at h
      next => exact .inr (.inr (.inl ⟨_, (Host.Outcome.next.inj h).symm⟩))
      next ha =>
        split at h
        · exact .inr (.inr (.inl ⟨_, (Host.Outcome.next.inj h).symm⟩))
        · exact .inr (.inr (.inr ⟨by simpa [allowedIn] using ha, (Host.Outcome.next.inj h).symm⟩))

/-- A DATA_OUT read changes OUT_RD and what the host has seen, nothing else (R96). -/
theorem execRdDataOut_next (h : execRdDataOut s = .next t) :
    t = { s with outRd := t.outRd, reads := t.reads, draws := t.draws } := by
  rw [execRdDataOut] at h
  split at h
  · rw [← Host.Outcome.next.inj h]
    rfl
  · split at h <;> (rw [← Host.Outcome.next.inj h]; rfl)

/-! ### The elements a command's semantics writes -/

/-- The elements that depend on the command: each is as before, or the command is one of its writers. -/
structure CommandWrites (i : Instr) (s u : State) : Prop where
  results : (u.result0 = s.result0 ∧ u.result1 = s.result1 ∧ u.result2 = s.result2) ∨
    (∃ sym, i = .pqPush sym) ∨ i = .pqPop ∨ (∃ k, i = .readHeap k) ∨ (∃ sym, i = .readFreq sym) ∨
    (∃ sym w, i = .readCode sym w) ∨ ∃ id, i = .readNode id
  phase : u.phase = s.phase ∨ i = .build ∨ i = .gencodes ∨ i = .emit ∨ i = .compress
  counts : (u.freq = s.freq ∧ u.nsym = s.nsym ∧ u.root = s.root) ∨ i = .build ∨ i = .compress
  queue : (u.arena = s.arena ∧ u.nodeCount = s.nodeCount ∧ u.heap = s.heap ∧ u.pqSize = s.pqSize) ∨ i = .build ∨
    i = .compress ∨ i = .pqReset ∨ (∃ sym, i = .pqPush sym) ∨ i = .pqPop
  codes : (u.codeLen = s.codeLen ∧ u.codeBits = s.codeBits ∧ u.bitcnt = s.bitcnt) ∨ i = .gencodes ∨ i = .compress
  output : (u.outbuf = s.outbuf ∧ u.outLen = s.outLen ∧ u.treeLen = s.treeLen) ∨ i = .emit ∨ i = .compress
  outRd : u.outRd = s.outRd ∨ i = .emit ∨ i = .compress ∨ i = .rdDataOut

theorem CommandWrites.refl (i : Instr) (s : State) : CommandWrites i s s := by constructor <;> simp

/-- A report writes RESULT0 to RESULT2 only. -/
theorem commandWrites_report (r0 r1 r2 : Word)
    (hi : (∃ k, i = .readHeap k) ∨ (∃ sym, i = .readFreq sym) ∨ (∃ sym w, i = .readCode sym w) ∨
      ∃ id, i = .readNode id) : CommandWrites i s (s.report r0 r1 r2) :=
  { CommandWrites.refl i s with results := .inr (.inr (.inr hi)) }

/-- BUILD writes no RESULT, no code and no output (R116). -/
theorem commandWrites_build (h : performBuild s = .done u) (hi : i = .build ∨ i = .compress) : CommandWrites i s u := by
  by_cases h0 : s.inLen = 0
  · rw [performBuild, if_pos h0] at h
    cases h
  · obtain ⟨b, c, hb, -, hframe, -⟩ := exists_built h0
    cases hb.symm.trans h
    rw [hframe]
    rcases hi with rfl | rfl <;> constructor <;> simp

theorem performGencodes_eq_done (h : performGencodes s = .done u) : ∃ codes, u = s.withCodes codes := by
  rw [performGencodes] at h
  split at h <;> cases h
  exact ⟨_, rfl⟩

theorem performEmit_eq_done (h : performEmit s = .done u) : ∃ bytes, u = s.emitted bytes := by
  rw [performEmit] at h
  split at h
  · cases h
  · split at h <;> cases h
    exact ⟨_, rfl⟩

/-- COMPRESS does nothing, or BUILD and GENCODES are behind it when it ends (R139). -/
theorem performCompress_cases (s : State) : performCompress s = .raised .emptyInput s ∨
    ∃ b codes, performBuild s = .done b ∧ (performCompress s = .raised .outOverflow (b.withCodes codes) ∨
      ∃ bytes, performCompress s = .done ((b.withCodes codes).emitted bytes)) := by
  by_cases h0 : s.inLen = 0
  · rw [performCompress, performBuild, if_pos h0]
    exact .inl rfl
  · obtain ⟨b, c, hb, hbuilt, -, e⟩ := exists_built h0
    have hcoded : (b.withCodes c.codes).BuiltOk c := hbuilt.congr
    rcases performEmit_cases hcoded.tree with ⟨-, he⟩ | ⟨-, he⟩
    · exact .inr ⟨b, c.codes, hb, .inr ⟨_, e.trans he⟩⟩
    · exact .inr ⟨b, c.codes, hb, .inl (e.trans he)⟩

/-- The semantics of a command ends in `u`, completing or raising (R99, R100). -/
def EndsIn (p : Performed) (u : State) : Prop := p = .done u ∨ ∃ e, p = .raised e u

theorem EndsIn.eq_of_done (h : EndsIn (.done t) u) : u = t := by
  rcases h with h | ⟨e, h⟩ <;> cases h
  rfl

theorem EndsIn.eq_of_raised {e : ErrorKind} (h : EndsIn (.raised e t) u) : u = t := by
  rcases h with h | ⟨e', h⟩ <;> cases h
  rfl

theorem commandWrites_compress (h : EndsIn (performCompress s) u) : CommandWrites .compress s u := by
  rcases performCompress_cases s with e | ⟨b, codes, hb, e | ⟨bytes, e⟩⟩ <;> rw [e] at h
  · rw [h.eq_of_raised]
    exact .refl _ _
  · rw [h.eq_of_raised]
    have hw := commandWrites_build hb (.inr rfl)
    exact { hw with codes := .inr (.inr rfl), phase := by simp }
  · rw [h.eq_of_done]
    have hw := commandWrites_build hb (.inr rfl)
    exact { hw with codes := .inr (.inr rfl), phase := by simp, output := by simp, outRd := by simp }

/-- Each command writes its own elements only (R16, R20, R26 to R37). -/
theorem commandWrites_done (hi : i ≠ .clear) (h : semantics i s = .done u) : CommandWrites i s u := by
  cases i
  case clear => exact absurd rfl hi
  case build => exact commandWrites_build h (.inl rfl)
  case gencodes =>
    obtain ⟨codes, rfl⟩ := performGencodes_eq_done h
    constructor <;> simp
  case emit =>
    obtain ⟨bytes, rfl⟩ := performEmit_eq_done h
    constructor <;> simp
  case compress => exact commandWrites_compress (.inl h)
  case pqReset =>
    cases h
    constructor <;> simp
  case pqPush sym =>
    simp only [semantics, performPush] at h
    split at h <;> cases h
    constructor <;> simp
  case pqPop =>
    simp only [semantics, performPop] at h
    split at h <;> cases h <;> constructor <;> simp
  case readHeap slot =>
    simp only [semantics, performReadHeap] at h
    split at h <;> cases h <;> exact commandWrites_report _ _ _ (by simp)
  case readFreq sym =>
    cases h
    exact commandWrites_report _ _ _ (by simp)
  case readCode sym w =>
    cases h
    exact commandWrites_report _ _ _ (by simp)
  case readNode id =>
    simp only [semantics, performReadNode] at h
    split at h <;> cases h <;> exact commandWrites_report _ _ _ (by simp)
  all_goals
    cases h
    exact .refl _ _

theorem commandWrites_semantics (hi : i ≠ .clear) (h : EndsIn (semantics i s) u) : CommandWrites i s u := by
  rcases h with h | ⟨e, h⟩
  · exact commandWrites_done hi h
  · by_cases hc : i = .compress
    · subst hc
      exact commandWrites_compress (.inr ⟨e, h⟩)
    · rw [raised_unchanged hc h]
      exact .refl _ _

theorem engineWrites_semantics (hi : i ≠ .clear) (h : EndsIn (semantics i s) u) : EngineWrites s u := by
  rcases h with h | ⟨e, h⟩
  · exact engineWrites_done hi h
  · exact engineWrites_raised h

/-- What a completion step leaves: the command's own phase check failed and nothing is written, or its semantics ended
in `u`; then the command is no longer pending and an error of it may be recorded (R99 to R101). -/
theorem exec_command_next (hi : encode i = .command w) (hn : exec i s = .next t) :
    ∃ u, (u = s ∨ allowedIn i s.phase = true ∧ EndsIn (semantics i s) u) ∧
      (t = u.finish ∨ ∃ e, t = (u.raise e w false).finish) := by
  rw [exec_command hi] at hn
  have hw := encodeWord_of_command hi
  rcases runCommand_next hn with ⟨ha, u, hu, rfl⟩ | ⟨ha, e, u, hu, rfl⟩ | ⟨-, rfl⟩
  · exact ⟨u, .inr ⟨ha, .inl hu⟩, .inl rfl⟩
  · exact ⟨u, .inr ⟨ha, .inr ⟨e, hu⟩⟩, .inr ⟨e, by rw [hw]⟩⟩
  · exact ⟨s, .inl rfl, .inr ⟨.sequence, by rw [hw]⟩⟩

/-! ### The writers of every element -/

/-- Each element of the state is as before, or the instruction is one of its writers. -/
structure ElementWrites (i : Instr) (s t : State) : Prop extends CommandWrites i s t where
  arg : t.arg = s.arg ∨ ∃ v, i = .wrArg v
  pending : t.pending = s.pending ∨ ((∃ w, encode i = .command w) ∧ t.pending = none) ∨
    ∃ w, i = .wrCmd w ∧ s.pending = none ∧ t.pending = some w
  overrun : t.overrun = s.overrun ∨
    (((∃ v, i = .wrCmd v) ∨ (∃ v, i = .wrArg v) ∨ ∃ v, i = .wrDataIn v) ∧ s.pending ≠ none ∧ t.overrun = true)
  error : (t.errCode = s.errCode ∧ t.errSrc = s.errSrc ∧ t.errWord = s.errWord) ∨
    (s.errCode = 0 ∧ t.errCode ≠ 0 ∧
      ((∃ w, encode i = .command w ∧ t.errSrc = false ∧ t.errWord = w) ∨
        ∃ v, i = .wrDataIn v ∧ t.errSrc = true ∧ t.errWord = v))
  input : (t.inbuf = s.inbuf ∧ t.inLen = s.inLen) ∨ ∃ v, i = .wrDataIn v
  params : t.params = s.params
  agenda : t.agenda = s.agenda

theorem ElementWrites.refl (i : Instr) (s : State) : ElementWrites i s s := by
  constructor <;> simp [CommandWrites.refl]

/-- What a command's semantics ends in, before its completion. -/
theorem elementWrites_semantics (hi : i ≠ .clear) (h : EndsIn (semantics i s) u) : ElementWrites i s u := by
  have hc := commandWrites_semantics hi h
  have he := engineWrites_semantics hi h
  rw [EngineWrites] at he
  refine ⟨hc, ?_, ?_, ?_, ?_, ?_, ?_, ?_⟩ <;> rw [he] <;> simp

theorem ElementWrites.finish (hi : encode i = .command w) (h : ElementWrites i s u) : ElementWrites i s u.finish :=
  { h with pending := .inr (.inl ⟨⟨w, hi⟩, rfl⟩) }

/-- The first error of a command is recorded with source 0 and its word (R22, R156). -/
theorem ElementWrites.raise_command (hi : encode i = .command w) (h : ElementWrites i s u)
    (herr : u.errCode = s.errCode ∧ u.errSrc = s.errSrc ∧ u.errWord = s.errWord) (e : ErrorKind) :
    ElementWrites i s (u.raise e w false) := by
  by_cases h0 : u.errCode = 0
  · have hne := raise_errCode_ne u e w false
    rw [raise_of_no_error h0] at hne ⊢
    exact { h with error := .inr ⟨herr.1 ▸ h0, hne, .inl ⟨w, hi, rfl, rfl⟩⟩ }
  · rw [raise_of_error h0]
    exact h

theorem elementWrites_command (hc : i ≠ .clear) (hi : encode i = .command w) (hn : exec i s = .next t) :
    ElementWrites i s t := by
  obtain ⟨u, hu, ht⟩ := exec_command_next hi hn
  obtain ⟨hw, herr⟩ : ElementWrites i s u ∧
      u.errCode = s.errCode ∧ u.errSrc = s.errSrc ∧ u.errWord = s.errWord := by
    rcases hu with rfl | ⟨-, hu⟩
    · exact ⟨.refl i u, rfl, rfl, rfl⟩
    · exact ⟨elementWrites_semantics hc hu, (engineWrites_semantics hc hu).errorRecord⟩
  rcases ht with rfl | ⟨e, rfl⟩
  · exact hw.finish hi
  · exact (hw.raise_command hi herr e).finish hi

/-- A read that pops nothing writes no element (R90). -/
theorem elementWrites_observed (i : Instr) (h : Observed s t) : ElementWrites i s t := by
  rw [Observed] at h
  rw [h]
  exact { ElementWrites.refl i s with }

theorem elementWrites_dropWrite (hi : (∃ v, i = .wrCmd v) ∨ (∃ v, i = .wrArg v) ∨ ∃ v, i = .wrDataIn v)
    (hp : s.pending ≠ none) : ElementWrites i s s.dropWrite :=
  { ElementWrites.refl i s with overrun := .inr ⟨hi, hp, rfl⟩ }

theorem elementWrites_wrCmd (hn : execWrCmd w s = .next t) : ElementWrites (.wrCmd w) s t := by
  rcases execWrCmd_next hn with ⟨hp, rfl⟩ | rfl | ⟨hp, rfl⟩
  · exact elementWrites_dropWrite (by simp) hp
  · exact .refl _ _
  · exact { ElementWrites.refl (.wrCmd w) s with pending := .inr (.inr ⟨w, rfl, hp, rfl⟩) }

theorem elementWrites_wrArg (hn : execWrArg w s = .next t) : ElementWrites (.wrArg w) s t := by
  rcases execWrArg_next hn with ⟨hp, rfl⟩ | rfl
  · exact elementWrites_dropWrite (by simp) hp
  · exact { ElementWrites.refl (.wrArg w) s with arg := .inr ⟨w, rfl⟩ }

theorem elementWrites_wrDataIn (hn : execWrDataIn w s = .next t) : ElementWrites (.wrDataIn w) s t := by
  rcases execWrDataIn_next hn with ⟨hp, rfl⟩ | rfl | ⟨e, rfl⟩ | ⟨-, rfl⟩
  · exact elementWrites_dropWrite (by simp) hp
  · exact .refl _ _
  · by_cases h0 : s.errCode = 0
    · have hne := raise_errCode_ne s e w true
      rw [raise_of_no_error h0] at hne ⊢
      exact { ElementWrites.refl (.wrDataIn w) s with error := .inr ⟨h0, hne, .inr ⟨w, rfl, rfl, rfl⟩⟩ }
    · rw [raise_of_error h0]
      exact .refl _ _
  · exact { ElementWrites.refl (.wrDataIn w) s with input := .inr ⟨w, rfl⟩ }

theorem elementWrites_rdDataOut (hn : execRdDataOut s = .next t) : ElementWrites .rdDataOut s t := by
  rw [execRdDataOut_next hn]
  exact { ElementWrites.refl .rdDataOut s with outRd := by simp }

/-- Every instruction but CLEAR writes its own elements only. -/
theorem elementWrites_exec (hc : i ≠ .clear) (hn : exec i s = .next t) : ElementWrites i s t := by
  by_cases hi : ∃ w, encode i = .command w
  · exact elementWrites_command hc hi.choose_spec hn
  · rw [not_exists] at hi
    cases i
    case wrCmd v => exact elementWrites_wrCmd hn
    case wrArg v => exact elementWrites_wrArg hn
    case wrDataIn v => exact elementWrites_wrDataIn hn
    case wrOther off v =>
      cases hn
      exact .refl _ _
    case rdDataOut => exact elementWrites_rdDataOut hn
    case rdId | rdStatus | rdInCap | rdOutCap => exact elementWrites_observed _ (exactRead_next hn)
    case nop | clear | build | gencodes | emit | compress | pqReset | pqPush | pqPop | readHeap | readFreq | readCode |
        readNode => exact absurd rfl (hi _)
    all_goals exact elementWrites_observed _ (guardedRead_next hn)

/-! ### The queue -/

theorem queueOk_rooted (h : s.QueueOk) : s.rooted.QueueOk := (queueOk_dequeue h).congr

theorem queueOk_build (h : performBuild s = .done u) : u.QueueOk := by
  rw [performBuild] at h
  split at h <;> cases h
  have hclosed : QueueClosed State.QueueOk :=
    ⟨fun _ nd hq hs hc => queueOk_addNode nd hq hs hc, fun _ hq => queueOk_dequeue hq⟩
  exact queueOk_rooted (merged_induct hclosed s (queueOk_of_empty rfl (by simp))).1

theorem queueOk_push (h : s.QueueOk) (sym : Byte) (hu : EndsIn (performPush sym s) u) : u.QueueOk := by
  rw [performPush] at hu
  split at hu
  next => rwa [hu.eq_of_raised]
  next hfull =>
    obtain ⟨hq, hc⟩ := not_or.mp hfull
    have hsize : s.pqSize.toNat < Config.heapCap :=
      lt_of_le_of_ne h.size fun e => hq (BitVec.eq_of_toNat_eq e)
    have hcount : s.nodeCount.toNat < Config.arenaCap :=
      lt_of_le_of_ne h.count fun e => hc (BitVec.eq_of_toNat_eq e)
    rw [hu.eq_of_done]
    exact (queueOk_addNode (Node.ofLeaf sym s.arg) h hsize hcount).congr

theorem queueOk_pop (h : s.QueueOk) (hu : EndsIn (performPop s) u) : u.QueueOk := by
  rw [performPop] at hu
  split at hu <;> rw [hu.eq_of_done] <;> exact (queueOk_dequeue h).congr

theorem queueOk_compress (h : s.QueueOk) (hu : EndsIn (performCompress s) u) : u.QueueOk := by
  rcases performCompress_cases s with e | ⟨b, codes, hb, e | ⟨bytes, e⟩⟩ <;> rw [e] at hu
  · rwa [hu.eq_of_raised]
  · rw [hu.eq_of_raised]
    exact (queueOk_build hb).congr
  · rw [hu.eq_of_done]
    exact (queueOk_build hb).congr

/-- No command's semantics unsettles the queue (R110). -/
theorem queueOk_semantics (h : s.QueueOk) (hu : EndsIn (semantics i s) u) : u.QueueOk := by
  by_cases hc : i = .clear
  · subst hc
    rw [hu.eq_of_done]
    exact queueOk_of_empty rfl (by simp)
  · rcases (commandWrites_semantics hc hu).queue with ⟨ha, hn, hh, hp⟩ | rfl | rfl | rfl | ⟨sym, rfl⟩ | rfl
    · exact h.congr ha hh hp hn
    · rcases hu with hu | ⟨e, hu⟩
      · exact queueOk_build hu
      · rwa [raised_unchanged (by simp) hu]
    · exact queueOk_compress h hu
    · rw [hu.eq_of_done]
      exact queueOk_of_empty rfl (by simp)
    · exact queueOk_push h sym hu
    · exact queueOk_pop h hu

theorem queueOk_raise_finish (h : s.QueueOk) (e : ErrorKind) (w : Word) (src : Bool) :
    (s.raise e w src).finish.QueueOk := h.congr (by simp) (by simp) (by simp) (by simp)

theorem queueOk_exec (h : s.QueueOk) (hn : exec i s = .next t) : t.QueueOk := by
  by_cases hi : ∃ w, encode i = .command w
  · obtain ⟨w, hi⟩ := hi
    obtain ⟨u, hu, ht⟩ := exec_command_next hi hn
    have hq : u.QueueOk := by
      rcases hu with rfl | ⟨-, hu⟩
      · exact h
      · exact queueOk_semantics h hu
    rcases ht with rfl | ⟨e, rfl⟩
    · exact hq.congr
    · exact queueOk_raise_finish hq e w false
  · have hc : i ≠ .clear := fun hc => hi ⟨1, hc ▸ rfl⟩
    obtain ⟨ha, hcount, hh, hp⟩ := (elementWrites_exec hc hn).queue.resolve_right (by
      rintro (rfl | rfl | rfl | ⟨_, rfl⟩ | rfl) <;> exact hi ⟨_, rfl⟩)
    exact h.congr ha hh hp hcount

/-! ### PHASE and the input -/

theorem idle_code_le (p : Phase) : Phase.idle.code ≤ p.code := by cases p <;> decide

/-- In the phases that allow it a command's semantics moves PHASE forward or leaves it (R20, R102). -/
theorem phase_le_semantics (hc : i ≠ .clear) (ha : allowedIn i s.phase = true) (hu : EndsIn (semantics i s) u) :
    s.phase.code ≤ u.phase.code := by
  rcases (commandWrites_semantics hc hu).phase with e | rfl | rfl | rfl | rfl <;>
    simp only [allowedIn, beq_iff_eq] at ha
  · rw [e]
    exact BitVec.le_refl _
  · rw [ha]
    exact idle_code_le _
  · rcases hu with hu | ⟨e, hu⟩
    · obtain ⟨codes, rfl⟩ := performGencodes_eq_done hu
      rw [ha, State.withCodes_phase]
      decide
    · rw [raised_unchanged (by simp) hu]
      exact BitVec.le_refl _
  · rcases hu with hu | ⟨e, hu⟩
    · obtain ⟨bytes, rfl⟩ := performEmit_eq_done hu
      rw [ha, State.emitted_phase]
      decide
    · rw [raised_unchanged (by simp) hu]
      exact BitVec.le_refl _
  · rw [ha]
    exact idle_code_le _

theorem phase_le_exec (hc : i ≠ .clear) (hn : exec i s = .next t) : s.phase.code ≤ t.phase.code := by
  by_cases hi : ∃ w, encode i = .command w
  · obtain ⟨w, hi⟩ := hi
    obtain ⟨u, hu, ht⟩ := exec_command_next hi hn
    have hp : t.phase = u.phase := by rcases ht with rfl | ⟨e, rfl⟩ <;> simp
    rw [hp]
    rcases hu with rfl | ⟨ha, hu⟩
    · exact BitVec.le_refl _
    · exact phase_le_semantics hc ha hu
  · rw [(elementWrites_exec hc hn).phase.resolve_right (by
      rintro (rfl | rfl | rfl | rfl) <;> exact hi ⟨_, rfl⟩)]
    exact BitVec.le_refl _

/-- Past IDLE no instruction but CLEAR changes the input (R20, R64). -/
theorem input_frozen_exec (hc : i ≠ .clear) (hp : s.phase ≠ .idle) (hn : exec i s = .next t) :
    t.inbuf = s.inbuf ∧ t.inLen = s.inLen := by
  rcases (elementWrites_exec hc hn).input with h | ⟨v, rfl⟩
  · exact h
  · rcases execWrDataIn_next hn with ⟨-, rfl⟩ | rfl | ⟨e, rfl⟩ | ⟨hidle, -⟩
    · exact ⟨rfl, rfl⟩
    · exact ⟨rfl, rfl⟩
    · simp
    · exact absurd hidle hp

theorem inputBytes_congr (hb : t.inbuf = s.inbuf) (hl : t.inLen = s.inLen) : t.inputBytes = s.inputBytes := by
  rw [State.inputBytes, State.inputBytes, hb, hl]

/-! ### The records BUILD leaves -/

/-- A participating symbol stands in the list of all of them after the smaller ones (R27, R118). -/
theorem participants_split {freq : Table Word} {k : Nat} (hk : k < 256) (h : Table.get 0 freq k ≠ 0) :
    ∃ rest, participants freq = (List.range k).filter (fun i => Table.get 0 freq i != 0) ++ k :: rest := by
  obtain ⟨m, hm⟩ : ∃ m, 256 = k + (m + 1) := ⟨255 - k, by omega⟩
  have e : participants freq = (List.range (k + (m + 1))).filter fun i => Table.get 0 freq i != 0 := by
    rw [← hm, participants]
  rw [List.range_add, List.filter_append, List.range_succ_eq_map, List.map_cons, Nat.add_zero,
    List.filter_cons_of_pos (by simpa using h)] at e
  exact ⟨_, e⟩

/-- NSYM after a build is the number of leaves (R28). -/
theorem toNat_nsym_merged (s : State) :
    s.merged.rooted.nsym.toNat = (participants (countBytes s.inputBytes)).length := by
  have hl := length_participants_le (countBytes s.inputBytes)
  rw [rooted_merged_eq]
  exact (BitVec.toNat_ofNat _ _).trans (Nat.mod_eq_of_lt (by omega))

theorem freqAt_built (s : State) (k : Nat) :
    s.merged.rooted.finish.freqAt k = Table.get 0 (countBytes s.inputBytes) k := by
  rw [State.finish_freqAt, rooted_merged_eq]
  rfl

theorem nodeAt_built (s : State) (n : NodeId) : s.merged.rooted.finish.nodeAt n = s.merged.nodeAt n := by
  rw [State.finish_nodeAt, State.nodeAt, State.rooted_arena, State.nodeAt]

/-- The leaf of a symbol stands after the leaves of the smaller symbols (R29, R118). -/
theorem leaf_built (s : State) {sym : Byte} {n : NodeId} (h : Table.get 0 (countBytes s.inputBytes) sym.toNat ≠ 0)
    (hn : n.toNat =
      ((List.range sym.toNat).filter fun i => Table.get 0 (countBytes s.inputBytes) i != 0).length) :
    s.merged.nodeAt n = Node.ofLeaf sym (Table.get 0 (countBytes s.inputBytes) sym.toNat) := by
  obtain ⟨rest, hsplit⟩ := participants_split sym.isLt h
  have hlt : n.toNat < (participants (countBytes s.inputBytes)).length := by
    rw [hsplit, List.length_append, List.length_cons]
    omega
  have hget : (participants (countBytes s.inputBytes))[n.toNat] = sym.toNat := by simp [hsplit, hn]
  rw [(merged_records s).1 n.toNat hlt n rfl, hget, BitVec.ofNat_toNat, BitVec.setWidth_eq]

/-! ### The tree BUILD leaves -/

/-- With a single leaf no tree has an internal node. -/
theorem leaf_of_one_symbol {arena : Table Node} {n : NodeId} {c : CodeTree} (h : TreeAt arena n c)
    (hc : c.symbols.length = 1) : (Table.get Node.blank arena n.toNat).leaf = true := by
  cases h with
  | leaf _ hleaf => exact hleaf
  | pair _ l r =>
    have hl := l.length_symbols_pos
    have hr := r.length_symbols_pos
    rw [CodeTree.symbols, List.length_append] at hc
    omega

theorem builtOk_finish {c : CodeTree} (h : s.BuiltOk c) : s.finish.BuiltOk c := h.congr

theorem inputBytes_built (s : State) : s.merged.rooted.finish.inputBytes = s.inputBytes := by
  rw [State.finish_inputBytes, rooted_merged_eq]
  exact inputBytes_congr rfl rfl

/-- The root's frequency is the length of the input (R123). -/
theorem root_freq_built (h : s.inLen ≠ 0) :
    (s.merged.rooted.finish.nodeAt s.merged.rooted.finish.root).freq = s.inLen := by
  obtain ⟨-, -, -, -, -, hfreq⟩ := merged_tree s h
  rw [nodeAt_built, State.finish_root, State.rooted_root]
  exact hfreq

/-- What a BUILD that completes leaves of its input, its tree and its root (R40, R120 to R123). -/
theorem exec_build_next (hp : s.phase = .idle) (hl : s.inLen ≠ 0) (hn : exec .build s = .next t) :
    (∃ c, t.BuiltOk c) ∧ (t.nodeAt t.root).freq = s.inLen ∧ t.inputBytes = s.inputBytes := by
  rw [← Host.Outcome.next.inj ((exec_build hp hl).symm.trans hn)]
  obtain ⟨c, hc⟩ := builtOk_rooted hl
  exact ⟨⟨c, builtOk_finish hc⟩, root_freq_built hl, inputBytes_built s⟩

/-! ### The codes GENCODES leaves -/

/-- BITCNT as the sum over the input (R129). -/
theorem length_payload_eq_sum (s : State) :
    s.payload.length = (s.inputBytes.map fun b => (s.codeLenAt b.toNat).toNat).sum := length_flatMap_codes s _

/-- BITCNT as the sum over the symbols (R129). -/
theorem length_payload_eq_freq_sum (hf : ∀ sym : Byte, (s.freqAt sym.toNat).toNat = s.inputBytes.count sym) :
    s.payload.length = ((List.range 256).map fun sym => (s.freqAt sym).toNat * (s.codeLenAt sym).toNat).sum := by
  rw [length_payload_eq_sum, ← sum_over_symbols s.inputBytes fun i => (s.codeLenAt i).toNat]
  refine congrArg List.sum (List.map_congr_left fun i hi => ?_)
  have hcount := hf (BitVec.ofNat 8 i)
  rw [BitVec.toNat_ofNat, Nat.mod_eq_of_lt (List.mem_range.mp hi)] at hcount
  rw [hcount]

theorem length_payload_lt (s : State) : s.payload.length < 2 ^ 40 := by
  have hle := length_payload_le (s := s)
  have hlt := s.inLen.isLt
  omega

/-- A word that must have every unused field 0 is alone with its opcode (R78). -/
theorem onlyWord_of_unused (hw : w = commandWord 0 0 (opcOf w))
    (hd : ∀ v, opcOf v = opcOf w → decodeCommand v = whenUnused (rsvOf v == 0 && idxOf v == 0 && symOf v == 0) i) :
    OnlyWord w := by
  intro v hopc hne
  rw [hd v hopc]
  cases hu : rsvOf v == 0 && idxOf v == 0 && symOf v == 0 with
  | false => rfl
  | true =>
    simp only [Bool.and_eq_true, beq_iff_eq] at hu
    obtain ⟨⟨hrsv, hidx⟩, hsym⟩ := hu
    exact absurd (by rw [eq_commandWord hrsv, hidx, hsym, hopc, ← hw]) hne

theorem onlyWord_gencodes : OnlyWord 0x00000003 :=
  onlyWord_of_unused (i := .gencodes) (by decide) fun v hv => by
    simp only [decodeCommand, hv]
    rfl

/-! ### The words of STATUS and ERROR -/

/-- The fields of STATUS (R69). -/
theorem statusWord_fields (s : State) :
    s.statusWord.getLsbD 0 = s.busy ∧ s.statusWord.getLsbD 1 = s.err ∧ s.statusWord.getLsbD 2 = s.overrun ∧
      s.statusWord.getLsbD 3 = s.outValid ∧ s.statusWord.extractLsb' 4 2 = s.phase.code ∧
      s.statusWord.extractLsb' 6 26 = 0 := by
  rw [State.statusWord]
  generalize s.phase = phase, s.outValid = outValid, s.overrun = overrun, s.err = err, s.busy = busy
  cases phase <;> revert outValid overrun err busy <;> decide

/-- The fields of ERROR (R70). -/
theorem errorWord_fields (s : State) :
    s.errorWord.extractLsb' 0 4 = s.errCode ∧ s.errorWord.extractLsb' 4 4 = 0 ∧ s.errorWord.getLsbD 8 = s.errSrc ∧
      s.errorWord.extractLsb' 9 23 = 0 := by
  rw [State.errorWord]
  generalize s.errCode = code, s.errSrc = src
  revert code src
  decide

theorem err_eq_decide (s : State) : s.err = decide (s.errCode ≠ 0) := by
  rw [State.err, bne, beq_eq_decide, decide_not]

theorem outValid_eq_decide (s : State) : s.outValid = decide (s.outRd.toNat < s.outLen.toNat) := rfl

end Sys2Proof.Proofs.StateElements

namespace Sys2Proof.Proofs

open Sys2Proof.Machine StateElements

/-- Settles O59: whatever a step runs, it runs on `s` with another agenda, and the instruction, the rejection of an
invalid word and the reset each keep the invariant. -/
theorem everyStepKeepsTheInvariant : Obligations.EveryStepKeepsTheInvariant := by
  intro s t h hstep
  obtain ⟨rest, ⟨i, hn⟩ | ⟨w, rfl⟩ | rfl⟩ := exec_of_step hstep
  · exact inv_exec (s := { s with agenda := rest }) h.congr hn
  · exact inv_raise_finish (s := { s with agenda := rest }) h.congr .badCommand w rfl
  · exact inv_cleared (s := { s with agenda := rest }) h.congr

/-- Settles O20: a sound queue stays sound, and the order of the keys is part of a sound queue. -/
theorem heapOrderHoldsAfterEveryStep : Obligations.HeapOrderHoldsAfterEveryStep := by
  intro s t h hstep
  have hq : t.QueueOk := by
    obtain ⟨rest, ⟨i, hn⟩ | ⟨w, rfl⟩ | rfl⟩ := exec_of_step hstep
    · exact queueOk_exec (s := { s with agenda := rest }) h.congr hn
    · exact queueOk_raise_finish (s := { s with agenda := rest }) h.congr .badCommand w false
    · exact queueOk_of_empty rfl (by simp)
  exact ⟨hq, hq.ordered⟩

/-- Settles O27: by the records of the leaves and of the merges. -/
theorem buildWritesLeavesThenMerges : Obligations.BuildWritesLeavesThenMerges := by
  intro s t hp hl hn
  cases (exec_build hp hl).symm.trans hn
  refine ⟨fun sym n hfreq hpos => ?_, fun n hlow hhigh => ?_⟩
  · simp only [freqAt_built] at hfreq hpos ⊢
    rw [nodeAt_built, leaf_built s hfreq hpos]
    rfl
  · rw [State.finish_nsym, toNat_nsym_merged] at hlow
    rw [State.finish_nodeCount, State.rooted_nodeCount] at hhigh
    obtain ⟨a, b, ha, hb, hrec⟩ := (merged_records s).2 n hlow hhigh
    refine ⟨a, b, ha, hb, ?_⟩
    simp only [nodeAt_built]
    exact hrec

/-- Settles O30: by the tree of the state BUILD leaves, its counts, and the weight of its root. -/
theorem buildMakesOneTreeOfTheSymbols : Obligations.BuildMakesOneTreeOfTheSymbols := by
  intro s t hp hl hn
  obtain ⟨⟨c, hc⟩, hfreq, hinput⟩ := exec_build_next hp hl hn
  have hnsym := nsym_le hc
  have hcount := hc.nodeCount
  have hroot := hc.root
  refine ⟨hc.queue, hroot, hcount, by omega, hfreq, fun hone => ?_, c, hc.tree, hc.symbols, fun sym => ?_⟩
  · have hone' : t.nsym.toNat = 1 := congrArg BitVec.toNat hone
    refine ⟨BitVec.eq_of_toNat_eq (show t.root.toNat = 0 by omega), ?_⟩
    exact leaf_of_one_symbol hc.tree ((length_symbols hc).trans hone')
  · rw [hc.participating, hinput]

/-- Settles O32: the walk gives the codes of the tree, and the tables hold them. -/
theorem gencodesRecordsTheLeafPaths : Obligations.GencodesRecordsTheLeafPaths := by
  refine ⟨rfl, onlyWord_gencodes, fun s hp => endsInSequence rfl (by simpa [allowedIn] using hp),
    fun s c hp hc => ⟨(s.withCodes c.codes).finish, ?_, rfl, ?_⟩⟩
  · exact exec_done (w := 0x00000003) _ rfl (by simp [allowedIn, hp]) (performGencodes_done hc.tree)
  · have hkeys : (c.codes.map Prod.fst).Nodup := by
      rw [c.map_fst_codes]
      exact hc.symbols
    have hcodes : (s.withCodes c.codes).CodesOk c := codesOk_withCodes hc.symbols hc.freq
    have hbits : (s.withCodes c.codes).bitcnt.toNat = (s.withCodes c.codes).payload.length := hcodes.bitcnt
    refine ⟨hcodes.codes, fun sym hsym => ?_, codeBits_above (s := s) hkeys fun x hx => CodeTree.code_length_le hc.symbols hx,
      hbits.trans (length_payload_eq_sum _), hbits.trans (length_payload_eq_freq_sum hc.freq),
      hbits ▸ length_payload_lt _⟩
    exact codeLenAt_withCodes_not_mem (s := s) hkeys (by rwa [c.map_fst_codes])

/-- Settles O57: each clause is a clause of the writers of every element. -/
theorem eachElementHasItsWriters : Obligations.EachElementHasItsWriters := by
  intro i s t hn hc
  have h := elementWrites_exec hc hn
  exact ⟨h.arg, h.results, h.phase, h.pending, h.overrun, h.error, h.input, h.counts, h.queue, h.codes, h.output,
    h.outRd, h.params, h.agenda⟩

/-- Settles O44: no instruction but CLEAR writes a record that holds an error, and `raise` keeps it. -/
theorem firstErrorStaysUntilClearOrReset : Obligations.FirstErrorStaysUntilClearOrReset := by
  refine ⟨fun e w src s => ⟨fun h => raise_of_no_error h e w src, fun h => raise_of_error h e w src⟩, by decide,
    fun s t herr hstep => ?_⟩
  obtain hreset | ⟨rest, ⟨i, hc, hn⟩ | ⟨w, rfl⟩⟩ := reset_or_exec_of_step hstep
  · exact .inr hreset
  · exact .inl ((elementWrites_exec hc hn).error.resolve_right fun h => herr h.1)
  · rw [raise_of_error (s := { s with agenda := rest }) herr]
    exact .inl ⟨rfl, rfl, rfl⟩

/-- Settles O58: by the phases that allow a command, and by DATA_IN being the only writer of the input. -/
theorem phaseMovesForwardAndInputFreezes : Obligations.PhaseMovesForwardAndInputFreezes := by
  intro s t hstep
  obtain hreset | ⟨rest, ⟨i, hc, hn⟩ | ⟨w, rfl⟩⟩ := reset_or_exec_of_step hstep
  · exact .inl hreset
  · refine .inr ⟨phase_le_exec (s := { s with agenda := rest }) hc hn, fun hp => ?_⟩
    obtain ⟨hbuf, hlen⟩ := input_frozen_exec (s := { s with agenda := rest }) hc hp hn
    exact ⟨hlen, inputBytes_congr hbuf hlen⟩
  · refine .inr ⟨?_, fun _ => ⟨by simp, inputBytes_congr (by simp) (by simp)⟩⟩
    rw [State.finish_phase, State.raise_phase]
    exact BitVec.le_refl _

/-- Settles O1: every element of the reset state is its reset value by definition. -/
theorem resetGivesTheInitialState : Obligations.ResetGivesTheInitialState :=
  ⟨fun _ => ⟨rfl, rfl, rfl, rfl, rfl, rfl, rfl, rfl, rfl, rfl, rfl, rfl, rfl, rfl, fun _ => rfl, rfl, rfl, rfl, rfl,
    fun _ => ⟨rfl, rfl⟩, rfl, rfl, rfl⟩, Config.params, by decide, rfl⟩

/-- Settles O3: legal parameters are all the invariant needs of a reset state. -/
theorem resetStateMeetsTheInvariant : Obligations.ResetStateMeetsTheInvariant :=
  ⟨fun _ hp => inv_resetWith hp, inv_resetWith (by decide)⟩

/-- Settles O56: by the fields of the two words and what the flags are computed from. -/
theorem statusAndErrorHaveTheirLayout : Obligations.StatusAndErrorHaveTheirLayout := by
  intro s
  obtain ⟨hbusy, herr, hover, hvalid, hphase, hzero⟩ := statusWord_fields s
  refine ⟨⟨hbusy, herr.trans (err_eq_decide s), hover, hvalid.trans (outValid_eq_decide s), ?_, hzero⟩, errorWord_fields s⟩
  rw [hphase]
  cases s.phase <;> rfl

end Sys2Proof.Proofs
end

section
/-! SUPPORT. Proofs of the statements of spec/20_memory.md: which accesses the window refuses (R51) and what the others
read (R52), where a step stops (R51, R60), and the order of the bytes and bits of the stream (R56, R57). -/

namespace Sys2Proof.Proofs.Window

open Sys2Proof Sys2Proof.Machine Scope

variable {s : State} {a : Access} {i : Instr}

/-! ### What is fetched -/

/-- An access inside the window that is not 32 bits wide or not aligned has no meaning (R48, R51). -/
theorem accessCode_unsupported {p : Params} (hlow : p.regBase ≤ a.addr) (hhigh : a.addr < p.regBase + Config.window)
    (h : a.bytes ≠ 4 ∨ (a.addr - p.regBase) % 4 ≠ 0) : accessCode p a = .error .unsupportedAccess := by
  rw [accessCode, if_neg (by omega), if_pos h]

/-- The window has a meaning for an access, or refuses it for one of the two reasons of R47 and R51. -/
theorem accessCode_cases (p : Params) (a : Access) : (∃ c, accessCode p a = .ok c) ∨
    accessCode p a = .error .unsupportedAccess ∨ accessCode p a = .error .outsideWindow := by
  by_cases hout : a.addr < p.regBase ∨ p.regBase + Config.window ≤ a.addr
  · exact .inr (.inr (accessCode_outside hout))
  · by_cases hbad : a.bytes ≠ 4 ∨ (a.addr - p.regBase) % 4 ≠ 0
    · exact .inr (.inl (accessCode_unsupported (by omega) (by omega) hbad))
    · rw [accessCode, if_neg hout, if_neg hbad]
      cases a.kind <;> exact .inl ⟨_, rfl⟩

/-- An access runs an instruction or is refused by name. -/
theorem fetchAccess_cases (a : Access) (s : State) : (∃ i, fetchAccess a s = .run i s) ∨
    fetchAccess a s = .refused .unsupportedAccess ∨ fetchAccess a s = .refused .outsideWindow := by
  obtain ⟨c, hc⟩ | hc | hc := accessCode_cases s.params a
  · cases hd : decode c with
    | ok i => exact .inl ⟨i, fetchAccess_run hc hd⟩
    | error e => exact .inr (.inl (by simp only [fetchAccess, hc, hd]))
  · exact .inr (.inl (fetchAccess_refused hc))
  · exact .inr (.inr (fetchAccess_refused hc))

/-- A pending command runs its instruction, or its word is invalid (R79, R99). -/
theorem fetchCommand_cases {w : Word} (hp : s.pending = some w) :
    (∃ i, fetchCommand s = .run i s) ∨ fetchCommand s = .invalid w s := by
  cases hd : decodeCommand w with
  | ok i => exact .inl ⟨i, fetchCommand_run hp hd⟩
  | error e => exact .inr (by simp only [fetchCommand, hp, hd])

theorem exists_pending_of_engineNext (h : s.engineNext = true) : ∃ w, s.pending = some w := by
  rw [State.engineNext, Bool.and_eq_true] at h
  exact Option.isSome_iff_exists.mp h.1

theorem pending_eq_none_of_not_engineNext (h : s.engineNext = false) (ha : s.agenda = []) : s.pending = none := by
  cases hp : s.pending with
  | none => rfl
  | some w => exact absurd (h.symm.trans (engineNext_eq_true hp (.inl ha))) (by decide)

/-- Everything the fetch can answer: the engine's turn, the end of the run, and the host's turn with a reset or an
access (R13, R60). -/
theorem fetch_cases (s : State) :
    (s.engineNext = true ∧ ∃ w, s.pending = some w ∧ ((∃ i, s.fetch = .run i s) ∨ s.fetch = .invalid w s)) ∨
    (s.engineNext = false ∧ s.agenda = [] ∧ s.pending = none ∧ s.fetch = .over) ∨
    (s.engineNext = false ∧ ∃ p rest, s.agenda = p :: rest ∧ (s.fetch = .reset { s with agenda := rest } ∨
      (∃ i, s.fetch = .run i { s with agenda := rest }) ∨ s.fetch = .refused .unsupportedAccess ∨
      s.fetch = .refused .outsideWindow)) := by
  cases he : s.engineNext with
  | true =>
    obtain ⟨w, hp⟩ := exists_pending_of_engineNext he
    rw [fetch_of_command he]
    exact .inl ⟨rfl, w, hp, fetchCommand_cases hp⟩
  | false =>
    cases ha : s.agenda with
    | nil =>
      refine .inr (.inl ⟨rfl, rfl, pending_eq_none_of_not_engineNext he ha, ?_⟩)
      simp [State.fetch, he, ha]
    | cons p rest =>
      refine .inr (.inr ⟨rfl, p, rest, rfl, ?_⟩)
      cases hv : p.event with
      | reset => exact .inl (by simp [State.fetch, he, ha, hv])
      | access a =>
        have hf : s.fetch = fetchAccess a { s with agenda := rest } := by simp [State.fetch, he, ha, hv]
        rw [hf]
        exact .inr (fetchAccess_cases a _)

/-! ### Where a step stops -/

theorem safeStop_of_completes {o : Host.Outcome State Fault Refusal} (h : Completes o) : SafeStop o := by
  obtain ⟨t, rfl⟩ := h
  trivial

/-- Every instruction completes where the invariant holds. -/
theorem completes_exec (h : s.Inv) : Completes (exec i s) := by
  by_cases hi : ∃ w, encode i = .command w
  · exact completes_command hi.choose_spec h
  · exact completes_access (not_exists.mp hi)

/-- The completion of a command is never the end of the run: its one fault is the walk that does not end. -/
theorem runCommand_ne_runOver (i : Instr) (f : State → Performed) (s : State) :
    runCommand i f s ≠ .fault .runOver := by
  cases ha : allowedIn i s.phase with
  | false => simp [runCommand_sequence ha]
  | true =>
    cases hf : f s with
    | done u => simp [runCommand_done ha hf]
    | raised e u => simp [runCommand_raised ha hf]
    | endless => simp [runCommand, ha, hf, completion]

theorem exec_ne_runOver (i : Instr) (s : State) : exec i s ≠ .fault .runOver := by
  by_cases hi : ∃ w, encode i = .command w
  · obtain ⟨w, hw⟩ := hi
    rw [exec_command hw]
    exact runCommand_ne_runOver i (semantics i) s
  · obtain ⟨t, ht⟩ := completes_access (s := s) (not_exists.mp hi)
    simp [ht]

/-- The engine's step completes its command where the invariant holds (R101, R181). -/
theorem completes_engine (h : s.Inv) (he : s.engineNext = true) : Completes (step s) := by
  obtain ⟨-, w, -, ⟨i, hf⟩ | hf⟩ | ⟨hn, -⟩ | ⟨hn, -⟩ := fetch_cases s
  · rw [step_of_run hf]
    exact completes_exec h
  · rw [step, hf]
    exact ⟨_, rfl⟩
  · exact absurd (he.symm.trans hn) (by decide)
  · exact absurd (he.symm.trans hn) (by decide)

/-- Where the invariant holds, a step goes on, ends the run, or refuses an access (R51, R184). -/
theorem safeStop_step (h : s.Inv) : SafeStop (step s) := by
  obtain ⟨he, -⟩ | ⟨-, -, -, hf⟩ | ⟨-, p, rest, -, hf | ⟨i, hf⟩ | hf | hf⟩ := fetch_cases s
  · exact safeStop_of_completes (completes_engine h he)
  · rw [step, hf]
    rfl
  · rw [step, hf]
    trivial
  · rw [step_of_run hf]
    exact safeStop_of_completes (completes_exec h.congr)
  · rw [step_of_refused hf]
    exact .inl rfl
  · rw [step_of_refused hf]
    exact .inr rfl

/-- The run is over exactly when nothing is to come and nothing is pending (R184). -/
theorem step_eq_runOver_iff (s : State) : step s = .fault .runOver ↔ s.agenda = [] ∧ s.pending = none := by
  obtain ⟨-, w, hp, ⟨i, hf⟩ | hf⟩ | ⟨-, ha, hp, hf⟩ | ⟨-, p, rest, ha, hf | ⟨i, hf⟩ | hf | hf⟩ := fetch_cases s
  · simp [step_of_run hf, exec_ne_runOver, hp]
  · simp [step, hf, completeInvalid, completion, hp]
  · simp [step, hf, ha, hp]
  · simp [step, hf, ha]
  · simp [step_of_run hf, exec_ne_runOver, ha]
  · simp [step_of_refused hf, ha]
  · simp [step_of_refused hf, ha]

/-! ### The bytes of the stream -/

/-- A byte of the output is the byte of OUTBUF at its index (R26). -/
theorem outbuf_read_of_outputBytes {k : Nat} {b : Byte} (h : s.outputBytes[k]? = some b) : s.outbuf.read k = b := by
  obtain ⟨hk, hb⟩ := List.getElem?_eq_some_iff.mp h
  rw [← hb]
  simp [State.outputBytes, Memory.take]

theorem getElem?_le64 (x : BitVec 64) {k : Nat} (hk : k < 8) : (le64 x)[k]? = some (x.extractLsb' (8 * k) 8) := by
  simp [le64, hk]

theorem getElem?_pack (bits : List Bool) {j : Nat} (hj : j < bytesFor bits.length) :
    (pack bits)[j]? = some (packByte bits j) := by
  simp [pack, hj]

/-- TREE_LEN is the length of the tree part (R134). -/
theorem length_treePart {c : CodeTree} (hb : s.BuiltOk c) (ho : s.OutputOk c) : c.bytes.length = s.treeLen.toNat := by
  have hlen := c.length_bytes
  rw [length_symbols hb, ← ho.treeLen] at hlen
  exact Nat.add_right_cancel hlen

/-- Byte k of the bit count stands at TREE_LEN + k (R56, R132). -/
theorem outbuf_read_count {c : CodeTree} (hb : s.BuiltOk c) (ho : s.OutputOk c) {k : Nat} (hk : k < 8) :
    s.outbuf.read (s.treeLen.toNat + k) = s.bitcnt.extractLsb' (8 * k) 8 := by
  apply outbuf_read_of_outputBytes
  rw [ho.stream, List.append_assoc, ← length_treePart hb ho, List.getElem?_append_right (by omega),
    Nat.add_sub_cancel_left, List.getElem?_append_left (by simpa using hk), getElem?_le64 _ hk]

/-- Byte j of the packed codes stands at TREE_LEN + 8 + j (R57, R132). -/
theorem outbuf_read_payload {c : CodeTree} (hb : s.BuiltOk c) (ho : s.OutputOk c) {j : Nat}
    (hj : j < bytesFor s.payload.length) : s.outbuf.read (s.treeLen.toNat + 8 + j) = packByte s.payload j := by
  have hhead : s.treeLen.toNat + 8 = (c.bytes ++ le64 s.bitcnt).length := by simp [length_treePart hb ho]
  apply outbuf_read_of_outputBytes
  rw [ho.stream, hhead, List.getElem?_append_right (by omega), Nat.add_sub_cancel_left, getElem?_pack _ hj]

end Sys2Proof.Proofs.Window

namespace Sys2Proof.Proofs

open Sys2Proof.Machine Scope Window

/-- Settles O7: by what the fetch can answer, and by every instruction completing where the invariant holds. -/
theorem onlyTheDeclaredStopsOccur : Obligations.OnlyTheDeclaredStopsOccur :=
  ⟨fun _ h => ⟨safeStop_step h, completes_engine h⟩, step_eq_runOver_iff⟩

/-- Settles O36: the stream stands in OUTBUF, its count after the tree and its packed codes after the count. -/
theorem streamByteAndBitOrder : Obligations.StreamByteAndBitOrder := by
  intro s h hp
  obtain ⟨c, hb, hc, ho⟩ := h.done_of_phase hp
  refine ⟨fun k hk => outbuf_read_count hb ho hk, fun j i hj hi => ?_⟩
  rw [hc.bitcnt] at hj
  rw [outbuf_read_payload hb ho hj, getLsbD_packByte _ _ _ hi]
  rfl

/-- Settles O6: the access is fetched, and the window has no meaning for it. -/
theorem unsupportedAccessIsRefused : Obligations.UnsupportedAccessIsRefused := by
  intro s a first rest ha hb hlow hhigh hbad
  exact step_of_refused ((fetch_of_access ha hb).trans (fetchAccess_refused (accessCode_unsupported hlow hhigh hbad)))

/-- Settles O54: by the decoder on each register offset and on the reserved ones; the three reads are guarded reads
of 0. -/
theorem readsDispatchOnTheOffset : Obligations.ReadsDispatchOnTheOffset :=
  ⟨by decide, fun off ha hr => Laws.Encodable.rdReserved off ⟨ha, hr⟩, fun _ hp =>
    ⟨readGives_guarded rfl hp rfl, readGives_guarded rfl hp rfl, fun _ => readGives_guarded rfl hp rfl⟩⟩

end Sys2Proof.Proofs
end

section
/-! SUPPORT. Proofs of the statements of spec/30_encoding.md: the decoder and the encoder (R75 to R81, R89), the reports
in RESULT0 to RESULT2 (R82 to R85) and the content of the registers (R72, R73). -/

namespace Sys2Proof.Proofs.Encoding

open Sys2Proof Sys2Proof.Machine

variable {w : Word} {i : Instr}

/-! ### Decoding an encoded instruction -/

/-- The lemmas on the constructors, put together. -/
theorem encodable : ∀ i : Instr, Laws.Encodable.Statement i
  | .nop => Laws.Encodable.nop
  | .clear => Laws.Encodable.clear
  | .build => Laws.Encodable.build
  | .gencodes => Laws.Encodable.gencodes
  | .emit => Laws.Encodable.emit
  | .compress => Laws.Encodable.compress
  | .pqReset => Laws.Encodable.pqReset
  | .pqPush sym => Laws.Encodable.pqPush sym
  | .pqPop => Laws.Encodable.pqPop
  | .readHeap slot => Laws.Encodable.readHeap slot
  | .readFreq sym => Laws.Encodable.readFreq sym
  | .readCode sym k => Laws.Encodable.readCode sym k
  | .readNode id => Laws.Encodable.readNode id
  | .wrCmd v => Laws.Encodable.wrCmd v
  | .wrArg v => Laws.Encodable.wrArg v
  | .wrDataIn v => Laws.Encodable.wrDataIn v
  | .wrOther off v => Laws.Encodable.wrOther off v
  | .rdId => Laws.Encodable.rdId
  | .rdStatus => Laws.Encodable.rdStatus
  | .rdInCap => Laws.Encodable.rdInCap
  | .rdOutCap => Laws.Encodable.rdOutCap
  | .rdDataOut => Laws.Encodable.rdDataOut
  | .rdError => Laws.Encodable.rdError
  | .rdErrWord => Laws.Encodable.rdErrWord
  | .rdArg => Laws.Encodable.rdArg
  | .rdInLen => Laws.Encodable.rdInLen
  | .rdOutLen => Laws.Encodable.rdOutLen
  | .rdOutAvail => Laws.Encodable.rdOutAvail
  | .rdNsym => Laws.Encodable.rdNsym
  | .rdRoot => Laws.Encodable.rdRoot
  | .rdNodeCount => Laws.Encodable.rdNodeCount
  | .rdPqSize => Laws.Encodable.rdPqSize
  | .rdBitcntLo => Laws.Encodable.rdBitcntLo
  | .rdBitcntHi => Laws.Encodable.rdBitcntHi
  | .rdTreeLen => Laws.Encodable.rdTreeLen
  | .rdResult0 => Laws.Encodable.rdResult0
  | .rdResult1 => Laws.Encodable.rdResult1
  | .rdResult2 => Laws.Encodable.rdResult2
  | .rdCmd => Laws.Encodable.rdCmd
  | .rdDataIn => Laws.Encodable.rdDataIn
  | .rdReserved off => Laws.Encodable.rdReserved off

/-! ### Encoding a decoded instruction -/

/-- A command word from its fields, the opcode given as the decoder compares it (R75, R77). -/
theorem command_eq_of_fields {b : BitVec 9} {a opc : Byte} (hrsv : rsvOf w = 0) (hidx : idxOf w = b)
    (hsym : symOf w = a) (hopc : (opcOf w).toNat = opc.toNat) : Code.command (commandWord b a opc) = .command w := by
  rw [← hidx, ← hsym, ← BitVec.eq_of_toNat_eq hopc, ← eq_commandWord hrsv]

/-- B is its low 3 bits when the other 6 are 0 (R76). -/
theorem idxOf_eq_setWidth_wordIdxOf (h : idxHighOf w = 0) : idxOf w = (wordIdxOf w).setWidth 9 := by
  rw [idxHighOf_eq] at h
  rw [wordIdxOf_eq]
  generalize idxOf w = b at h ⊢
  revert b
  decide

/-- A command word that decodes is the word of its instruction (R77, R78). -/
theorem encode_of_decodeCommand (h : decodeCommand w = .ok i) : i.WellFormed ∧ encode i = .command w := by
  simp only [decodeCommand] at h
  split at h
  case h_14 => cases h
  all_goals
    rename_i hopc
    obtain ⟨hunused, rfl⟩ := whenUnused_eq_ok h
    simp only [Bool.and_eq_true, beq_iff_eq] at hunused
    refine ⟨trivial, command_eq_of_fields ?_ ?_ ?_ hopc⟩
  all_goals simp [hunused, idxOf_eq_setWidth_wordIdxOf]

/-- A read that decodes stands at the offset of its instruction (R67, R90). -/
theorem encode_of_decodeRead {off : Offset} (h : decodeRead off = .ok i) : i.WellFormed ∧ encode i = .read off := by
  simp only [decodeRead] at h
  split at h
  case h_24 =>
    split at h
    next hreserved =>
      cases h
      exact ⟨hreserved, rfl⟩
    next => cases h
  all_goals
    rename_i hoff
    cases h
    exact ⟨trivial, congrArg Code.read (BitVec.eq_of_toNat_eq hoff.symm)⟩

/-- A write that decodes stands at the offset of its instruction (R91). -/
theorem encode_of_decodeWrite {off : Offset} {v : Word} (h : decodeWrite off v = .ok i) :
    i.WellFormed ∧ encode i = .write off v := by
  simp only [decodeWrite] at h
  split at h
  case h_4 hcmd harg hdata =>
    split at h
    next haligned =>
      cases h
      refine ⟨⟨haligned, ?_⟩, rfl⟩
      rintro (rfl | rfl | rfl)
      · exact hcmd rfl
      · exact harg rfl
      · exact hdata rfl
    next => cases h
  all_goals
    rename_i hoff
    cases h
    exact ⟨trivial, congrArg (Code.write · v) (BitVec.eq_of_toNat_eq hoff.symm)⟩

/-! ### Which command words are valid -/

/-- The conditions of R78 on the fields of a command word. -/
def ValidFields (w : Word) : Prop := rsvOf w = 0 ∧
  ((opcOf w ∈ [0x00#8, 0x01#8, 0x02#8, 0x03#8, 0x04#8, 0x05#8, 0x10#8, 0x12#8] ∧ symOf w = 0 ∧ idxOf w = 0) ∨
    (opcOf w ∈ [0x11#8, 0x20#8] ∧ idxOf w = 0) ∨ (opcOf w ∈ [0x13#8, 0x22#8] ∧ symOf w = 0) ∨
    (opcOf w = 0x21#8 ∧ idxHighOf w = 0))

theorem exists_whenUnused_iff (u : Bool) (i : Instr) : (∃ j, whenUnused u i = .ok j) ↔ u = true := by
  cases u <;> simp [whenUnused]

theorem whenUnused_cases (u : Bool) (i : Instr) :
    (∃ j, whenUnused u i = .ok j) ∨ whenUnused u i = .error .badCommand := by
  cases u with
  | false => exact .inr rfl
  | true => exact .inl ⟨i, rfl⟩

/-- A command word decodes exactly when its fields meet the conditions of R78. -/
theorem exists_decodeCommand_iff (w : Word) : (∃ i, decodeCommand w = .ok i) ↔ ValidFields w := by
  simp only [decodeCommand]
  split
  case h_14 =>
    simp only [ValidFields, List.mem_cons, List.not_mem_nil, ← BitVec.toNat_inj (x := opcOf w)]
    tauto
  all_goals
    rename_i hopc
    simp [exists_whenUnused_iff, ValidFields, ← BitVec.toNat_inj (x := opcOf w), hopc, and_comm,
      and_left_comm, and_assoc]

/-- A command word that does not decode is invalid, never misaligned (R78). -/
theorem decodeCommand_cases (w : Word) : (∃ i, decodeCommand w = .ok i) ∨ decodeCommand w = .error .badCommand := by
  simp only [decodeCommand]
  split
  case h_14 => exact .inr rfl
  all_goals exact whenUnused_cases _ _

theorem decodeCommand_eq_error (h : ¬ ValidFields w) : decodeCommand w = .error .badCommand :=
  (decodeCommand_cases w).resolve_left (mt (exists_decodeCommand_iff w).mp h)

/-! ### The match and mask table -/

/-- The row of an opcode: `mb` and `ma` are the bits of B and A that must be 0 (R78). -/
def rowOf (mb : BitVec 9) (ma opc : Byte) : CommandRow where
  mask := 0x7F#7 ++ mb ++ ma ++ 0xFF#8
  pattern := commandWord 0 0 opc

/-- The table of R78, by the operand fields its opcodes use. -/
theorem mem_commandRows_iff (r : CommandRow) : r ∈ commandRows ↔
    (∃ opc ∈ [0x00#8, 0x01#8, 0x02#8, 0x03#8, 0x04#8, 0x05#8, 0x10#8, 0x12#8], r = rowOf 0x1FF 0xFF opc) ∨
      (∃ opc ∈ [0x11#8, 0x20#8], r = rowOf 0x1FF 0 opc) ∨ (∃ opc ∈ [0x13#8, 0x22#8], r = rowOf 0 0xFF opc) ∨
      r = rowOf 0x1F8 0 0x21 := by
  constructor
  · revert r
    decide
  · rintro (⟨opc, hopc, rfl⟩ | ⟨opc, hopc, rfl⟩ | ⟨opc, hopc, rfl⟩ | rfl)
    case inr.inr.inr => decide
    all_goals
      revert opc
      decide

theorem fits_rowOf (w : Word) (mb : BitVec 9) (ma opc : Byte) : (rowOf mb ma opc).fits w = true ↔
    rsvOf w = 0 ∧ idxOf w &&& mb = 0 ∧ symOf w &&& ma = 0 ∧ opcOf w = opc := by
  have h := fits_fields w 0x7F 0 mb 0 ma 0 0xFF opc
  rwa [show (0x7F : BitVec 7) = BitVec.allOnes 7 from rfl, show (0xFF : Byte) = BitVec.allOnes 8 from rfl,
    BitVec.and_allOnes, BitVec.and_allOnes] at h

/-- The bits of B that READ_CODE does not use (R76, R78). -/
theorem idxOf_and_eq_zero_iff (w : Word) : idxOf w &&& 0x1F8 = 0 ↔ idxHighOf w = 0 := by
  rw [idxHighOf_eq]
  generalize idxOf w = b
  revert b
  decide

theorem exists_rowOf_fits_iff (w : Word) (opcs : List Byte) (mb : BitVec 9) (ma : Byte) :
    (∃ r, (∃ opc ∈ opcs, r = rowOf mb ma opc) ∧ r.fits w = true) ↔
      rsvOf w = 0 ∧ idxOf w &&& mb = 0 ∧ symOf w &&& ma = 0 ∧ opcOf w ∈ opcs := by
  constructor
  · rintro ⟨_, ⟨opc, hopc, rfl⟩, hfit⟩
    obtain ⟨hrsv, hidx, hsym, rfl⟩ := (fits_rowOf w mb ma opc).mp hfit
    exact ⟨hrsv, hidx, hsym, hopc⟩
  · rintro ⟨hrsv, hidx, hsym, hopc⟩
    exact ⟨_, ⟨_, hopc, rfl⟩, (fits_rowOf w mb ma _).mpr ⟨hrsv, hidx, hsym, rfl⟩⟩

/-- A word fits a row exactly when its fields meet the conditions of R78. -/
theorem exists_fits_iff (w : Word) : (∃ r ∈ commandRows, r.fits w = true) ↔ ValidFields w := by
  have hidx : idxOf w &&& 0x1FF = idxOf w := BitVec.and_allOnes
  have hidx0 : idxOf w &&& 0 = 0 := BitVec.and_zero
  have hsym : symOf w &&& 0xFF = symOf w := BitVec.and_allOnes
  have hsym0 : symOf w &&& 0 = 0 := BitVec.and_zero
  simp only [mem_commandRows_iff, or_and_right, exists_or, exists_eq_left, exists_rowOf_fits_iff, fits_rowOf, hidx, hsym,
    hidx0, hsym0, idxOf_and_eq_zero_iff, ValidFields]
  tauto

/-- The opcode of a word that fits a row is the row's opcode: every mask covers the opcode (R78). -/
theorem opcOf_of_fits {r : CommandRow} (hr : r ∈ commandRows) (h : r.fits w = true) : opcOf w = opcOf r.pattern := by
  have hmask : ∀ r ∈ commandRows, opcOf r.mask = BitVec.allOnes 8 := by decide
  rw [CommandRow.fits, beq_iff_eq] at h
  rw [← h, opcOf, opcOf, BitVec.extractLsb'_and, ← opcOf, ← opcOf, hmask r hr, BitVec.and_allOnes]

/-- No two rows of the table have one opcode. -/
theorem row_eq_of_opcOf_eq : ∀ r ∈ commandRows, ∀ r' ∈ commandRows, opcOf r.pattern = opcOf r'.pattern → r = r' := by
  decide

/-! ### Illegal words -/

/-- The words R79 lists. -/
def IllegalFields (w : Word) : Prop :=
  (0x06 ≤ (opcOf w).toNat ∧ (opcOf w).toNat ≤ 0x0F) ∨ (0x14 ≤ (opcOf w).toNat ∧ (opcOf w).toNat ≤ 0x1F) ∨
    0x23 ≤ (opcOf w).toNat ∨ rsvOf w ≠ 0 ∨
    (opcOf w ∈ [0x00#8, 0x01#8, 0x02#8, 0x03#8, 0x04#8, 0x05#8, 0x10#8, 0x12#8] ∧ (symOf w ≠ 0 ∨ idxOf w ≠ 0)) ∨
    (opcOf w ∈ [0x11#8, 0x20#8] ∧ idxOf w ≠ 0) ∨ (opcOf w ∈ [0x13#8, 0x22#8] ∧ symOf w ≠ 0) ∨
    (opcOf w = 0x21#8 ∧ idxHighOf w ≠ 0)

theorem not_validFields_of_illegal (h : IllegalFields w) : ¬ ValidFields w := by
  rintro ⟨hrsv, ⟨hopc, hsym, hidx⟩ | ⟨hopc, hidx⟩ | ⟨hopc, hsym⟩ | ⟨hopc, hhigh⟩⟩
  · simp only [List.mem_cons, List.not_mem_nil, or_false] at hopc
    rcases hopc with hopc | hopc | hopc | hopc | hopc | hopc | hopc | hopc <;>
      simp [IllegalFields, hopc, hrsv, hsym, hidx] at h
  · simp only [List.mem_cons, List.not_mem_nil, or_false] at hopc
    rcases hopc with hopc | hopc <;> simp [IllegalFields, hopc, hrsv, hidx] at h
  · simp only [List.mem_cons, List.not_mem_nil, or_false] at hopc
    rcases hopc with hopc | hopc <;> simp [IllegalFields, hopc, hrsv, hsym] at h
  · simp [IllegalFields, hopc, hrsv, hhigh] at h

theorem decodeCommand_illegal (h : IllegalFields w) : decodeCommand w = .error .badCommand :=
  decodeCommand_eq_error (not_validFields_of_illegal h)

/-- A word whose opcode uses only A, with B or RSV set (R78). -/
theorem decodeCommand_of_symOpcode (hopc : opcOf w ∈ [0x11#8, 0x20#8]) (h : idxOf w ≠ 0 ∨ rsvOf w ≠ 0) :
    decodeCommand w = .error .badCommand := by
  apply decodeCommand_illegal
  rw [IllegalFields]
  tauto

/-- A READ_CODE word with B[8:3] or RSV set (R78). -/
theorem decodeCommand_of_codeOpcode (hopc : opcOf w = 0x21) (h : idxHighOf w ≠ 0 ∨ rsvOf w ≠ 0) :
    decodeCommand w = .error .badCommand := by
  apply decodeCommand_illegal
  rw [IllegalFields]
  tauto

/-- A pending word that does not decode, in the engine's turn, completes as an invalid word (R79, R101). -/
theorem step_of_invalid {s : State} (hp : s.pending = some w) (he : s.engineNext = true)
    (hd : decodeCommand w = .error .badCommand) : step s = completeInvalid w s := by
  rw [step, Scope.fetch_of_command he]
  simp only [fetchCommand, hp, hd]

/-! ### The encoding function -/

/-- The encoding function of R89: the fields stand at bits 16, 8 and 0. -/
theorem commandWord_eq_shifts (b : BitVec 9) (a opc : Byte) :
    commandWord b a opc = (b.setWidth 32 <<< 16) ||| (a.setWidth 32 <<< 8) ||| opc.setWidth 32 := by
  apply BitVec.eq_of_getLsbD_eq
  intro i hi
  rw [getLsbD_commandWord]
  by_cases h8 : i < 8
  · simp [h8, hi, show i < 16 by omega]
  · have hopc : opc.getLsbD i = false := BitVec.getLsbD_of_ge _ _ (by omega)
    by_cases h16 : i < 16
    · simp [h8, h16, hi, hopc]
    · have ha : a.getLsbD (i - 8) = false := BitVec.getLsbD_of_ge _ _ (by omega)
      simp [h8, h16, hi, hopc, ha]

/-! ### The reports -/

/-- The fields of a word put together as R82 puts RESULT0 together. -/
theorem reportFields_append (valid leaf : Bool) (zero : BitVec 4) (sym : Byte) (right left : NodeId) :
    let r : BitVec (1 + 1 + 4 + 8 + 9 + 9) :=
      BitVec.ofBool valid ++ BitVec.ofBool leaf ++ zero ++ sym ++ right ++ left
    r.getLsbD 31 = valid ∧ r.getLsbD 30 = leaf ∧ r.extractLsb' 26 4 = zero ∧ r.extractLsb' 18 8 = sym ∧
      r.extractLsb' 9 9 = right ∧ r.extractLsb' 0 9 = left := by
  refine ⟨?_, ?_, ?_, ?_, ?_, BitVec.extractLsb'_append_eq_right⟩
  · iterate 5 rw [BitVec.getLsbD_append]
    simp
  · iterate 5 rw [BitVec.getLsbD_append]
    simp
  · iterate 3 rw [BitVec.extractLsb'_append_eq_of_le (by decide)]
    exact BitVec.extractLsb'_append_eq_right
  · iterate 2 rw [BitVec.extractLsb'_append_eq_of_le (by decide)]
    exact BitVec.extractLsb'_append_eq_right
  · rw [BitVec.extractLsb'_append_eq_of_le (by decide)]
    exact BitVec.extractLsb'_append_eq_right

/-- The fields of RESULT0 of a node report (R82). -/
theorem reportWord_fields (nd : Node) :
    nd.reportWord.getLsbD 31 = true ∧ nd.reportWord.getLsbD 30 = nd.leaf ∧ nd.reportWord.extractLsb' 26 4 = 0 ∧
      nd.reportWord.extractLsb' 18 8 = nd.sym ∧ nd.reportWord.extractLsb' 9 9 = nd.right ∧
      nd.reportWord.extractLsb' 0 9 = nd.left := reportFields_append true nd.leaf 0 nd.sym nd.right nd.left

/-- The report of an allocated node of a state with sound records (R29, R82). -/
theorem reportWord_of_okAt {nd : Node} {n : NodeId} (h : nd.OkAt n) :
    (nd.leaf = true → nd.right = 0x1FF ∧ nd.left = 0x1FF) ∧ (nd.leaf = false → nd.sym = 0) := by
  obtain ⟨hleaf, hleft, hright⟩ | ⟨hleaf, hsym, -, -⟩ := h
  · exact ⟨fun _ => ⟨hright, hleft⟩, fun hinternal => absurd (hleaf.symm.trans hinternal) (by decide)⟩
  · exact ⟨fun hl => absurd (hleaf.symm.trans hl) (by decide), fun _ => hsym⟩

/-- BITCNT is BITCNT_HI over BITCNT_LO (R73). -/
theorem bitcnt_eq_append (s : State) : s.bitcnt = s.bitcntHi ++ s.bitcntLo := by
  refine Eq.trans ?_ (BitVec.extractLsb'_append_extractLsb'_eq_extractLsb' (Nat.zero_add 32).symm).symm
  exact BitVec.extractLsb'_eq_self.symm

end Sys2Proof.Proofs.Encoding

namespace Sys2Proof.Proofs

open Sys2Proof.Machine Encoding

/-- Settles O8: by the lemma on each constructor. -/
theorem decodingInvertsEncoding : Obligations.DecodingInvertsEncoding := encodable

/-- Settles O9: by the fields of a command word that decodes, and by the offset of an access that decodes. -/
theorem encodingInvertsDecoding : Obligations.EncodingInvertsDecoding := by
  intro c i h
  cases c with
  | command w => exact encode_of_decodeCommand h
  | read off => exact encode_of_decodeRead h
  | write off v => exact encode_of_decodeWrite h

/-- Settles O10: the decoder and the table both ask for the conditions of R78 on the fields, and the opcode decides the
row. -/
theorem validWordsFitOneTableRow : Obligations.ValidWordsFitOneTableRow :=
  ⟨fun w => (exists_decodeCommand_iff w).trans (exists_fits_iff w).symm, exists_decodeCommand_iff,
    fun _ r hr r' hr' h h' => row_eq_of_opcOf_eq r hr r' hr' ((opcOf_of_fits hr h).symm.trans (opcOf_of_fits hr' h'))⟩

/-- Settles O11: a word that fits no row, or that R79 lists, does not meet the conditions of R78. -/
theorem illegalWordsRaiseBadCommand : Obligations.IllegalWordsRaiseBadCommand := by
  refine ⟨fun s w hp ha hrows => ?_, fun w h => decodeCommand_illegal h⟩
  have hfits : ¬ ∃ r ∈ commandRows, r.fits w = true := by
    rintro ⟨r, hr, hfit⟩
    exact absurd ((hrows r hr).symm.trans hfit) (by decide)
  exact step_of_invalid hp (engineNext_eq_true hp ha) (decodeCommand_eq_error (mt (exists_fits_iff w).mpr hfits))

/-- Settles O23: RESULT1 holds the 32 bits of the code that the word index names, and bit 31 the first of them. -/
theorem readCodeReportsLengthAndBits : Obligations.ReadCodeReportsLengthAndBits := by
  intro sym k
  have hcode : encode (.readCode sym k) = .command ((k.setWidth 32 <<< 16) ||| (sym.setWidth 32 <<< 8) ||| 0x21) := by
    rw [encode, commandWord_eq_shifts, BitVec.setWidth_setWidth (by decide)]
    rfl
  refine ⟨hcode, fun _ => decodeCommand_of_codeOpcode, fun s => ⟨codeWord (s.codeOf sym) k.toNat,
    exec_done (s.reportCode sym k) hcode rfl rfl, fun j hj => ?_⟩⟩
  rw [getLsbD_codeWord _ _ _ hj, bitAt_codeOf]

/-- Settles O25: by the fields of the report word, and by the two kinds of sound records. -/
theorem nodeReportsHaveTheirLayout : Obligations.NodeReportsHaveTheirLayout := by
  refine ⟨fun s n => ?_, fun _ => rfl⟩
  obtain ⟨hvalid, hleaf, hzero, hsym, hright, hleft⟩ := reportWord_fields (s.nodeAt n)
  refine ⟨rfl, hvalid, hleaf, hzero, hsym, hright, hleft, fun hok hn => ?_⟩
  obtain ⟨hl, hi⟩ := reportWord_of_okAt (hok n hn)
  simp only [State.reportNode_result0, hleaf, hsym, hright, hleft]
  exact ⟨hl, hi⟩

/-- Settles O12: the fields by their bits, and the words of the spec by running the encoder and the decoder. -/
theorem encodingFunctionAndItsExamples : Obligations.EncodingFunctionAndItsExamples :=
  ⟨commandWord_eq_shifts, by decide⟩

/-- Settles O22: by the encoding function, the unused fields, and the report that every phase allows. -/
theorem readFreqReportsTheCount : Obligations.ReadFreqReportsTheCount := by
  intro sym
  have hcode : encode (.readFreq sym) = .command ((sym.setWidth 32 <<< 8) ||| 0x20) := by
    rw [encode, commandWord_eq_shifts]
    simp
  refine ⟨hcode, fun _ hopc => decodeCommand_of_symOpcode (by simp [hopc]),
    fun s => exec_done (s.reportFreq sym) hcode rfl rfl⟩

/-- Settles O53: each is a guarded read of its content. -/
theorem registersReadTheirContent : Obligations.RegistersReadTheirContent := fun s hp =>
  ⟨readGives_guarded rfl hp rfl, readGives_guarded rfl hp rfl, readGives_guarded rfl hp rfl,
    readGives_guarded rfl hp rfl, readGives_guarded rfl hp rfl, readGives_guarded rfl hp rfl,
    readGives_guarded rfl hp rfl,
    ⟨s.bitcntLo, s.bitcntHi, bitcnt_eq_append s, readGives_guarded rfl hp rfl, readGives_guarded rfl hp rfl⟩,
    readGives_guarded rfl hp rfl, readGives_guarded rfl hp rfl, readGives_guarded rfl hp rfl,
    readGives_guarded rfl hp rfl, readGives_guarded rfl hp rfl, readGives_guarded rfl hp rfl,
    readGives_guarded rfl hp rfl⟩

end Sys2Proof.Proofs
end

section
/-! SUPPORT. Proofs of the statements of spec/40_host_access.md: the register accesses (R91 to R98), the phases of the
operations (R102), NOP and CLEAR (R103, R104), and commands that raise, COMPRESS among them (R100, R139). -/

namespace Sys2Proof.Proofs.HostAccess

open Sys2Proof Sys2Proof.Machine StateElements

variable {s t u : State} {i : Instr} {v w : Word}

/-! ### What each write does, one equation a case -/

theorem busy_of_pending (h : s.pending ≠ none) : s.busy = true := by
  simpa [State.busy, Option.isSome_iff_ne_none] using h

theorem not_busy_of_pending (h : s.pending = none) : ¬ s.busy = true := by simp [busy_eq_false.mpr h]

theorem not_err_of_eq (h : s.errCode = 0) : ¬ s.err = true := by simp [err_of_eq h]

theorem exec_wrCmd_busy (hp : s.pending ≠ none) : exec (.wrCmd w) s = .next s.dropWrite :=
  if_pos (busy_of_pending hp)

/-- A recorded error drops every word but that of CLEAR (R98, R157). -/
theorem exec_wrCmd_dropped (hp : s.pending = none) (he : s.errCode ≠ 0) (hw : w ≠ 0x00000001) :
    exec (.wrCmd w) s = .next s :=
  (if_neg (not_busy_of_pending hp)).trans (if_pos ⟨err_of_ne he, hw⟩)

/-- A word is accepted without an error recorded, and that of CLEAR with one (R98). -/
theorem exec_wrCmd_accepted (hp : s.pending = none) (h : s.errCode = 0 ∨ w = 0x00000001) :
    exec (.wrCmd w) s = .next { s with pending := some w } :=
  (if_neg (not_busy_of_pending hp)).trans (if_neg fun ⟨he, hw⟩ => h.elim (not_err_of_eq · he) hw)

theorem exec_wrArg_busy (hp : s.pending ≠ none) : exec (.wrArg v) s = .next s.dropWrite := if_pos (busy_of_pending hp)

theorem exec_wrArg_idle (hp : s.pending = none) : exec (.wrArg v) s = .next { s with arg := v } :=
  if_neg (not_busy_of_pending hp)

theorem exec_wrDataIn_busy (hp : s.pending ≠ none) : exec (.wrDataIn v) s = .next s.dropWrite :=
  if_pos (busy_of_pending hp)

theorem exec_wrDataIn_dropped (hp : s.pending = none) (he : s.errCode ≠ 0) : exec (.wrDataIn v) s = .next s :=
  (if_neg (not_busy_of_pending hp)).trans (if_pos (err_of_ne he))

/-- With BUSY = 0 and no error recorded, a DATA_IN write is decided by the phase and by the room in INBUF (R95). -/
theorem exec_wrDataIn_free (hp : s.pending = none) (he : s.errCode = 0) : exec (.wrDataIn v) s =
    if !allowedIn (.wrDataIn v) s.phase then .next (s.raise .sequence v true)
    else if s.inLen.toNat = s.params.inCap then .next (s.raise .inOverflow v true)
    else .next (s.appendInput (v.setWidth 8)) :=
  (if_neg (not_busy_of_pending hp)).trans (if_neg (not_err_of_eq he))

theorem exec_wrDataIn_sequence (hp : s.pending = none) (he : s.errCode = 0) (hphase : s.phase ≠ .idle) :
    exec (.wrDataIn v) s = .next { s with errCode := 6, errSrc := true, errWord := v } := by
  rw [exec_wrDataIn_free hp he, if_pos (by simpa [allowedIn] using hphase), raise_of_no_error he]
  rfl

theorem exec_wrDataIn_overflow (hp : s.pending = none) (he : s.errCode = 0) (hphase : s.phase = .idle)
    (hfull : s.inLen.toNat = s.params.inCap) :
    exec (.wrDataIn v) s = .next { s with errCode := 7, errSrc := true, errWord := v } := by
  rw [exec_wrDataIn_free hp he, if_neg (by simp [allowedIn, hphase]), if_pos hfull, raise_of_no_error he]
  rfl

theorem exec_wrDataIn_append (hp : s.pending = none) (he : s.errCode = 0) (hphase : s.phase = .idle)
    (hroom : s.inLen.toNat ≠ s.params.inCap) :
    exec (.wrDataIn v) s = .next (s.appendInput (v.setWidth 8)) := by
  rw [exec_wrDataIn_free hp he, if_neg (by simp [allowedIn, hphase]), if_neg hroom]

theorem toNat_inLen_appendInput (b : Byte) (h : s.inLen.toNat + 1 < 2 ^ 32) :
    (s.appendInput b).inLen.toNat = s.inLen.toNat + 1 := by
  rw [State.appendInput_inLen]
  exact BitVec.toNat_add_of_lt h

theorem inputBytes_appendInput (b : Byte) (h : s.inLen.toNat + 1 < 2 ^ 32) :
    (s.appendInput b).inputBytes = s.inputBytes ++ [b] := by
  rw [State.inputBytes, toNat_inLen_appendInput b h]
  exact Memory.take_write_succ _ _ _

/-! ### What the reads do -/

theorem exec_rdDataOut_busy (hp : s.pending ≠ none) : exec .rdDataOut s = .next s.observeDraw :=
  if_pos (busy_of_pending hp)

theorem exec_rdDataOut_pop (hp : s.pending = none) (h : s.outRd.toNat < s.outLen.toNat) : exec .rdDataOut s =
    .next { s.observe (validByteWord (s.outbuf.read s.outRd.toNat)) with outRd := s.outRd + 1 } :=
  (if_neg (not_busy_of_pending hp)).trans (if_pos (by simpa [outValid_eq_decide] using h))

theorem exec_rdDataOut_empty (hp : s.pending = none) (h : s.outLen.toNat ≤ s.outRd.toNat) :
    exec .rdDataOut s = .next (s.observe 0) :=
  (if_neg (not_busy_of_pending hp)).trans (if_neg (by simpa [outValid_eq_decide] using h))

/-- VALID is bit 8 of the word of a DATA_OUT read (R74). -/
theorem validByteWord_eq_or (b : Byte) : validByteWord b = 0x00000100#32 ||| b.setWidth 32 := by
  revert b
  decide

/-- Every read but those of R92 and the one that pops is a guarded read (R90, R97). -/
theorem exists_guardedRead (s : State)
    (hi : i ∈ [Instr.rdError, .rdErrWord, .rdArg, .rdInLen, .rdOutLen, .rdOutAvail, .rdNsym, .rdRoot, .rdNodeCount,
      .rdPqSize, .rdBitcntLo, .rdBitcntHi, .rdTreeLen, .rdResult0, .rdResult1, .rdResult2, .rdCmd, .rdDataIn] ∨
      ∃ off, i = .rdReserved off) : ∃ v, exec i s = guardedRead v s := by
  rcases hi with hi | ⟨off, rfl⟩
  · fin_cases hi <;> exact ⟨_, rfl⟩
  · exact ⟨_, rfl⟩

/-! ### The words of CLEAR and COMPRESS -/

theorem onlyWord_clear : OnlyWord 0x00000001 :=
  onlyWord_of_unused (i := .clear) (by decide) fun v hv => by
    simp only [decodeCommand, hv]
    rfl

theorem onlyWord_compress : OnlyWord 0x00000005 :=
  onlyWord_of_unused (i := .compress) (by decide) fun v hv => by
    simp only [decodeCommand, hv]
    rfl

/-! ### Commands that raise -/

/-- What a command's own semantics can raise, and which commands raise it: never SEQUENCE (R102, R155). -/
theorem semantics_raised_kind {e : ErrorKind} (h : semantics i s = .raised e u) :
    (e = .emptyInput ∧ (i = .build ∨ i = .compress)) ∨ (e = .outOverflow ∧ (i = .emit ∨ i = .compress)) ∨
      (e = .pqFull ∧ ∃ sym, i = .pqPush sym) := by
  cases i
  case build =>
    simp only [semantics, performBuild] at h
    split at h <;> cases h
    simp
  case gencodes =>
    simp only [semantics, performGencodes] at h
    split at h <;> cases h
  case emit =>
    simp only [semantics, performEmit] at h
    split at h
    · cases h
    · split at h <;> cases h
      simp
  case compress =>
    rcases compress_raised (show performCompress s = _ from h) with ⟨-, rfl, -⟩ | ⟨-, rfl, -⟩ <;> simp
  case pqPush sym =>
    simp only [semantics, performPush] at h
    split at h <;> cases h
    simp
  case pqPop =>
    simp only [semantics, performPop] at h
    split at h <;> cases h
  case readHeap slot =>
    simp only [semantics, performReadHeap] at h
    split at h <;> cases h
  case readNode id =>
    simp only [semantics, performReadNode] at h
    split at h <;> cases h
  all_goals cases h

/-- A command's semantics completes with no error recorded where none was (R22). -/
theorem errCode_semantics_done (he : s.errCode = 0) (h : semantics i s = .done u) : u.errCode = 0 := by
  by_cases hc : i = .clear
  · subst hc
    cases h
    rfl
  · exact (engineWrites_done hc h).errorRecord.1.trans he

/-- The first error a command records (R156). -/
theorem finish_raise_of_no_error (he : s.errCode = 0) (e : ErrorKind) (w : Word) : (s.raise e w false).finish =
    { s with errCode := e.code, errSrc := false, errWord := w, pending := none } := by
  rw [raise_of_no_error he]
  rfl

/-- A command that ends with an error where none was recorded has failed its phase check, or its semantics raised
(R99, R100, R102). -/
theorem exec_command_raised (hi : encode i = .command w) (he : s.errCode = 0) (hn : exec i s = .next t)
    (ht : t.errCode ≠ 0) : ∃ (e : ErrorKind) (u : State), t = (u.raise e w false).finish ∧ t.errCode = e.code ∧
      ((allowedIn i s.phase = false ∧ e = .sequence ∧ u = s) ∨
        (allowedIn i s.phase = true ∧ semantics i s = .raised e u)) := by
  rw [exec_command hi] at hn
  have hcode : ∀ {u : State}, u.errCode = 0 → ∀ e : ErrorKind, (u.raise e w false).finish.errCode = e.code :=
    fun hu e => by rw [finish_raise_of_no_error hu]
  rcases encodeWord_of_command hi ▸ runCommand_next hn with ⟨-, u, hu, rfl⟩ | ⟨ha, e, u, hu, rfl⟩ | ⟨ha, rfl⟩
  · exact absurd (errCode_semantics_done he hu) ht
  · exact ⟨e, u, rfl, hcode ((engineWrites_raised hu).errorRecord.1.trans he) e, .inr ⟨ha, hu⟩⟩
  · exact ⟨.sequence, s, rfl, hcode he .sequence, .inl ⟨ha, rfl, rfl⟩⟩

/-! ### The phases -/

/-- The rows of the table of R102, read as the phases they forbid. -/
theorem forbidden_of_not_allowed {p : Phase} (h : allowedIn i p = false) :
    ((i = .build ∨ i = .compress ∨ i = .pqReset ∨ (∃ sym, i = .pqPush sym) ∨ i = .pqPop ∨ ∃ v, i = .wrDataIn v) ∧
      p ≠ .idle) ∨ (i = .gencodes ∧ p ≠ .built) ∨ (i = .emit ∧ p ≠ .coded) := by
  cases i
  case build | compress | pqReset | pqPush _ | pqPop | wrDataIn _ => exact .inl ⟨by simp, by simpa [allowedIn] using h⟩
  case gencodes => exact .inr (.inl ⟨rfl, by simpa [allowedIn] using h⟩)
  case emit => exact .inr (.inr ⟨rfl, by simpa [allowedIn] using h⟩)
  all_goals cases h

/-- A command raises SEQUENCE in a phase that does not allow it only (R102). -/
theorem not_allowed_of_command_sequence (hi : encode i = .command w) (he : s.errCode = 0) (hn : exec i s = .next t)
    (ht : t.errCode = 6) : allowedIn i s.phase = false := by
  obtain ⟨e, u, -, hcode, ⟨ha, -, -⟩ | ⟨-, hraised⟩⟩ := exec_command_raised hi he hn (by simp [ht])
  · exact ha
  · rw [ht] at hcode
    rcases semantics_raised_kind hraised with ⟨rfl, -⟩ | ⟨rfl, -⟩ | ⟨rfl, -⟩ <;> cases hcode

/-- WR DATA_IN raises SEQUENCE outside IDLE only (R95, R102). -/
theorem phase_ne_idle_of_wrDataIn_sequence (he : s.errCode = 0) (hn : exec (.wrDataIn v) s = .next t)
    (ht : t.errCode = 6) : s.phase ≠ .idle := by
  intro hphase
  by_cases hp : s.pending = none
  · by_cases hfull : s.inLen.toNat = s.params.inCap
    · cases (exec_wrDataIn_overflow hp he hphase hfull).symm.trans hn
      cases ht
    · cases (exec_wrDataIn_append hp he hphase hfull).symm.trans hn
      cases he.symm.trans ht
  · cases (exec_wrDataIn_busy hp).symm.trans hn
    cases he.symm.trans ht

/-- Whatever raises SEQUENCE stands in a phase that does not allow it: no other access writes the error record. -/
theorem not_allowed_of_sequence (hn : exec i s = .next t) (he : s.errCode = 0) (ht : t.errCode = 6) :
    allowedIn i s.phase = false := by
  by_cases hc : i = .clear
  · exact not_allowed_of_command_sequence (w := 1) (by rw [hc]; rfl) he hn ht
  · rcases (elementWrites_exec hc hn).error with ⟨hsame, -⟩ | ⟨-, -, ⟨w, hi, -⟩ | ⟨v, rfl, -⟩⟩
    · cases (hsame.trans he).symm.trans ht
    · exact not_allowed_of_command_sequence hi he hn ht
    · simpa [allowedIn] using phase_ne_idle_of_wrDataIn_sequence he hn ht

/-! ### The stages of COMPRESS -/

/-- `b` with the tree `c` is what BUILD leaves of `s`, GENCODES completes from it, and EMIT decides how COMPRESS ends
(R139). -/
structure StagesRun (s b : State) (c : CodeTree) : Prop where
  builtOk : b.BuiltOk c
  errCode : b.errCode = s.errCode
  outLen : b.outLen = s.outLen
  build : exec .build s = .next b.finish
  gencodes : exec .gencodes b.finish = .next (b.withCodes c.codes).finish
  compress : semantics .compress s = performEmit (b.withCodes c.codes)

theorem exists_stagesRun (hphase : s.phase = .idle) (hl : s.inLen ≠ 0) : ∃ b c, StagesRun s b c := by
  obtain ⟨b, c, hbuild, hb, hframe, hcompress⟩ := exists_built hl
  have hbuilt : b.phase = .built := by rw [hframe]
  refine ⟨b, c, hb, by rw [hframe], by rw [hframe], exec_done b rfl (by rw [hphase]; rfl) hbuild, ?_, hcompress⟩
  exact exec_done (b.finish.withCodes c.codes) rfl (by rw [State.finish_phase, hbuilt]; rfl)
    (performGencodes_done (s := b.finish) hb.tree)

theorem StagesRun.tree {b : State} {c : CodeTree} (h : StagesRun s b c) :
    TreeAt (b.withCodes c.codes).arena (b.withCodes c.codes).root c := h.builtOk.tree

theorem finish_raise_finish (s : State) (e : ErrorKind) (w : Word) (src : Bool) :
    (s.finish.raise e w src).finish = (s.raise e w src).finish := by
  by_cases h : s.errCode = 0
  · rw [raise_of_no_error h, raise_of_no_error (s := s.finish) h]
    rfl
  · rw [raise_of_error h, raise_of_error (s := s.finish) h]
    rfl

/-- How EMIT ends after the other two stages: COMPRESS then ends in the same state, or both overflow and COMPRESS
records its own word over the state GENCODES left (R139). -/
theorem StagesRun.emit {b : State} {c : CodeTree} (h : StagesRun s b c) (hphase : s.phase = .idle) :
    ∃ s3, exec .emit (b.withCodes c.codes).finish = .next s3 ∧
      (s3.phase = .done → exec .compress s = .next s3) ∧
      (s3.phase ≠ .done →
        exec .compress s = .next ((b.withCodes c.codes).finish.raise .outOverflow 0x00000005 false).finish) := by
  have hidle : allowedIn .compress s.phase = true := by rw [hphase]; rfl
  rcases performEmit_cases h.tree with ⟨hl, hemit⟩ | ⟨hl, hemit⟩
  · refine ⟨((b.withCodes c.codes).emitted _).finish,
      exec_done ((b.withCodes c.codes).finish.emitted _) rfl rfl (performEmit_done h.tree hl), fun _ => ?_,
      fun hne => absurd rfl hne⟩
    exact exec_done _ rfl hidle (h.compress.trans hemit)
  · refine ⟨_, exec_raised _ .outOverflow rfl rfl (performEmit_raised h.tree hl), fun hdone => ?_, fun _ => ?_⟩
    · rw [State.finish_phase, State.raise_phase] at hdone
      cases hdone
    · rw [finish_raise_finish]
      exact exec_raised _ .outOverflow rfl hidle (h.compress.trans hemit)

end Sys2Proof.Proofs.HostAccess

namespace Sys2Proof.Proofs

open Sys2Proof.Machine StateElements HostAccess

/-- Settles O38: by what EMIT does after the other two stages. -/
theorem compressRunsTheThreeStages : Obligations.CompressRunsTheThreeStages := by
  refine ⟨rfl, onlyWord_compress, fun s => ⟨fun hp => ?_, fun hp hl => ?_, fun hp hl => ?_⟩⟩
  · exact endsInSequence rfl (by simpa [allowedIn] using hp)
  · have hraised : semantics .compress s = .raised .emptyInput s := by
      rw [semantics, performCompress, performBuild, if_pos hl, Performed.andThen]
    exact exec_raised s .emptyInput rfl (by rw [hp]; rfl) hraised
  · obtain ⟨b, c, h⟩ := exists_stagesRun hp hl
    obtain ⟨s3, hemit, hdone, hover⟩ := h.emit hp
    exact ⟨b.finish, (b.withCodes c.codes).finish, s3, h.build, h.gencodes, hemit, rfl, h.outLen, hdone, hover⟩

/-- Settles O43: a command that fails its phase check or raises has changed nothing, unless it is COMPRESS with
OUT_OVERFLOW. -/
theorem commandErrorsChangeNothingElse : Obligations.CommandErrorsChangeNothingElse := by
  intro i w s t hi he hn ht
  obtain ⟨e, u, rfl, hcode, hcase⟩ := exec_command_raised hi he hn ht
  have hframe : u = s → (u.raise e w false).finish = { s with
      errCode := (u.raise e w false).finish.errCode, errSrc := false, errWord := w, pending := none } := by
    rintro rfl
    rw [finish_raise_of_no_error he]
  rcases hcase with ⟨-, -, hu⟩ | ⟨ha, hraised⟩
  · exact .inl (hframe hu)
  · by_cases hc : i = .compress
    · subst hc
      rcases compress_raised (show performCompress s = _ from hraised) with ⟨-, -, hu⟩ | ⟨hl, rfl, -⟩
      · exact .inl (hframe hu)
      · obtain ⟨b, c, h⟩ := exists_stagesRun (by simpa [allowedIn] using ha) hl
        refine .inr ⟨rfl, hcode, b.finish, (b.withCodes c.codes).finish, h.build, h.gencodes, ?_⟩
        rcases performEmit_cases h.tree with ⟨-, hemit⟩ | ⟨-, hemit⟩ <;>
          cases (h.compress.trans hemit).symm.trans hraised
        exact finish_raise_of_no_error (s := b.withCodes c.codes) (h.errCode.trans he) .outOverflow w
    · exact .inl (hframe (raised_unchanged hc hraised))

/-- Settles O46: by the phase check of every command and of DATA_IN, and by nothing else raising SEQUENCE. -/
theorem phasesAllowOperationsAsTabled : Obligations.PhasesAllowOperationsAsTabled := by
  refine ⟨fun s hp => ?_, fun s hp => endsInSequence rfl (by simpa [allowedIn] using hp),
    fun s hp => endsInSequence rfl (by simpa [allowedIn] using hp),
    fun i s t hn he ht => forbidden_of_not_allowed (not_allowed_of_sequence hn he ht)⟩
  have hidle : (s.phase == .idle) = false := by simpa using hp
  exact ⟨endsInSequence rfl hidle, endsInSequence rfl hidle, endsInSequence rfl hidle, fun _ => endsInSequence rfl hidle,
    endsInSequence rfl hidle, fun hpend he _ => exec_wrDataIn_sequence hpend he hp⟩

/-- Settles O49: one equation for each case of the rule, and the bytes of INBUF after the append. -/
theorem wrDataInAppendsTheLowByte : Obligations.WrDataInAppendsTheLowByte := by
  refine fun v s => ⟨exec_wrDataIn_busy, exec_wrDataIn_dropped, exec_wrDataIn_sequence, exec_wrDataIn_overflow,
    fun hp he hphase hroom ⟨_, hcap, _⟩ => ?_⟩
  have hlen : s.inLen.toNat + 1 < 2 ^ 32 := by omega
  refine ⟨s.appendInput (v.setWidth 8), exec_wrDataIn_append hp he hphase (by omega), rfl,
    toNat_inLen_appendInput _ hlen, inputBytes_appendInput _ hlen, fun k hk => ?_⟩
  rw [State.appendInput_inbuf, Memory.read_write, if_neg hk]

/-- Settles O13: NOP's semantics is the state itself, and its word is no exception of R98. -/
theorem nopChangesNothing : Obligations.NopChangesNothing :=
  ⟨rfl, fun s => exec_done s (w := 0x00000000) rfl rfl rfl, fun _ hp he => exec_wrCmd_accepted hp (.inl he),
    fun _ hp he => exec_wrCmd_dropped hp he (by decide)⟩

/-- Settles O14: CLEAR's semantics is the cleared state, and its word is the exception of R98. -/
theorem clearReturnsEveryElement : Obligations.ClearReturnsEveryElement :=
  ⟨rfl, onlyWord_clear, fun s => exec_done s.cleared (w := 0x00000001) rfl rfl rfl,
    fun _ hp he => ⟨exec_wrCmd_accepted hp (.inr rfl), fun _ hv => exec_wrCmd_dropped hp he hv⟩⟩

/-- Settles O45: by the equations of the writes and of the reads with BUSY = 0. -/
theorem recordedErrorBlocksAllButClear : Obligations.RecordedErrorBlocksAllButClear := fun _ he hp =>
  ⟨fun _ hw => exec_wrCmd_dropped hp he hw, exec_wrCmd_accepted hp (.inr rfl), fun _ => exec_wrDataIn_dropped hp he,
    fun _ => exec_wrArg_idle hp, fun h => ⟨_, exec_rdDataOut_pop hp h⟩, readGives_guarded rfl hp rfl,
    readGives_exact rfl rfl⟩

/-- Settles O47: one equation for each case. -/
theorem wrCmdAcceptsOrDropsTheWord : Obligations.WrCmdAcceptsOrDropsTheWord := fun _ _ =>
  ⟨exec_wrCmd_busy, exec_wrCmd_dropped, exec_wrCmd_accepted⟩

/-- Settles O48: one equation for each case. -/
theorem wrArgWritesOrSetsOverrun : Obligations.WrArgWritesOrSetsOverrun := fun _ _ => ⟨exec_wrArg_busy, exec_wrArg_idle⟩

/-- Settles O50: the three offsets decode by evaluation, the others as the ignored write of a well-formed instruction. -/
theorem writesDispatchOnTheOffset : Obligations.WritesDispatchOnTheOffset :=
  ⟨fun _ => ⟨rfl, rfl, rfl⟩,
    fun off v ha hcmd harg hdata =>
      Laws.Encodable.wrOther off v ⟨ha, fun hw => hw.elim hcmd (Or.elim · harg hdata)⟩,
    fun _ _ _ => rfl⟩

/-- Settles O51: each is an exact read of its content. -/
theorem constantsAndStatusReadExactly : Obligations.ConstantsAndStatusReadExactly := fun _ =>
  ⟨readGives_exact rfl rfl, readGives_exact rfl rfl, readGives_exact rfl rfl, readGives_exact rfl rfl⟩

/-- Settles O52: a guarded read draws while BUSY = 1, and so does the read that pops. -/
theorem readsWhileBusyGiveAnyValue : Obligations.ReadsWhileBusyGiveAnyValue := by
  intro i s hp hi
  rw [List.mem_cons, or_assoc] at hi
  rcases hi with rfl | hi
  · exact exec_rdDataOut_busy hp
  · obtain ⟨v, hv⟩ := exists_guardedRead s hi
    rw [hv]
    exact guardedRead_busy (busy_of_pending hp)

/-- Settles O55: by the two cases of the read, and the word of a byte with VALID set. -/
theorem dataOutPopsOneByte : Obligations.DataOutPopsOneByte := by
  refine fun s hp => ⟨fun h => ?_, exec_rdDataOut_empty hp⟩
  rw [← validByteWord_eq_or]
  exact exec_rdDataOut_pop hp h

end Sys2Proof.Proofs
end

section
/-! SUPPORT. Proofs of the statements of spec/41_priority_queue.md: the loops of the queue and of the merges (R107, R108,
R119), the nodes a dequeue and a merge take (R105, R108), and the commands PQ_RESET, PQ_PUSH, PQ_POP and READ_HEAP (R112
to R115). -/

namespace Sys2Proof.Proofs.PriorityQueue

open Sys2Proof Sys2Proof.Machine StateElements Encoding

variable {s : State} {w : Word}

/-! ### The command words -/

theorem onlyWord_pqReset : OnlyWord 0x00000010 :=
  onlyWord_of_unused (i := .pqReset) (by decide) fun v hv => by
    simp only [decodeCommand, hv]
    rfl

theorem onlyWord_pqPop : OnlyWord 0x00000012 :=
  onlyWord_of_unused (i := .pqPop) (by decide) fun v hv => by
    simp only [decodeCommand, hv]
    rfl

theorem encode_pqPush (sym : Byte) : encode (.pqPush sym) = .command ((sym.setWidth 32 <<< 8) ||| 0x11) := by
  rw [encode, commandWord_eq_shifts]
  simp

theorem encode_readHeap (slot : BitVec 9) :
    encode (.readHeap slot) = .command ((slot.setWidth 32 <<< 16) ||| 0x13) := by
  rw [encode, commandWord_eq_shifts]
  simp

/-- A word whose opcode uses only B, with A or RSV set (R78). -/
theorem decodeCommand_of_idxOpcode (hopc : opcOf w ∈ [0x13#8, 0x22#8]) (h : symOf w ≠ 0 ∨ rsvOf w ≠ 0) :
    decodeCommand w = .error .badCommand := by
  apply decodeCommand_illegal
  rw [IllegalFields]
  tauto

/-! ### The loops, without their fuel -/

/-- One turn of the loop of `enqueue`, on the fuel it began with (R107). -/
theorem siftUp_eq (arena : Table Node) (heap : Table NodeId) {i fuel : Nat} (h : i ≤ fuel) :
    siftUp arena fuel heap i =
      if 1 < i ∧ heapKey arena heap i < heapKey arena heap (i / 2)
      then siftUp arena fuel (heapSwap heap i (i / 2)) (i / 2) else heap := by
  rw [siftUp_fuel arena fuel (fuel + 1) heap i h (by omega), siftUp]

/-- One turn of the loop of `dequeue`, on the fuel it began with (R108). -/
theorem siftDown_eq (arena : Table Node) (heap : Table NodeId) {size i fuel : Nat} (h1 : 1 ≤ i) (h : size ≤ fuel) :
    siftDown arena size fuel heap i =
      if 2 * i ≤ size then
        if heapKey arena heap (smallerChild arena size heap i) < heapKey arena heap i
        then siftDown arena size fuel (heapSwap heap i (smallerChild arena size heap i)) (smallerChild arena size heap i)
        else heap
      else heap := by
  rw [siftDown_fuel arena size fuel (fuel + 1) heap i h1 (by omega) (by omega), siftDown, ← ite_not]
  simp only [not_lt]

/-- One turn of the merges, on as much fuel as nodes are queued (R119). -/
theorem mergeLoop_eq (hq : s.pqSize.toNat ≤ 256) (hc : s.nodeCount.toNat + s.pqSize.toNat ≤ 512) :
    mergeLoop s.pqSize.toNat s =
      if 1 < s.pqSize.toNat then mergeLoop (mergeStep s).pqSize.toNat (mergeStep s) else s := by
  rw [mergeLoop_fuel _ (s.pqSize.toNat + 1) s le_rfl (by omega) hq hc, mergeLoop]
  refine if_ctx_congr Iff.rfl (fun hmore => ?_) fun _ => rfl
  obtain ⟨hsize, hcount⟩ := mergeStep_counts hmore (by rw [arenaCap_eq]; omega)
  exact mergeLoop_fuel _ _ _ (by omega) le_rfl (by omega) (by omega)

/-! ### The nodes of a dequeue and of a merge -/

theorem dequeueTop_empty (h : s.pqSize = 0) : dequeueTop s = Config.noNode := by rw [dequeueTop, if_pos h]

theorem dequeueRest_one (h : s.pqSize = 1) : dequeueRest s = { s with pqSize := 0 } := by
  rw [dequeueRest, if_neg (by simp [h]), if_pos h]

theorem dequeueRest_more (h0 : s.pqSize ≠ 0) (h1 : s.pqSize ≠ 1) : dequeueRest s =
    { s with
      pqSize := s.pqSize - 1
      heap := siftDown s.arena (s.pqSize - 1).toNat (s.pqSize - 1).toNat
        (Table.set 0 s.heap 1 (s.heapAt s.pqSize.toNat)) 1 } := by
  rw [dequeueRest, if_neg h0, if_neg h1]

/-- Only allocated nodes are queued, and NONE is never allocated (R30). -/
theorem dequeueTop_ne_noNode (h : s.QueueOk) (h0 : s.pqSize ≠ 0) : dequeueTop s ≠ Config.noNode := by
  intro hnone
  have hcap := arenaCap_eq
  have hallocated := h.allocated _ (dequeueTop_mem h0)
  have hcount := h.count
  rw [hnone, show Config.noNode.toNat = 511 from rfl] at hallocated
  omega

theorem dequeueRest_pqSize_ne_zero (h : 2 ≤ s.pqSize.toNat) : (dequeueRest s).pqSize ≠ 0 := by
  rw [dequeueRest_pqSize (by bv_omega)]
  bv_omega

/-- A dequeue allocates nothing. -/
theorem nextId_dequeueRest (s : State) : (dequeueRest s).nextId = s.nextId := by
  rw [State.nextId, dequeueRest_nodeCount, State.nextId]

/-- Adding a node adds its id to the queue (R113, R118, R119). -/
theorem queueIds_addNode (nd : Node) (h : s.pqSize.toNat < 511) :
    (addNode nd s).queueIds.Perm (s.nextId :: s.queueIds) := queueIds_enqueue (s := allocate nd s) s.nextId h

/-- The first two nodes dequeued, and those a merge leaves (R119). -/
theorem queueIds_dequeue_two (h : 2 ≤ s.pqSize.toNat) :
    s.queueIds.Perm (dequeueTop s :: dequeueTop (dequeueRest s) :: (dequeueRest (dequeueRest s)).queueIds) :=
  (queueIds_dequeue (by bv_omega)).trans (.cons _ (queueIds_dequeue (dequeueRest_pqSize_ne_zero h)))

/-- The merge: the record it allocates, and the node it adds to those left (R119). -/
theorem mergeStep_eq (s : State) : mergeStep s =
    addNode (Node.ofPair ((s.nodeAt (dequeueTop s)).freq + (s.nodeAt (dequeueTop (dequeueRest s))).freq)
      (dequeueTop s) (dequeueTop (dequeueRest s))) (dequeueRest (dequeueRest s)) := by
  simp only [mergeStep, nodeAt_dequeueRest]

theorem nodeAt_mergeStep (s : State) (n : NodeId) : (mergeStep s).nodeAt n =
    if n = s.nextId then
      Node.ofPair ((s.nodeAt (dequeueTop s)).freq + (s.nodeAt (dequeueTop (dequeueRest s))).freq)
        (dequeueTop s) (dequeueTop (dequeueRest s))
    else s.nodeAt n := by
  rw [mergeStep_eq, nodeAt_addNode, nodeAt_dequeueRest, nodeAt_dequeueRest, nextId_dequeueRest, nextId_dequeueRest]

/-- A merge puts the next node id in the place of the two nodes it joins (R119). -/
theorem queueIds_mergeStep (h : s.QueueOk) :
    (mergeStep s).queueIds.Perm (s.nextId :: (dequeueRest (dequeueRest s)).queueIds) := by
  have hcap := heapCap_eq
  have hsize := (queueOk_dequeue (queueOk_dequeue h)).size
  rw [mergeStep_eq, ← nextId_dequeueRest s, ← nextId_dequeueRest (dequeueRest s)]
  exact queueIds_addNode _ (by omega)

/-- The second node dequeued has the least frequency of those queued after the first (R108, R119). -/
theorem dequeueTop_rest_le (h : s.QueueOk) (h2 : 2 ≤ s.pqSize.toNat) {m : NodeId}
    (hm : m ∈ (dequeueRest (dequeueRest s)).queueIds) :
    (s.nodeAt (dequeueTop (dequeueRest s))).freq ≤ (s.nodeAt m).freq := by
  have hle := dequeueTop_le (queueOk_dequeue h).ordered (dequeueRest_pqSize_ne_zero h2) (mem_queueIds_of_dequeue hm)
  rwa [nodeAt_dequeueRest, nodeAt_dequeueRest] at hle

/-! ### The commands -/

/-- A full heap or a full arena (R113). -/
theorem performPush_full (sym : Byte) (h : s.pqSize = 256 ∨ s.nodeCount = 511) :
    performPush sym s = .raised .pqFull s := by rw [performPush, if_pos h]

/-- The report of PQ_PUSH is the leaf it has just allocated (R82, R113). -/
theorem performPush_room (sym : Byte) (hq : s.pqSize ≠ 256) (hc : s.nodeCount ≠ 511) :
    performPush sym s = .done ((addNode (Node.ofLeaf sym s.arg) s).report (Node.ofLeaf sym s.arg).reportWord s.arg
      (s.nextId.setWidth 32)) := by
  rw [performPush, if_neg (not_or.mpr ⟨hq, hc⟩), State.reportNode, nodeAt_addNode, if_pos rfl]
  rfl

theorem exec_pqPop_none (hp : s.phase = .idle) (h : dequeueTop s = Config.noNode) :
    exec .pqPop s = .next (dequeueRest s).reportInvalid.finish :=
  exec_done (w := 0x00000012) _ rfl (by rw [hp]; rfl) (if_pos h)

/-- The report is that of the node before the dequeue, which leaves the records alone (R108, R114). -/
theorem exec_pqPop_node (hp : s.phase = .idle) (h : dequeueTop s ≠ Config.noNode) :
    exec .pqPop s = .next ((dequeueRest s).report (s.nodeAt (dequeueTop s)).reportWord (s.nodeAt (dequeueTop s)).freq
      ((dequeueTop s).setWidth 32)).finish := by
  rw [← nodeAt_dequeueRest s]
  exact exec_done (w := 0x00000012) _ rfl (by rw [hp]; rfl) (if_neg h)

theorem performReadHeap_used (slot : BitVec 9) (h1 : 1 ≤ slot.toNat) (h : slot.toNat ≤ s.pqSize.toNat) :
    performReadHeap slot s = .done (s.reportNode (s.heapAt slot.toNat)) := by rw [performReadHeap, if_pos ⟨h1, h⟩]

theorem performReadHeap_unused (slot : BitVec 9) (h : slot.toNat = 0 ∨ s.pqSize.toNat < slot.toNat) :
    performReadHeap slot s = .done s.reportInvalid := by rw [performReadHeap, if_neg (by omega)]

end Sys2Proof.Proofs.PriorityQueue

namespace Sys2Proof.Proofs

open Sys2Proof.Machine PriorityQueue Encoding

/-- Settles O16: by the phase check, the check for room, and the leaf allocated last being the one reported. -/
theorem pqPushAllocatesAndEnqueuesALeaf : Obligations.PqPushAllocatesAndEnqueuesALeaf := by
  rintro sym _ rfl
  refine ⟨encode_pqPush sym, fun _ hopc => decodeCommand_of_symOpcode (by simp [hopc]),
    fun s => ⟨fun hp => ?_, fun hp hfull => ?_, fun hp hq hc n leaf hn hleaf => ?_⟩⟩
  · exact endsInSequence (encode_pqPush sym) (by simpa [allowedIn] using hp)
  · exact exec_raised s .pqFull (encode_pqPush sym) (by rw [hp]; rfl) (performPush_full sym hfull)
  · subst hn hleaf
    exact exec_done _ (encode_pqPush sym) (by rw [hp]; rfl) (performPush_room sym hq hc)

/-- Settles O17: by one turn of each loop, and the three sizes of the queue a dequeue tells apart. -/
theorem queueLoopsFollowTheirComparisons : Obligations.QueueLoopsFollowTheirComparisons :=
  ⟨fun _ _ => rfl, fun arena heap _ _ h => siftUp_eq arena heap h,
    fun _ h => ⟨dequeueTop_empty h, dequeueRest_empty h⟩,
    fun _ h => ⟨dequeueTop_eq (by simp [h]), dequeueRest_one h⟩,
    fun _ h0 h1 => ⟨dequeueTop_eq h0, dequeueRest_more h0 h1⟩,
    fun arena heap _ _ _ h1 h => siftDown_eq arena heap h1 h⟩

/-- Settles O19: the root of a heap in order has the least key, and a dequeue takes it and no other node. -/
theorem pqPopTakesTheLeastFrequency : Obligations.PqPopTakesTheLeastFrequency := by
  intro s hq hp h0
  exact ⟨_, dequeueTop s, exec_pqPop_node hp (dequeueTop_ne_noNode hq h0), queueIds_dequeue h0,
    fun m hm => dequeueTop_le hq.ordered h0 hm, rfl, rfl, dequeueRest_pqSize h0, nodeAt_dequeueRest s⟩

/-- Settles O29: by the two dequeues of a merge, the node it adds, and one turn of the merges. -/
theorem mergeJoinsTheTwoLeastNodes : Obligations.MergeJoinsTheTwoLeastNodes := by
  refine ⟨fun s hq h2 _ => ?_, fun s hq hc => mergeLoop_eq hq hc⟩
  refine ⟨dequeueTop s, dequeueTop (dequeueRest s), s.nextId, (dequeueRest (dequeueRest s)).queueIds,
    queueIds_dequeue_two h2, fun m hm => dequeueTop_le hq.ordered (by bv_omega) hm,
    fun m hm => dequeueTop_rest_le hq h2 hm, toNat_nextId hq.count, queueIds_mergeStep hq, ?_, ?_, fun m hm => ?_⟩
  · rw [mergeStep_eq, addNode_nodeCount, dequeueRest_nodeCount, dequeueRest_nodeCount]
  · rw [nodeAt_mergeStep, if_pos rfl]
    rfl
  · rw [nodeAt_mergeStep, if_neg hm]

/-- Settles O15: the semantics is the state with the queue and the arena emptied, in IDLE only. -/
theorem pqResetEmptiesQueueAndArena : Obligations.PqResetEmptiesQueueAndArena :=
  ⟨rfl, onlyWord_pqReset, fun s => ⟨fun hp => exec_done (w := 0x00000010) s.emptyQueue rfl (by rw [hp]; rfl) rfl,
    fun hp => endsInSequence rfl (by simpa [allowedIn] using hp)⟩⟩

/-- Settles O18: by the phase check and the two cases of what is dequeued. -/
theorem pqPopDequeuesAndReports : Obligations.PqPopDequeuesAndReports := by
  refine ⟨rfl, onlyWord_pqPop, fun s => ⟨fun hp => ?_, fun hp hnone => ?_, fun hp hnode => ?_⟩⟩
  · exact endsInSequence rfl (by simpa [allowedIn] using hp)
  · exact exec_pqPop_none hp hnone
  · exact exec_pqPop_node hp hnode

/-- Settles O21: by the range of the slots in use, in every phase. -/
theorem readHeapReportsTheSlot : Obligations.ReadHeapReportsTheSlot := by
  rintro slot _ rfl
  refine ⟨encode_readHeap slot, fun _ hopc => decodeCommand_of_idxOpcode (by simp [hopc]),
    fun s => ⟨fun h1 h => ?_, fun h => ?_⟩⟩
  · exact exec_done _ (encode_readHeap slot) rfl (performReadHeap_used slot h1 h)
  · exact exec_done _ (encode_readHeap slot) rfl (performReadHeap_unused slot h)

end Sys2Proof.Proofs
end

section
/-! SUPPORT. Proofs of the statements of spec/42_tree_builder.md: what BUILD completes with and when it raises (R116,
R117), the entries of HEAP and ARENA it leaves alone (R118, R119, R122), the input as all it depends on (R116), and the
command READ_NODE (R125). -/

namespace Sys2Proof.Proofs.TreeBuilder

open Sys2Proof Sys2Proof.Machine StateElements Encoding PriorityQueue

variable {s s' t : State} {n : Nat}

/-! ### The command words -/

theorem onlyWord_build : OnlyWord 0x00000002 :=
  onlyWord_of_unused (i := .build) (by decide) fun v hv => by
    simp only [decodeCommand, hv]
    rfl

theorem encode_readNode (id : NodeId) : encode (.readNode id) = .command ((id.setWidth 32 <<< 16) ||| 0x22) := by
  rw [encode, commandWord_eq_shifts]
  simp

/-! ### What BUILD answers -/

theorem performBuild_empty (h : s.inLen = 0) : performBuild s = .raised .emptyInput s := by rw [performBuild, if_pos h]

/-- The elements BUILD leaves alone, with the queue empty again and PHASE BUILT (R116, R120). -/
theorem rooted_merged_frame (hl : s.inLen ≠ 0) : s.merged.rooted = { s with
    freq := s.merged.rooted.freq, nsym := s.merged.rooted.nsym, arena := s.merged.rooted.arena
    nodeCount := s.merged.rooted.nodeCount, heap := s.merged.rooted.heap, pqSize := 0
    root := s.merged.rooted.root, phase := .built } := by
  obtain ⟨b, -, hdone, -, hframe, -⟩ := exists_built hl
  cases (performBuild_done hl).symm.trans hdone
  exact hframe

/-! ### The records BUILD leaves alone -/

/-- `t` has the node records of `s` from its NODE_COUNT on. -/
def FreeRecordsKept (s t : State) : Prop := ∀ n : NodeId, t.nodeCount.toNat ≤ n.toNat → t.nodeAt n = s.nodeAt n

/-- A new node takes the first free record, and a dequeue writes none (R30, R108). -/
theorem freeRecordsKept_closed (s : State) : QueueClosed (FreeRecordsKept s) := by
  refine ⟨fun t nd h _ hc n hn => ?_, fun t h n hn => ?_⟩
  · rw [toNat_addNode_nodeCount nd hc] at hn
    have hne : n ≠ t.nextId := by
      rintro rfl
      rw [toNat_nextId hc.le] at hn
      omega
    rw [nodeAt_addNode, if_neg hne]
    exact h n (by omega)
  · rw [dequeueRest_nodeCount] at hn
    rw [nodeAt_dequeueRest]
    exact h n hn

theorem freeRecordsKept_merged (s : State) : FreeRecordsKept s s.merged :=
  (merged_induct (freeRecordsKept_closed s) s fun _ _ => rfl).1

/-! ### The slots BUILD leaves alone -/

/-- The queue of `t` has at most `n` nodes, and `t` has the slots of `s` outside 1 to `n`. -/
def QueueWithin (n : Nat) (s t : State) : Prop :=
  t.pqSize.toNat ≤ n ∧ ∀ i, i = 0 ∨ n < i → t.heapAt i = s.heapAt i

theorem QueueWithin.mono (h : QueueWithin n s t) {m : Nat} (hm : n ≤ m) : QueueWithin m s t :=
  ⟨h.1.trans hm, fun i hi => h.2 i (hi.imp_right hm.trans_lt)⟩

theorem QueueWithin.addNode (nd : Node) (h : QueueWithin n s t) (hroom : t.pqSize.toNat < n)
    (hcap : t.pqSize.toNat < Config.heapCap) : QueueWithin n s (addNode nd t) := by
  have hcap' := heapCap_eq
  have hsize : (Machine.addNode nd t).pqSize.toNat = t.pqSize.toNat + 1 :=
    pqSize_add_one (s := t) (by omega)
  refine ⟨by omega, fun i hi => ?_⟩
  have hother : (Machine.addNode nd t).heapAt i = (allocate nd t).heapAt i :=
    heapAt_enqueue_other _ _ (by rw [allocate_pqSize]; omega)
      (hi.imp_right fun hlt => by rw [allocate_pqSize]; omega)
  exact hother.trans (h.2 i hi)

theorem QueueWithin.dequeueRest (h : QueueWithin n s t) : QueueWithin n s (dequeueRest t) := by
  obtain ⟨hsize, hslots⟩ := h
  refine ⟨?_, fun i hi => (heapAt_dequeueRest_other t (by omega)).trans (hslots i hi)⟩
  by_cases h0 : t.pqSize = 0
  · rwa [dequeueRest_empty h0]
  · rw [toNat_dequeueRest_pqSize h0]
    omega

/-- A merge takes two nodes from the queue before it adds one (R119). -/
theorem QueueWithin.mergeStep (h : QueueWithin n s t) (hn : n ≤ 256) (h2 : 2 ≤ t.pqSize.toNat) :
    QueueWithin n s (mergeStep t) := by
  have hcap := heapCap_eq
  have hsize := h.1
  have hfirst := toNat_dequeueRest_pqSize (s := t) (by bv_omega)
  have hsecond := toNat_dequeueRest_pqSize (dequeueRest_pqSize_ne_zero h2)
  rw [mergeStep_eq]
  exact h.dequeueRest.dequeueRest.addNode _ (by omega) (by omega)

/-- As many slots as there are nodes: each leaf takes one record and one slot (R118). -/
theorem queueWithin_nodeCount_closed (s : State) : QueueClosed fun t => QueueWithin t.nodeCount.toNat s t := by
  refine ⟨fun t nd h hq hc => ?_, fun t h => ?_⟩
  · rw [toNat_addNode_nodeCount nd hc]
    exact (h.mono (Nat.le_succ _)).addNode nd (Nat.lt_succ_of_le h.1) hq
  · rw [dequeueRest_nodeCount]
    exact h.dequeueRest

/-- The leaves take one slot each, and the merges no other (R118, R119, R122). -/
theorem queueWithin_merged (s : State) :
    QueueWithin (participants (countBytes s.inputBytes)).length s s.merged := by
  have hl := length_participants_le (countBytes s.inputBytes)
  obtain ⟨hleaves, hsize, hcount⟩ :=
    withLeaves_induct (queueWithin_nodeCount_closed s) s ⟨Nat.zero_le _, fun _ _ => rfl⟩
  rw [hcount] at hleaves
  exact (mergeLoop_induct (fun t h h2 _ => h.mergeStep hl h2) _ _ hleaves le_rfl (by omega) (by omega)).1

theorem heapAt_built (s : State) (i : Nat) : s.merged.rooted.finish.heapAt i = (dequeueRest s.merged).heapAt i := by
  rw [State.heapAt, State.finish_heap, State.rooted_heap, State.heapAt]

/-! ### What BUILD's result depends on -/

theorem nsym_built_congr (h : s.inputBytes = s'.inputBytes) : s.merged.rooted.nsym = s'.merged.rooted.nsym :=
  BitVec.eq_of_toNat_eq (by rw [toNat_nsym_merged, toNat_nsym_merged, h])

/-- Equal input bytes are equally many (R24). -/
theorem inLen_congr (h : s.inputBytes = s'.inputBytes) : s.inLen = s'.inLen :=
  BitVec.eq_of_toNat_eq (by rw [← length_inputBytes, h, length_inputBytes])

/-! ### READ_NODE -/

theorem performReadNode_allocated {id : NodeId} (h : id.toNat < s.nodeCount.toNat) :
    performReadNode id s = .done (s.reportNode id) := by rw [performReadNode, if_pos h]

theorem performReadNode_free {id : NodeId} (h : s.nodeCount.toNat ≤ id.toNat) :
    performReadNode id s = .done s.reportInvalid := by rw [performReadNode, if_neg h.not_gt]

end Sys2Proof.Proofs.TreeBuilder

namespace Sys2Proof.Proofs

open Sys2Proof.Machine StateElements Encoding PriorityQueue TreeBuilder

/-- Settles O26: by the phase check, the check for input, and the counts and the frame of the state BUILD leaves. -/
theorem buildCountsTheInputAndCompletes : Obligations.BuildCountsTheInputAndCompletes := by
  refine ⟨rfl, onlyWord_build, fun s => ⟨fun hp => ?_, fun hp hl => ?_, fun hp hl => ?_⟩⟩
  · exact endsInSequence rfl (by simpa [allowedIn] using hp)
  · exact exec_raised s .emptyInput rfl (by rw [hp]; rfl) (performBuild_empty hl)
  · refine ⟨s.merged.rooted.finish, exec_build hp hl, congrArg State.finish (rooted_merged_frame hl), fun sym => ?_, ?_⟩
    · rw [freqAt_built]
      exact toNat_countBytes s sym
    · simp only [freqAt_built]
      exact toNat_nsym_merged s

/-- Settles O28: a node is added at NODE_COUNT and sifted through the slots in use, of which there are at most NSYM. -/
theorem buildLeavesOtherEntriesUnchanged : Obligations.BuildLeavesOtherEntriesUnchanged := by
  intro s t hp hl hn
  cases (exec_build hp hl).symm.trans hn
  refine ⟨fun n hfree => ?_, fun i hi => ?_⟩
  · rw [State.finish_nodeCount, State.rooted_nodeCount] at hfree
    rw [nodeAt_built]
    exact freeRecordsKept_merged s n hfree
  · rw [State.finish_nsym, toNat_nsym_merged] at hi
    rw [heapAt_built]
    exact (queueWithin_merged s).dequeueRest.2 i hi

/-- Settles O31: two builds of the same input agree on the queue and the allocated records at every step. -/
theorem buildDependsOnTheInputAlone : Obligations.BuildDependsOnTheInputAlone := by
  intro s s' t t' hp hp' hl hinput hn hn'
  cases (exec_build hp hl).symm.trans hn
  cases (exec_build hp' (inLen_congr hinput ▸ hl)).symm.trans hn'
  have hagree := merged_agree hinput
  simp only [State.finish_freq, State.finish_nsym, State.finish_nodeCount, State.finish_root, State.rooted_freq,
    State.rooted_nodeCount, State.rooted_root, nodeAt_built]
  exact ⟨hagree.freq, nsym_built_congr hinput, hagree.count, hagree.dequeueTop, hagree.nodes⟩

/-- Settles O24: by the encoding function, the unused fields, and the range of the allocated ids, in every phase. -/
theorem readNodeReportsTheRecord : Obligations.ReadNodeReportsTheRecord := by
  rintro id _ rfl
  refine ⟨encode_readNode id, fun _ hopc => decodeCommand_of_idxOpcode (by simp [hopc]),
    fun s => ⟨fun h => ?_, fun h => ?_⟩⟩
  · exact exec_done _ (encode_readNode id) rfl (performReadNode_allocated h)
  · exact exec_done _ (encode_readNode id) rfl (performReadNode_free h)

end Sys2Proof.Proofs
end

section
/-! SUPPORT. Proofs of the statements of spec/43_code_generator.md: the code table of PHASE CODED and DONE is that of the
tree, so no code begins another, the lengths are bounded, and the Kraft equality holds (R130). -/

namespace Sys2Proof.Proofs.CodeGenerator

open Sys2Proof Sys2Proof.Machine

variable {s : State} {c : CodeTree}

/-- The tree and its codes stand in PHASE CODED and DONE alike (R40). -/
theorem exists_tree_of_codes (h : s.Inv) (hp : s.phase = .coded ∨ s.phase = .done) :
    ∃ c, s.BuiltOk c ∧ s.CodesOk c := by
  rcases hp with hp | hp
  · obtain ⟨c, hb, hc, -⟩ := h.coded_of_phase hp
    exact ⟨c, hb, hc⟩
  · obtain ⟨c, hb, hc, -⟩ := h.done_of_phase hp
    exact ⟨c, hb, hc⟩

/-- The codes of the tree are those of the code table (R127). -/
theorem codes_eq (hc : s.CodesOk c) : c.codes = c.symbols.map fun b => (b, s.codeOf b) := by
  rw [← c.map_fst_codes, List.map_map]
  exact (List.map_id _).symm.trans (List.map_congr_left fun x hx => Prod.ext rfl (hc.codes x hx).symm)

/-- The code of a participating symbol is a code of the tree (R31, R127). -/
theorem codeOf_mem_codes (hb : s.BuiltOk c) (hc : s.CodesOk c) {b : Byte} (h : b ∈ s.inputBytes) :
    (b, s.codeOf b) ∈ c.codes := by
  rw [codes_eq hc]
  exact List.mem_map_of_mem ((hb.participating b).mpr h)

/-- A symbol takes part where its frequency is not 0, and the leaves are the symbols that do (R27, R31). -/
theorem symbolList_perm_symbols (hb : s.BuiltOk c) : (symbolList s.freq).Perm c.symbols := by
  refine (List.perm_ext_iff_of_nodup (nodup_symbolList _) hb.symbols).mpr fun b => ?_
  have hfreq : s.freqAt b.toNat ≠ 0 ↔ 0 < s.inputBytes.count b := by
    rw [← hb.freq b, Nat.pos_iff_ne_zero, ne_eq, ne_eq, BitVec.toNat_eq]
    rfl
  rw [mem_symbolList, hb.participating, ← List.count_pos_iff]
  exact hfreq

/-- A sum over the participating symbols, by number, is one over the leaves. -/
theorem sum_participants (hb : s.BuiltOk c) (f : Nat → Nat) :
    ((participants s.freq).map f).sum = (c.symbols.map fun b => f b.toNat).sum := by
  rw [← ((symbolList_perm_symbols hb).map _).sum_eq, symbolList, List.map_map]
  refine congrArg List.sum (List.map_congr_left fun i hi => ?_)
  simp [Nat.mod_eq_of_lt (mem_participants.mp hi).1]

/-- The Kraft equality of the codes of a tree that is no lone leaf (R130). -/
theorem kraft_codes (m : Nat) (h2 : 2 ≤ c.symbols.length) (hm : c.symbols.length ≤ m + 1) :
    (c.codes.map fun x => 2 ^ (m - x.2.length)).sum = 2 ^ m := by
  cases c with
  | leaf sym => exact absurd h2 (Nat.not_succ_le_self 1)
  | pair l r =>
    rw [CodeTree.codes_pair]
    exact CodeTree.kraft_paths _ m hm

/-- The Kraft equality of the code table, as sums of multiples of `2 ^ -255` (R130). -/
theorem kraft_codeLen (hb : s.BuiltOk c) (hc : s.CodesOk c) (h2 : 2 ≤ s.nsym.toNat) :
    ((participants s.freq).map fun sym => 2 ^ (255 - (s.codeLenAt sym).toNat)).sum = 2 ^ 255 := by
  have hlen := length_symbols hb
  have hle := nsym_le hb
  have hkraft := kraft_codes (c := c) 255 (by omega) (by omega)
  rw [codes_eq hc, List.map_map] at hkraft
  rw [sum_participants hb, ← hkraft]
  exact congrArg List.sum (List.map_congr_left fun b _ => by simp)

end Sys2Proof.Proofs.CodeGenerator

namespace Sys2Proof.Proofs

open Sys2Proof.Machine CodeGenerator

/-- Settles O33: the code table is that of the tree, whose codes are the paths to its leaves. -/
theorem codeTableIsPrefixFreeAndFull : Obligations.CodeTableIsPrefixFreeAndFull := by
  intro s hinv hp
  obtain ⟨c, hbuilt, hcodes⟩ := exists_tree_of_codes hinv hp
  refine ⟨fun a ha b hb hne hbegins => ?_, fun a ha => ?_, kraft_codeLen hbuilt hcodes⟩
  · have hsame := CodeTree.code_prefix (codeOf_mem_codes hbuilt hcodes ha) (codeOf_mem_codes hbuilt hcodes hb) hbegins
    exact hne (congrArg Prod.fst hsame)
  · have hmem := codeOf_mem_codes hbuilt hcodes ha
    have hlength := CodeTree.code_length hmem
    rw [length_symbols hbuilt] at hlength
    rcases hlength with ⟨hone, hcode⟩ | ⟨htwo, hbound⟩
    · exact ⟨fun h => by omega, fun _ => hcode⟩
    · exact ⟨fun _ => ⟨CodeTree.code_pos hmem, hbound⟩, fun h => by simp [h] at htwo⟩

end Sys2Proof.Proofs
end

section
/-! SUPPORT. Proofs of the statements of spec/44_codec_emit.md: what EMIT writes and when it raises (R132, R133, R135 to
R138), the length of the stream (R134, R137), and the input as all the stream depends on (R140). -/

namespace Sys2Proof.Proofs.Codec

open Sys2Proof Sys2Proof.Machine StateElements Window TreeBuilder CodeGenerator

variable {s s' t u : State} {c : CodeTree}

/-! ### What EMIT answers -/

theorem onlyWord_emit : OnlyWord 0x00000004 :=
  onlyWord_of_unused (i := .emit) (by decide) fun v hv => by
    simp only [decodeCommand, hv]
    rfl

/-- A stream that fits in OUT_CAP has a length that OUT_LEN can hold (R8, R10). -/
theorem length_lt_of_fits {bytes : List Byte} (hok : s.params.Ok) (hfits : bytes.length ≤ s.params.outCap) :
    bytes.length < 2 ^ 32 := by
  obtain ⟨-, -, -, hcap, -⟩ := hok
  omega

/-- EMIT leaves the bytes of OUTBUF beyond the stream (R138). -/
theorem outbuf_read_emitted_beyond (s : State) {bytes : List Byte} {k : Nat} (h : bytes.length ≤ k) :
    (s.emitted bytes).outbuf.read k = s.outbuf.read k := by
  rw [State.emitted_outbuf, Memory.read_writeList, if_neg (by omega)]

theorem exec_emit_fits (hp : s.phase = .coded) (h : s.BuiltOk c)
    (hfits : (s.stream c.bytes).length ≤ s.params.outCap) :
    exec .emit s = .next (s.emitted (s.stream c.bytes)).finish :=
  exec_done (w := 0x00000004) _ rfl (by rw [hp]; rfl) (performEmit_done h.tree hfits)

theorem exec_emit_overflows (hp : s.phase = .coded) (h : s.BuiltOk c)
    (hover : s.params.outCap < (s.stream c.bytes).length) :
    exec .emit s = .next (s.raise .outOverflow 0x00000004 false).finish :=
  exec_raised s .outOverflow rfl (by rw [hp]; rfl) (performEmit_raised h.tree hover)

/-! ### The length of the stream -/

theorem length_outputBytes (s : State) : s.outputBytes.length = s.outLen.toNat := Memory.length_take _ _

/-- OUT_LEN as the sum of the three parts of the stream (R132, R137). -/
theorem toNat_outLen_eq (hb : s.BuiltOk c) (hc : s.CodesOk c) (ho : s.OutputOk c) :
    s.outLen.toNat = s.treeLen.toNat + 8 + (s.bitcnt.toNat + 7) / 8 := by
  have hstream : s.outputBytes = s.stream c.bytes := ho.stream
  rw [← length_outputBytes, hstream, length_stream, length_treePart hb ho, bytesFor, hc.bitcnt]

/-- BITCNT is between one bit and 255 bits for each input byte (R130, R137). -/
theorem toNat_bitcnt_bounds (hb : s.BuiltOk c) (hc : s.CodesOk c) :
    s.inLen.toNat ≤ s.bitcnt.toNat ∧ s.bitcnt.toNat ≤ 255 * s.inLen.toNat := by
  rw [hc.bitcnt]
  exact ⟨length_payload_ge hb hc, length_payload_le⟩

theorem inLen_pos (hb : s.BuiltOk c) : 0 < s.inLen.toNat :=
  Nat.pos_of_ne_zero fun h => hb.input (BitVec.eq_of_toNat_eq h)

/-! ### The stream as a function of the input -/

/-- A tree has one code table (R127, R128). -/
theorem codeOf_eq_of_tree (hc : s.CodesOk c) (hc' : s'.CodesOk c) : s.codeOf = s'.codeOf := by
  funext b
  by_cases hb : b ∈ c.symbols
  · have hpairs := List.map_inj_left.mp ((codes_eq hc).symm.trans (codes_eq hc')) b hb
    exact congrArg Prod.snd hpairs
  · rw [hc.others b hb, hc'.others b hb]

/-- The input and its tree fix the stream (R132). -/
theorem stream_eq_of_tree (hc : s.CodesOk c) (hc' : s'.CodesOk c) (hinput : s.inputBytes = s'.inputBytes) :
    s.stream c.bytes = s'.stream c.bytes := by
  have hpayload : s.payload = s'.payload := by rw [State.payload, State.payload, codeOf_eq_of_tree hc hc', hinput]
  have hbitcnt : s.bitcnt = s'.bitcnt := BitVec.eq_of_toNat_eq (by rw [hc.bitcnt, hc'.bitcnt, hpayload])
  rw [State.stream, State.stream, hpayload, hbitcnt]

/-! ### COMPRESS without an error -/

/-- Without an error, a command has passed its phase check and its semantics has completed (R99 to R102). -/
theorem semantics_done_of_no_error {i : Instr} {w : Word} (hi : encode i = .command w) (hn : exec i s = .next t)
    (he : t.errCode = 0) : ∃ u, semantics i s = .done u ∧ t = u.finish := by
  rw [exec_command hi] at hn
  rcases runCommand_next hn with ⟨-, u, hu, rfl⟩ | ⟨-, e, u, -, rfl⟩ | ⟨-, rfl⟩
  · exact ⟨u, hu, rfl⟩
  · exact absurd he (raise_errCode_ne u e _ _)
  · exact absurd he (raise_errCode_ne s .sequence _ _)

theorem builtOk_withCodes (codes : List (Byte × List Bool)) (h : s.BuiltOk c) : (s.withCodes codes).BuiltOk c :=
  h.congr

/-- EMIT that completes leaves the stream of its tree (R138). -/
theorem outputBytes_performEmit (hok : s.params.Ok) (hb : s.BuiltOk c) (h : performEmit s = .done u) :
    u.outputBytes = s.stream c.bytes := by
  rcases performEmit_cases hb.tree with ⟨hfits, hemit⟩ | ⟨-, hemit⟩
  · cases hemit.symm.trans h
    exact outputBytes_emitted s (length_lt_of_fits hok hfits)
  · cases hemit.symm.trans h

theorem inputBytes_rooted_merged (s : State) : s.merged.rooted.inputBytes = s.inputBytes :=
  (State.finish_inputBytes _).symm.trans (inputBytes_built s)

theorem params_rooted_merged (s : State) : s.merged.rooted.params = s.params := by rw [rooted_merged_eq]

/-- COMPRESS without an error leaves the stream of a state `g` that holds the input, the tree of BUILD and its codes
(R139). -/
theorem outputBytes_compress (hok : s.params.Ok) (hn : exec .compress s = .next t) (he : t.errCode = 0) :
    ∃ (c : CodeTree) (g : State), s.merged.rooted.BuiltOk c ∧ g.CodesOk c ∧ g.inputBytes = s.inputBytes ∧
      t.outputBytes = g.stream c.bytes := by
  obtain ⟨u, hu, rfl⟩ := semantics_done_of_no_error (i := .compress) (w := 0x00000005) rfl hn he
  change performCompress s = .done u at hu
  by_cases hl : s.inLen = 0
  · rw [performCompress, performBuild_empty hl] at hu
    cases hu
  · obtain ⟨c, hb, hcompress⟩ := performCompress_eq hl
    rw [hcompress] at hu
    rw [← params_rooted_merged] at hok
    refine ⟨c, s.merged.rooted.withCodes c.codes, hb, codesOk_withCodes hb.symbols hb.freq, ?_, ?_⟩
    · rw [inputBytes_withCodes, inputBytes_rooted_merged]
    · rw [State.finish_outputBytes]
      exact outputBytes_performEmit hok (builtOk_withCodes c.codes hb) hu

end Sys2Proof.Proofs.Codec

namespace Sys2Proof.Proofs

open Sys2Proof.Machine StateElements Codec

/-- Settles O34: by the length of the stream of the tree against OUT_CAP. -/
theorem emitWritesTheStreamOrNothing : Obligations.EmitWritesTheStreamOrNothing := by
  refine ⟨rfl, onlyWord_emit, fun s hp => endsInSequence rfl (by simpa [allowedIn] using hp), ?_⟩
  intro s c stream hok hp hb _ hstream
  obtain rfl : stream = s.stream c.bytes := hstream
  refine ⟨fun hfits => ?_, exec_emit_overflows hp hb⟩
  have hlt := length_lt_of_fits hok hfits
  exact ⟨(s.emitted (s.stream c.bytes)).finish, exec_emit_fits hp hb hfits, outputBytes_emitted s hlt,
    toNat_outLen_emitted s hlt, toNat_treeLen hb (s.stream c.bytes), fun k hk => outbuf_read_emitted_beyond s hk, rfl⟩

/-- Settles O35: the three parts of the stream, each with its bounds. -/
theorem streamLengthAndItsBounds : Obligations.StreamLengthAndItsBounds := by
  intro s h hp
  obtain ⟨c, hb, hc, ho⟩ := h.done_of_phase hp
  have hlen := toNat_outLen_eq hb hc ho
  have htree := ho.treeLen
  have hnsym := nsym_pos hb
  have hnsym' := nsym_le hb
  obtain ⟨hbits, hbits'⟩ := toNat_bitcnt_bounds hb hc
  have hinput := inLen_pos hb
  omega

/-- Settles O41: the two builds make the same tree, which has one code table and so one stream. -/
theorem outputDependsOnTheInputAlone : Obligations.OutputDependsOnTheInputAlone := by
  intro s s' t t' hok hok' hinput hn hn' he he'
  obtain ⟨c, g, hb, hcodes, hbytes, hout⟩ := outputBytes_compress hok hn he
  obtain ⟨c', g', hb', hcodes', hbytes', hout'⟩ := outputBytes_compress hok' hn' he'
  obtain rfl := built_tree_agree hinput hb hb'
  rw [hout, hout']
  exact stream_eq_of_tree hcodes hcodes' (hbytes.trans (hinput.trans hbytes'.symm))

end Sys2Proof.Proofs
end

section
/-! SUPPORT. Proofs of the statements of spec/45_reference_decoder.md: the decoder reads back what COMPRESS writes
(R152), runs past the end of every proper prefix of it (R153), and reads nothing after the payload (R142, R143, R150). -/

namespace Sys2Proof.Proofs.ReferenceDecoder

open Sys2Proof Sys2Proof.Machine Codec CodeGenerator

variable {s : State} {c : CodeTree} {root : RefTree} {bytes rest out : List Byte}

/-! ### What DecTree reads -/

theorem decTree_absent (fuel : Nat) (rest : List Byte) : decTree (fuel + 1) (0 :: rest) = .ok (.null, rest) := rfl

theorem decTree_node {fuel : Nat} {sym : Byte} {l r : RefTree} {mid : List Byte}
    (hl : decTree fuel bytes = .ok (l, mid)) (hr : decTree fuel mid = .ok (r, rest)) :
    decTree (fuel + 1) (1 :: sym :: bytes) = .ok (.node sym l r, rest) := by
  rw [decTree_cons, if_neg (by decide), if_neg (by decide)]
  simp only [hl, hr]

theorem decTree_badTag (fuel : Nat) {tag : Byte} (h0 : tag ≠ 0) (h1 : tag ≠ 1) (rest : List Byte) :
    decTree (fuel + 1) (tag :: rest) = .error .corruptTree := by rw [decTree_cons, if_neg h0, if_pos h1]

/-- A call that succeeds has read the tag 0, or the tag 1, a symbol and two trees (R142). -/
theorem decTree_ok {fuel : Nat} (h : decTree (fuel + 1) bytes = .ok (root, rest)) :
    (bytes = 0 :: rest ∧ root = .null) ∨ ∃ sym body mid l r, bytes = 1 :: sym :: body ∧
      decTree fuel body = .ok (l, mid) ∧ decTree fuel mid = .ok (r, rest) ∧ root = .node sym l r := by
  match bytes with
  | [] => cases h
  | tag :: after =>
    by_cases h0 : tag = 0
    · subst h0
      cases (decTree_absent fuel after).symm.trans h
      exact .inl ⟨rfl, rfl⟩
    by_cases h1 : tag = 1
    · subst h1
      rw [decTree_cons, if_neg (by decide), if_neg (by decide)] at h
      split at h
      · cases h
      next sym body =>
        split at h
        · cases h
        next l mid hl =>
          split at h
          · cases h
          next r last hr =>
            cases h
            exact .inr ⟨sym, body, mid, l, r, rfl, hl, hr, rfl⟩
    · cases (decTree_badTag fuel h0 h1 after).symm.trans h

/-- With more fuel, and with bytes appended, the same tree is read (R142). -/
theorem decTree_append {fuel : Nat} (extra : List Byte) (k : Nat) (h : decTree fuel bytes = .ok (root, rest)) :
    decTree (fuel + k) (bytes ++ extra) = .ok (root, rest ++ extra) := by
  induction fuel generalizing bytes root rest with
  | zero => cases h
  | succ fuel ih =>
    rw [Nat.add_right_comm]
    obtain ⟨rfl, rfl⟩ | ⟨sym, body, mid, l, r, rfl, hl, hr, rfl⟩ := decTree_ok h
    · exact decTree_absent _ _
    · exact decTree_node (ih hl) (ih hr)

/-! ### What follows the tree -/

/-- Fewer than 8 bytes are no bit count (R144). -/
theorem decodeRest_short (h : rest.length < 8) : decodeRest root rest = .error .truncatedStream := if_pos h

/-- After the bit count of a stream, the payload is as many bytes as the count takes (R144, R145). -/
theorem decodeRest_le64 (root : RefTree) (x : BitVec 64) (payload : List Byte) :
    decodeRest root (le64 x ++ payload) =
      if payload.length < bytesFor x.toNat then .error .truncatedStream
      else decodeBits root (expandBits (payload.take (bytesFor x.toNat)) x.toNat) := by
  have hlen : ¬ (le64 x ++ payload).length < 8 := by simp
  have htake : (le64 x ++ payload).take 8 = le64 x := List.take_left' (length_le64 x)
  have hdrop : (le64 x ++ payload).drop 8 = payload := List.drop_left' (length_le64 x)
  simp only [decodeRest, if_neg hlen, htake, hdrop, lsbFirstBytes_le64]

/-- Bytes after the payload are ignored (R150). -/
theorem decodeRest_append (extra : List Byte) (h : decodeRest root rest = .ok out) :
    decodeRest root (rest ++ extra) = .ok out := by
  by_cases hcount : rest.length < 8
  · cases (decodeRest_short hcount).symm.trans h
  have htake : (rest ++ extra).take 8 = rest.take 8 := List.take_append_of_le_length (by omega)
  have hdrop : (rest ++ extra).drop 8 = rest.drop 8 ++ extra := List.drop_append_of_le_length (by omega)
  have hcount' : ¬ (rest ++ extra).length < 8 := by rw [List.length_append]; omega
  simp only [decodeRest, if_neg hcount, if_neg hcount', htake, hdrop] at h ⊢
  split at h
  · cases h
  next hpayload =>
    rw [if_neg (by rw [List.length_append]; omega), List.take_append_of_le_length (by omega)]
    exact h

/-! ### RefDecode in its two parts -/

theorem refDecode_of_decTree (h : decTree (bytes.length + 1) bytes = .ok (root, rest)) (hroot : root ≠ .null) :
    refDecode bytes = decodeRest root rest := by
  cases root with
  | null => exact absurd rfl hroot
  | node sym l r => simp only [refDecode, h]

theorem refDecode_of_decTree_error {e : DecodeFailure} (h : decTree (bytes.length + 1) bytes = .error e) :
    refDecode bytes = .error e := by simp only [refDecode, h]

theorem refDecode_of_decTree_null (h : decTree (bytes.length + 1) bytes = .ok (.null, rest)) :
    refDecode bytes = .error .corruptTree := by simp only [refDecode, h]

/-- A file that is decoded holds a tree with a root, and a bit count and a payload after it (R142 to R145). -/
theorem refDecode_ok (h : refDecode bytes = .ok out) : ∃ root rest,
    decTree (bytes.length + 1) bytes = .ok (root, rest) ∧ root ≠ .null ∧ decodeRest root rest = .ok out := by
  match hd : decTree (bytes.length + 1) bytes with
  | .error e => cases (refDecode_of_decTree_error hd).symm.trans h
  | .ok (.null, rest) => cases (refDecode_of_decTree_null hd).symm.trans h
  | .ok (.node sym l r, rest) => exact ⟨_, rest, rfl, nofun, (refDecode_of_decTree hd nofun).symm.trans h⟩

/-- Behind the bytes of a coding tree, the decoder has that tree and goes on with the bit count (R142, R144). -/
theorem refDecode_tree (c : CodeTree) (rest : List Byte) : refDecode (c.bytes ++ rest) = decodeRest c.toRef rest :=
  refDecode_of_decTree (decTree_bytes c rest _ (by rw [List.length_append]; omega)) c.toRef_ne_null

/-- A first tag other than 1 gives no root (R142, R143). -/
theorem refDecode_badTag {tag : Byte} (h : tag ≠ 1) (rest : List Byte) :
    refDecode (tag :: rest) = .error .corruptTree := by
  by_cases h0 : tag = 0
  · subst h0
    exact refDecode_of_decTree_null (decTree_absent _ rest)
  · exact refDecode_of_decTree_error (decTree_badTag _ h0 h rest)

theorem refDecode_append (extra : List Byte) (h : refDecode bytes = .ok out) :
    refDecode (bytes ++ extra) = .ok out := by
  obtain ⟨root, rest, htree, hroot, hrest⟩ := refDecode_ok h
  have htree' : decTree ((bytes ++ extra).length + 1) (bytes ++ extra) = .ok (root, rest ++ extra) := by
    rw [List.length_append, Nat.add_right_comm]
    exact decTree_append extra extra.length htree
  rw [refDecode_of_decTree htree' hroot]
  exact decodeRest_append extra hrest

/-! ### The stream and its prefixes -/

/-- The stream of a code table is decoded to the input, where every input byte has a leaf (R152). -/
theorem refDecode_stream (hc : s.CodesOk c) (hsym : ∀ b ∈ s.inputBytes, b ∈ c.symbols) :
    refDecode (s.stream c.bytes) = .ok s.inputBytes := by
  have hbits : expandBits (pack s.payload) s.payload.length = s.payload := expandBits_pack _
  rw [State.stream, List.append_assoc, refDecode_tree, decodeRest_le64, hc.bitcnt, if_neg (by simp),
    List.take_of_length_le (by simp), hbits]
  refine decodeBits_codes c s.codeOf s.inputBytes fun b hb => ?_
  rw [codes_eq hc]
  exact List.mem_map_of_mem (hsym b hb)

/-- A proper prefix of two lists in a row ends within the first, or is the first and a proper prefix of the second. -/
theorem proper_prefix_append {α : Type} {p a b : List α} (hp : p <+: a ++ b) (hne : p ≠ a ++ b) :
    (p <+: a ∧ p.length < a.length) ∨ ∃ q, p = a ++ q ∧ q <+: b ∧ q ≠ b := by
  by_cases hlen : p.length < a.length
  · exact .inl ⟨List.prefix_of_prefix_length_le hp (List.prefix_append a b) hlen.le, hlen⟩
  · obtain ⟨q, rfl⟩ := List.prefix_of_prefix_length_le (List.prefix_append a b) hp (by omega)
    exact .inr ⟨q, rfl, (List.prefix_append_right_inj a).mp hp, fun h => hne (h ▸ rfl)⟩

/-- A proper prefix of a stream ends within the tree, the bit count or the payload (R153). -/
theorem refDecode_proper_prefix (c : CodeTree) {x : BitVec 64} {payload p : List Byte}
    (hx : payload.length = bytesFor x.toNat) (hp : p <+: c.bytes ++ (le64 x ++ payload))
    (hne : p ≠ c.bytes ++ (le64 x ++ payload)) : refDecode p = .error .truncatedStream := by
  obtain ⟨htree, hlen⟩ | ⟨q, rfl, hq, hqne⟩ := proper_prefix_append hp hne
  · exact refDecode_of_decTree_error (decTree_prefix c p htree hlen _)
  rw [refDecode_tree]
  obtain ⟨-, hlen⟩ | ⟨r, rfl, hr, hrne⟩ := proper_prefix_append hq hqne
  · exact decodeRest_short (by rwa [length_le64] at hlen)
  · have hshort : r.length < payload.length :=
      lt_of_le_of_ne hr.length_le fun h => hrne (hr.eq_of_length h)
    rw [decodeRest_le64, if_pos (by omega)]

end Sys2Proof.Proofs.ReferenceDecoder

namespace Sys2Proof.Proofs

open Sys2Proof.Machine Codec ReferenceDecoder

/-- Settles O39: COMPRESS leaves the stream of the tree that BUILD makes, which has a leaf for every input byte. -/
theorem compressedOutputDecodesToTheInput : Obligations.CompressedOutputDecodesToTheInput := by
  intro s t hok hn he
  obtain ⟨c, g, hb, hcodes, hbytes, hout⟩ := outputBytes_compress hok hn he
  rw [hout, ← hbytes]
  refine refDecode_stream hcodes fun b hmem => (hb.participating b).mpr ?_
  rwa [inputBytes_rooted_merged, ← hbytes]

/-- Settles O40: a prefix that ends within one of the three parts of the stream leaves that part too short. -/
theorem truncatedStreamsAreRejected : Obligations.TruncatedStreamsAreRejected := by
  intro s hinv hp p hprefix hne
  obtain ⟨c, -, hcodes, ho⟩ := hinv.done_of_phase hp
  rw [ho.stream, List.append_assoc] at hprefix hne
  exact refDecode_proper_prefix c (by rw [length_pack, hcodes.bitcnt]) hprefix hne

/-- Settles O42: what the decoder reads stands before the bytes appended, and a first tag other than 1 gives no root. -/
theorem decoderIgnoresTrailingBytes : Obligations.DecoderIgnoresTrailingBytes :=
  ⟨fun _ extra _ h => refDecode_append extra h, fun _ rest h => refDecode_badTag h rest⟩

end Sys2Proof.Proofs
end

section
/-! SUPPORT. Proofs of the statements of spec/70_reset_and_hazards.md: what the registers read after reset (R172), and
the reset event as CLEAR from outside (R170, R171). -/

namespace Sys2Proof.Proofs.ResetEvent

open Sys2Proof Sys2Proof.Machine

variable {s s' : State} {i : Instr} {v : Word} {p : Params}

/-! ### Reads after reset -/

/-- Every field of STATUS is 0 after reset, PHASE as the code of IDLE (R69, R172). -/
theorem statusWord_resetWith (p : Params) : (State.resetWith p).statusWord = 0 := by
  have hfields : (State.resetWith p).statusWord = 0#26 ++ 0#2 ++ 0#1 ++ 0#1 ++ 0#1 ++ 0#1 := rfl
  exact hfields.trans (by decide)

theorem errorWord_resetWith (p : Params) : (State.resetWith p).errorWord = 0 := by
  have hfields : (State.resetWith p).errorWord = 0#23 ++ 0#1 ++ 0#4 ++ 0#4 := rfl
  exact hfields.trans (by decide)

theorem outAvail_resetWith (p : Params) : (State.resetWith p).outAvail = 0 := BitVec.sub_self _

theorem bitcntHi_resetWith (p : Params) : (State.resetWith p).bitcntHi = 0 := BitVec.extractLsb'_zero

/-- No command is pending after reset, so a guarded read gives its content (R41, R97). -/
theorem readGives_resetWith (h : exec i (State.resetWith p) = guardedRead v (State.resetWith p)) :
    ReadGives i v (State.resetWith p) := readGives_guarded h rfl rfl

/-! ### The reset event -/

theorem step_of_reset (h : s.fetch = .reset s') : step s = .next s'.cleared := by rw [step, h]

/-- A reset that is next, with the engine's step not before it, is what is fetched (R170). -/
theorem fetch_of_reset {first : Bool} {rest : List Planned}
    (ha : s.agenda = { engineFirst := first, event := .reset } :: rest) (hb : s.busy = false ∨ first = false) :
    s.fetch = .reset { s with agenda := rest } := by
  simp [State.fetch, engineNext_eq_false ha hb, ha]

end Sys2Proof.Proofs.ResetEvent

namespace Sys2Proof.Proofs

open Sys2Proof.Machine HostAccess ResetEvent

/-- Settles O2: ID, STATUS, IN_CAP and OUT_CAP are exact reads, DATA_OUT has no byte to pop, and the others are guarded
reads of a content that is its reset value. -/
theorem registersReadTheirResetValues : Obligations.RegistersReadTheirResetValues := by
  intro p
  obtain ⟨-, hid, hinCap, houtCap⟩ := constantsAndStatusReadExactly (State.resetWith p)
  have hstatus : ReadGives .rdStatus 0 (State.resetWith p) := readGives_exact rfl (statusWord_resetWith p)
  have herror : ReadGives .rdError 0 (State.resetWith p) := readGives_guarded rfl rfl (errorWord_resetWith p)
  have houtAvail : ReadGives .rdOutAvail 0 (State.resetWith p) := readGives_guarded rfl rfl (outAvail_resetWith p)
  have hbitcntHi : ReadGives .rdBitcntHi 0 (State.resetWith p) := readGives_guarded rfl rfl (bitcntHi_resetWith p)
  have hdataOut : ReadGives .rdDataOut 0 (State.resetWith p) := exec_rdDataOut_empty rfl le_rfl
  exact ⟨hid, hstatus, herror, readGives_resetWith rfl, readGives_resetWith rfl, readGives_resetWith rfl,
    readGives_resetWith rfl, houtAvail, readGives_resetWith rfl, readGives_resetWith rfl, readGives_resetWith rfl,
    readGives_resetWith rfl, hbitcntHi, readGives_resetWith rfl, readGives_resetWith rfl, readGives_resetWith rfl,
    readGives_resetWith rfl, readGives_resetWith rfl, hinCap, houtCap, hdataOut, rfl⟩

/-- Settles O4: the step clears the state whose agenda has lost the reset, and CLEAR's equation is that of O14. -/
theorem resetEventReturnsEveryElement : Obligations.ResetEventReturnsEveryElement := by
  obtain ⟨-, -, hclear, -⟩ := clearReturnsEveryElement
  exact ⟨fun _ _ _ ha hb => step_of_reset (fetch_of_reset ha hb), hclear⟩

end Sys2Proof.Proofs
end
